-- ==== Sys2Proof/Word.lean ====
section
/-! DEFINITION. Word.lean: the two word types of 00_scope.md R13. Every other width of the spec is a
natural number ("Lengths, counts and indices that the rules compute ... are unbounded natural numbers"). -/

namespace Sys2Proof

/-- R13: "A **byte** is an 8-bit unsigned value `0..255`." -/
abbrev Byte := BitVec 8

/-- R13: "A **word** is a 16-bit unsigned value `0..65535`." -/
abbrev Word := BitVec 16

end Sys2Proof
end

