-- ==== Sys2Proof/Config.lean ====
section
/-! DEFINITION. Config.lean: the fixed parameters of 00_scope.md R7, the two policy parameters of U9, the
answers the collaborators may give (20_memory.md R53 to R57), and the free values (no body: nothing can
be proved of them beyond their type). -/

namespace Sys2Proof

/-- R14: the two levels of an output line, `LOW = 0`, `HIGH = 1`. -/
inductive Level where
  | low
  | high
deriving DecidableEq, Repr, Inhabited

/-- R55, R56, R57: the answer of `OpenStream`, `Flush`, `OpenGpio` and `ConfigOutput`: `Ok` or the
primitive's own failure answer (`OpenError`, `FlushError`, `GpioError`). -/
inductive Answer where
  | ok
  | failed
deriving DecidableEq, Repr, Inhabited

/-- R53: the three answers of `Write(b)`. -/
inductive WriteAnswer where
  /-- `Accepted(1)`: exactly one byte accepted. -/
  | accepted1
  /-- `Accepted(0)`: no byte accepted, a partial write. -/
  | accepted0
  /-- `WriteError`: the write failed. -/
  | writeError
deriving DecidableEq, Repr, Inhabited

/-- R54: the four answers of `Read(n)`. -/
inductive ReadAnswer where
  /-- `Data(bs)`, some bytes. -/
  | data (bs : List Byte)
  /-- `Zero`: the call returned zero bytes. -/
  | zero
  /-- `EOS`: end-of-stream. -/
  | eos
  /-- `ReadError`: the read failed. -/
  | readError
deriving DecidableEq, Repr, Inhabited

/-- What the environment does during one `Read` (R11, R54, log 4). `bytes arrived most`: the bytes
`arrived` come in behind those already in the receive queue, and the call returns bytes from the head
of the queue, at most `most` of them (and at most the `n` asked for). -/
inductive Arrival where
  | bytes (arrived : List Byte) (most : Nat)
  | zero
  | eos
  | readError
deriving DecidableEq, Repr, Inhabited

/-- U9: the two policies the spec keeps as parameters (log 6). -/
structure Params where
  /-- `ECHO_CHECK_FC06` (R7, D8): write-single-register compares response bytes 2 to 5. -/
  echoCheckFc06 : Bool
  /-- `TX_ABORT_RESTORES_RX` (R7, D13): an aborted transmission switches back to receive mode. -/
  txAbortRestoresRx : Bool
deriving DecidableEq, Repr, Inhabited

/-- R8, R15: the delays are events that carry the parameter's name; they have no number. -/
inductive DelayName where
  | lineSettle
  | interByte
  | postFrame
  | preReceive
  | readPacing
deriving DecidableEq, Repr, Inhabited

namespace Config

/-- R7: spec defaults, `ECHO_CHECK_FC06 = false`, `TX_ABORT_RESTORES_RX = true`. -/
def defaultParams : Params := { echoCheckFc06 := false, txAbortRestoresRx := true }

/-- R7 `CRC_INIT`. -/
def crcInit : Word := 0xFFFF#16

/-- R7 `CRC_POLY`. -/
def crcPoly : Word := 0xA001#16

/-- R7 `CRC_ITER`. -/
def crcIter : Nat := 8

/-- R7 `MAX_COILS_WRITE` (D10). -/
def maxCoilsWrite : Nat := 2040

/-- R7 `MAX_REGS_WRITE` (D10). -/
def maxRegsWrite : Nat := 127

/-- R7 `RXBUF_CAP` (D11). -/
def rxBufCap : Nat := 131075

/-- R7 `TXBUF_CAP` (D11). -/
def txBufCap : Nat := 264

/-- FREE VALUE (log 3): what the environment answers to draw number `n` of an `Ok`-or-failure
primitive, where the queue of State holds no answer. -/
opaque freeAnswer : Nat → Answer

/-- FREE VALUE (log 3): the answer to a `Write`, where the queue of State holds none. -/
opaque freeWrite : Nat → WriteAnswer

/-- FREE VALUE (log 3): what happens during a `Read`, where the queue of State holds nothing. -/
opaque freeArrival : Nat → Arrival

/-- FREE VALUE (log 12): a line level after CLOSE or a failed CONSTRUCT (R41, R42, U2). -/
opaque freeLevel : Nat → Level

end Config

end Sys2Proof
end

