-- ==== Sys2Proof/Syntax.lean ====
section
/-! DEFINITION. Syntax.lean: the instructions. One constructor per row of spec/opcode_table.json: the ten
commands of 30_encoding.md R80 with their typed operands, and the two micro-operations of the CRC unit
(R95). PORT, BAUD, DE_ID and RE_ID are natural numbers (log 16). -/

namespace Sys2Proof

inductive Instr where
  /-- `READ_COILS slave start count`, 43_read_ops.md R176. -/
  | readCoils (slave : Byte) (start count : Word)
  /-- `READ_DISCRETE_INPUTS slave start count`, R177. -/
  | readDiscreteInputs (slave : Byte) (start count : Word)
  /-- `READ_HOLDING_REGISTERS slave start count`, R178. -/
  | readHoldingRegisters (slave : Byte) (start count : Word)
  /-- `READ_INPUT_REGISTERS slave start count`, R179. -/
  | readInputRegisters (slave : Byte) (start count : Word)
  /-- `WRITE_COIL slave addr value`, 44_write_ops.md R186. -/
  | writeCoil (slave : Byte) (addr : Word) (value : Bool)
  /-- `WRITE_REGISTER slave addr value`, R187. -/
  | writeRegister (slave : Byte) (addr value : Word)
  /-- `WRITE_MULTIPLE_COILS slave start values`, R190. -/
  | writeMultipleCoils (slave : Byte) (start : Word) (values : List Bool)
  /-- `WRITE_MULTIPLE_REGISTERS slave start values`, R194. -/
  | writeMultipleRegisters (slave : Byte) (start : Word) (values : List Word)
  /-- `CONSTRUCT port baud de_id re_id`, 45_lifecycle.md R201. -/
  | construct (port baud deId reId : Nat)
  /-- `CLOSE`, R203. -/
  | close
  /-- `CRC16.RESET`, 40_crc16.md R111. -/
  | crcReset
  /-- `CRC16.UPDATE b`, R112. -/
  | crcUpdate (b : Byte)
deriving DecidableEq, Repr

/-- The eight bus operations of R2; the others send no frame. -/
def Instr.isBusOp : Instr → Bool
  | .readCoils _ _ _ => true
  | .readDiscreteInputs _ _ _ => true
  | .readHoldingRegisters _ _ _ => true
  | .readInputRegisters _ _ _ => true
  | .writeCoil _ _ _ => true
  | .writeRegister _ _ _ => true
  | .writeMultipleCoils _ _ _ => true
  | .writeMultipleRegisters _ _ _ => true
  | .construct _ _ _ _ => false
  | .close => false
  | .crcReset => false
  | .crcUpdate _ => false

end Sys2Proof
end

