-- ==== Sys2Proof/WellFormed.lean ====
section
/-! DEFINITION. WellFormed.lean: the instructions whose operands the encodings can hold: the limits of
R192 and R195 on the two multiple writes, and the 32-bit fields the model's command port gives the
operands of CONSTRUCT (log 16). Every other operand is bounded by its type (R98). -/

namespace Sys2Proof

/-- Whether an operand of CONSTRUCT fits its 32-bit field of the command port (log 16). -/
def fits32 (n : Nat) : Bool := decide (n < 2 ^ 32)

def Instr.wellFormed : Instr → Bool
  | .readCoils _ _ _ => true
  | .readDiscreteInputs _ _ _ => true
  | .readHoldingRegisters _ _ _ => true
  | .readInputRegisters _ _ _ => true
  | .writeCoil _ _ _ => true
  | .writeRegister _ _ _ => true
  | .writeMultipleCoils _ _ values => decide (values.length ≤ Config.maxCoilsWrite)
  | .writeMultipleRegisters _ _ values => decide (values.length ≤ Config.maxRegsWrite)
  | .construct port baud deId reId => fits32 port && fits32 baud && fits32 deId && fits32 reId
  | .close => true
  | .crcReset => true
  | .crcUpdate _ => true

/-- An instruction the encodings of the spec and of the command port can hold. -/
abbrev Instr.WellFormed (i : Instr) : Prop := i.wellFormed = true

end Sys2Proof
end

