-- ==== Sys2Proof/Machine/Operands.lean ====
section
/-! DEFINITION. Operands.lean: byte order, bit numbering, operand assembly and the two length functions
(00_scope.md R13, R14; 20_memory.md R60 to R62; 30_encoding.md R90 to R92). Pure functions; no state. -/

namespace Sys2Proof.Machine

/-- R13: `hi(w) = w[15:8]`. -/
def hiByte (w : Word) : Byte := (w >>> 8).setWidth 8

/-- R13: `lo(w) = w[7:0]`. -/
def loByte (w : Word) : Byte := w.setWidth 8

/-- R14: `be16(w) = [hi(w), lo(w)]`. -/
def be16 (w : Word) : List Byte := [hiByte w, loByte w]

/-- R14: `le16(w) = [lo(w), hi(w)]`. -/
def le16 (w : Word) : List Byte := [loByte w, hiByte w]

/-- R14: `word_be(a, b) = (a << 8) or b`. -/
def wordBe (a b : Byte) : Word := (a.setWidth 16 <<< 8) ||| b.setWidth 16

/-- R14: `word_le(a, b) = (b << 8) or a`. -/
def wordLe (a b : Byte) : Word := wordBe b a

/-- R13: `ceil(a/8) = (a + 7) div 8`. -/
def ceil8 (n : Nat) : Nat := (n + 7) / 8

/-- R90: the boolean operand of WRITE_COIL enters the frame as `0xFF00` or `0x0000`. -/
def coilWord (value : Bool) : Word := if value then 0xFF00#16 else 0x0000#16

/-- Byte `i` of a sequence, offsets from 0 (R14). No rule reads past the end (R59, R138). -/
def byteAt (s : List Byte) (i : Nat) : Byte := s.getD i 0#8

/-- R62: point `i` of a packed sequence is bit `i mod 8` of data byte `i div 8`. -/
def bitAt (data : List Byte) (i : Nat) : Bool := (byteAt data (i / 8)).getLsbD (i % 8)

/-- The first `n` points of a packed sequence. -/
def bitsOf (data : List Byte) (n : Nat) : List Bool := (List.range n).map (bitAt data)

/-- Register `i` of a big-endian sequence of words. -/
def regAt (data : List Byte) (i : Nat) : Word := wordBe (byteAt data (2 * i)) (byteAt data (2 * i + 1))

/-- The first `n` words of a big-endian sequence. -/
def regsOf (data : List Byte) (n : Nat) : List Word := (List.range n).map (regAt data)

/-- Whether a function code is one of the two bit-valued reads (R91, R175). -/
def isBitRead (fc : Byte) : Bool := fc == 0x01#8 || fc == 0x02#8

/-- Whether a function code is one of the two register-valued reads (R91, R175). -/
def isRegRead (fc : Byte) : Bool := fc == 0x03#8 || fc == 0x04#8

/-- R91: `EXPLEN`, a function of the function code and the count alone, in unbounded naturals. -/
def expectedLength (fc : Byte) (count : Nat) : Nat :=
  if isBitRead fc then 5 + ceil8 count
  else if isRegRead fc then 5 + 2 * count
  else 8

/-- Four bytes of a natural number, most significant first (the CONSTRUCT fields of the model's own
command port, log 16). -/
def be32 (n : Nat) : List Byte :=
  [BitVec.ofNat 8 (n / 2 ^ 24), BitVec.ofNat 8 (n / 2 ^ 16), BitVec.ofNat 8 (n / 2 ^ 8), BitVec.ofNat 8 n]

/-- The inverse of `be32`. -/
def nat32 (a b c d : Byte) : Nat := ((a.toNat * 2 ^ 8 + b.toNat) * 2 ^ 8 + c.toNat) * 2 ^ 8 + d.toNat

end Sys2Proof.Machine
end

