-- ==== Sys2Proof/Machine/Codec.lean ====
section
/-! DEFINITION. Codec.lean: the pure functions of 40_crc16.md (Shift1, the byte update, crc16, AppendCrc) and
41_frame_codec.md (the request bodies, PackBits, UnpackBits, UnpackRegs), on byte sequences. -/

namespace Sys2Proof.Machine

/-- R113: `Shift1(c) = if c[0] = 1 then (c >> 1) xor 0xA001 else c >> 1`. -/
def shift1 (c : Word) : Word := if c.getLsbD 0 then (c >>> 1) ^^^ Config.crcPoly else c >>> 1

/-- `k` applications of `Shift1`. -/
def shiftN : Nat → Word → Word
  | 0, c => c
  | k + 1, c => shiftN k (shift1 c)

/-- R112, R113: the value `CRC16.UPDATE b` gives the accumulator `c`. -/
def crcByte (c : Word) (b : Byte) : Word := shiftN Config.crcIter (c ^^^ b.setWidth 16)

/-- The accumulator after a byte sequence, started at `c`, offset 0 first. It is `crcByte` folded over the
bytes (`crcFrom_cons`); the match has the accumulator worked out to a number after every byte, so that
long frames can be evaluated. -/
def crcFrom (c : Word) : List Byte → Word
  | [] => c
  | b :: rest =>
    match (crcByte c b).toNat with
    | 0 => crcFrom 0#16 rest
    | n + 1 => crcFrom (BitVec.ofNat 16 (n + 1)) rest

/-- R114: `crc16(s)`: CRC16.RESET, then CRC16.UPDATE for each byte, offset 0 first. -/
def crc16 (s : List Byte) : Word := crcFrom Config.crcInit s

/-- R115: `AppendCrc(body) = body ++ le16(crc16(body))`. -/
def appendCrc (body : List Byte) : List Byte := body ++ le16 (crc16 body)

/-- R126: `Body4(slave, fc, A, B) = [slave, fc] ++ be16(A) ++ be16(B)`. -/
def body4 (slave fc : Byte) (a b : Word) : List Byte := [slave, fc] ++ be16 a ++ be16 b

/-- R127: data byte `j` of PackBits: bit `k` is set where value `8*j + k` exists and is true. -/
def packByte (values : List Bool) (j : Nat) : Byte :=
  (List.range 8).foldl (fun acc k => if values.getD (8 * j + k) false then acc ||| (1#8 <<< k) else acc) 0#8

/-- R127: `PackBits(values)`, `ceil(n/8)` bytes; unused bits of the last byte stay 0 (D24). -/
def packBits (values : List Bool) : List Byte := (List.range (ceil8 values.length)).map (packByte values)

/-- The register values of a request, each high byte first (R60, R86). -/
def packRegs (values : List Word) : List Byte := values.flatMap be16

/-- R128: `BodyWMC`; defined for at most `MAX_COILS_WRITE` values. -/
def bodyWMC (slave : Byte) (start : Word) (values : List Bool) : List Byte :=
  [slave, 0x0F#8] ++ be16 start ++ be16 (BitVec.ofNat 16 values.length)
    ++ [BitVec.ofNat 8 (ceil8 values.length)] ++ packBits values

/-- R129: `BodyWMR`; defined for at most `MAX_REGS_WRITE` values. -/
def bodyWMR (slave : Byte) (start : Word) (values : List Word) : List Byte :=
  [slave, 0x10#8] ++ be16 start ++ be16 (BitVec.ofNat 16 values.length)
    ++ [BitVec.ofNat 8 (2 * values.length)] ++ packRegs values

/-- R132: element `i` of UnpackBits: decoded where byte `i div 8` lies inside the slave-reported byte
count, else false. -/
def unpackBit (rsp : List Byte) (i : Nat) : Bool :=
  if i / 8 < (byteAt rsp 2).toNat then (byteAt rsp (3 + i / 8)).getLsbD (i % 8) else false

/-- R132: `UnpackBits(rsp, count)`. -/
def unpackBits (rsp : List Byte) (count : Nat) : List Bool := (List.range count).map (unpackBit rsp)

/-- R133: element `i` of UnpackRegs: decoded where both its bytes lie inside the slave-reported byte
count (D12), else `0x0000`. -/
def unpackReg (rsp : List Byte) (i : Nat) : Word :=
  if 2 * i + 1 < (byteAt rsp 2).toNat then wordBe (byteAt rsp (3 + 2 * i)) (byteAt rsp (4 + 2 * i)) else 0x0000#16

/-- R133: `UnpackRegs(rsp, count)`. -/
def unpackRegs (rsp : List Byte) (count : Nat) : List Word := (List.range count).map (unpackReg rsp)

/-- R116: the received CRC, `word_le(rsp[L-2], rsp[L-1])`. -/
def receivedCrc (rsp : List Byte) : Word := wordLe (byteAt rsp (rsp.length - 2)) (byteAt rsp (rsp.length - 1))

/-- R116: the computed CRC, `crc16(rsp[0 .. L-3])`. -/
def computedCrc (rsp : List Byte) : Word := crc16 (rsp.take (rsp.length - 2))

/-- R135: the lowest offset among `offs` at which the two sequences differ. -/
def firstDiff (a b : List Byte) : List Nat → Option Nat
  | [] => none
  | i :: rest => if byteAt a i = byteAt b i then firstDiff a b rest else some i

end Sys2Proof.Machine
end

