-- ==== Sys2Proof/Decode.lean ====
section
/-! DEFINITION. Decode.lean: from the words at the block's ports to an instruction, rejecting by name, and the
encoder. The source gives the command port no binary form (30_encoding.md R81, D2); the layout is the
model's (log 7): a bus operation is its request body, bytes `[slave, cmd_op] ++ operands` as R84 to R86
lay them out (the two CRC bytes are computed by the block and are no operand), and a lifecycle command
is `[0x00, cmd_op] ++ operands`. The CRC unit's control word `{init, en, din[7:0]}` (R95) is two bytes,
`[000000 init en, din]` (log 8). Bytes after an instruction's own are left over. -/

namespace Sys2Proof

/-- Which port a word stands at: the host's command port (R81), or the control port of the CRC unit inside the
block (R95), which the host does not reach (R120). -/
inductive PortUnit where
  | command
  | crcControl
deriving DecidableEq, Repr

/-- Why a word selects no instruction. All are safe: the run stops. -/
inductive Reject where
  /-- Fewer bytes than the selected instruction has. -/
  | truncated
  /-- R81, R98: "Every other `cmd_op` value selects no command and is refused". -/
  | unknownSelector (op : Byte)
  /-- A lifecycle command with a nonzero byte where a bus operation has its slave (log 7). -/
  | strayByte
  /-- WRITE_COIL with a coil word other than 0xFF00 and 0x0000 (R84, R186). -/
  | badCoilWord (w : Word)
  /-- A multiple write whose byte count is not the one its quantity gives (R85, R86, R90). -/
  | badByteCount
  /-- A multiple-coil write with a set bit beyond its last value (R127, D24). -/
  | badPadding
  /-- Control word `11xxxxxxxx` (R95, U13). -/
  | illegalControlWord
  /-- A control word of more than 10 bits. -/
  | wideControlWord
deriving DecidableEq, Repr

/-- What a word at a port is: an instruction with the bytes after it, the control word
`00xxxxxxxx` that holds `CRC` (R95), or nothing, by name. -/
inductive Decoded where
  | instr (i : Instr) (rest : List Byte)
  | hold (rest : List Byte)
  | rejected (why : Reject)
deriving DecidableEq, Repr

open Sys2Proof.Machine

/-- Format RQ4 with two word operands (R84). -/
def decodeQuad (make : Word → Word → Instr) : List Byte → Decoded
  | a1 :: a0 :: b1 :: b0 :: rest => .instr (make (wordBe a1 a0) (wordBe b1 b0)) rest
  | _ => .rejected .truncated

/-- Format RQ4 of WRITE_COIL: the second word is 0xFF00 or 0x0000 (R84, R186). -/
def decodeCoil (slave : Byte) : List Byte → Decoded
  | a1 :: a0 :: b1 :: b0 :: rest =>
    if wordBe b1 b0 = coilWord true then .instr (.writeCoil slave (wordBe a1 a0) true) rest
    else if wordBe b1 b0 = coilWord false then .instr (.writeCoil slave (wordBe a1 a0) false) rest
    else .rejected (.badCoilWord (wordBe b1 b0))
  | _ => .rejected .truncated

/-- Format RQ_WMC after the function code (R85): start, quantity, byte count, packed bits. -/
def decodeManyCoils (slave : Byte) : List Byte → Decoded
  | a1 :: a0 :: n1 :: n0 :: bc :: rest =>
    let n := (wordBe n1 n0).toNat
    let data := rest.take bc.toNat
    if bc.toNat ≠ ceil8 n then .rejected .badByteCount
    else if rest.length < bc.toNat then .rejected .truncated
    else if packBits (bitsOf data n) = data then
      .instr (.writeMultipleCoils slave (wordBe a1 a0) (bitsOf data n)) (rest.drop bc.toNat)
    else .rejected .badPadding
  | _ => .rejected .truncated

/-- Format RQ_WMR after the function code (R86): start, quantity, byte count, values. -/
def decodeManyRegs (slave : Byte) : List Byte → Decoded
  | a1 :: a0 :: n1 :: n0 :: bc :: rest =>
    let n := (wordBe n1 n0).toNat
    if bc.toNat ≠ 2 * n then .rejected .badByteCount
    else if rest.length < bc.toNat then .rejected .truncated
    else .instr (.writeMultipleRegisters slave (wordBe a1 a0) (regsOf rest n)) (rest.drop bc.toNat)
  | _ => .rejected .truncated

/-- The operands of CONSTRUCT: four 32-bit fields, most significant byte first (log 16). -/
def decodeConstruct : List Byte → Decoded
  | p3 :: p2 :: p1 :: p0 :: b3 :: b2 :: b1 :: b0 :: d3 :: d2 :: d1 :: d0 :: r3 :: r2 :: r1 :: r0 :: rest =>
    .instr (.construct (nat32 p3 p2 p1 p0) (nat32 b3 b2 b1 b0) (nat32 d3 d2 d1 d0) (nat32 r3 r2 r1 r0)) rest
  | _ => .rejected .truncated

/-- The ten selectors of R81 and R94. -/
def decodeSelected (slave op : Byte) (operands : List Byte) : Decoded :=
  if op = 0x01#8 then decodeQuad (.readCoils slave) operands
  else if op = 0x02#8 then decodeQuad (.readDiscreteInputs slave) operands
  else if op = 0x03#8 then decodeQuad (.readHoldingRegisters slave) operands
  else if op = 0x04#8 then decodeQuad (.readInputRegisters slave) operands
  else if op = 0x05#8 then decodeCoil slave operands
  else if op = 0x06#8 then decodeQuad (.writeRegister slave) operands
  else if op = 0x0F#8 then decodeManyCoils slave operands
  else if op = 0x10#8 then decodeManyRegs slave operands
  else if op = 0xF0#8 then (if slave = 0#8 then decodeConstruct operands else .rejected .strayByte)
  else if op = 0xF1#8 then (if slave = 0#8 then .instr .close operands else .rejected .strayByte)
  else .rejected (.unknownSelector op)

/-- A word of the command port. -/
def decodeCommand : List Byte → Decoded
  | slave :: op :: operands => decodeSelected slave op operands
  | _ => .rejected .truncated

/-- A control word of the CRC unit (R95): `10` RESET (din ignored), `01` UPDATE din, `00` hold, `11` refused. -/
def decodeControl : List Byte → Decoded
  | c :: din :: rest =>
    if c = 0x02#8 then .instr .crcReset rest
    else if c = 0x01#8 then .instr (.crcUpdate din) rest
    else if c = 0x00#8 then .hold rest
    else if c = 0x03#8 then .rejected .illegalControlWord
    else .rejected .wideControlWord
  | _ => .rejected .truncated

/-- Total on any bytes. -/
def decode : PortUnit → List Byte → Decoded
  | .command, bs => decodeCommand bs
  | .crcControl, bs => decodeControl bs

/-! The encoder, after the decoder. -/

/-- The port an instruction's word stands at. -/
def unitOf : Instr → PortUnit
  | .crcReset => .crcControl
  | .crcUpdate _ => .crcControl
  | .readCoils _ _ _ => .command
  | .readDiscreteInputs _ _ _ => .command
  | .readHoldingRegisters _ _ _ => .command
  | .readInputRegisters _ _ _ => .command
  | .writeCoil _ _ _ => .command
  | .writeRegister _ _ _ => .command
  | .writeMultipleCoils _ _ _ => .command
  | .writeMultipleRegisters _ _ _ => .command
  | .construct _ _ _ _ => .command
  | .close => .command

/-- The bytes of a well-formed instruction at its port; for a bus operation, its request body (R84 to R86). -/
def encode : Instr → List Byte
  | .readCoils slave start count => body4 slave 0x01#8 start count
  | .readDiscreteInputs slave start count => body4 slave 0x02#8 start count
  | .readHoldingRegisters slave start count => body4 slave 0x03#8 start count
  | .readInputRegisters slave start count => body4 slave 0x04#8 start count
  | .writeCoil slave addr value => body4 slave 0x05#8 addr (coilWord value)
  | .writeRegister slave addr value => body4 slave 0x06#8 addr value
  | .writeMultipleCoils slave start values => bodyWMC slave start values
  | .writeMultipleRegisters slave start values => bodyWMR slave start values
  | .construct port baud deId reId => [0x00#8, 0xF0#8] ++ be32 port ++ be32 baud ++ be32 deId ++ be32 reId
  | .close => [0x00#8, 0xF1#8]
  | .crcReset => [0x02#8, 0x00#8]
  | .crcUpdate b => [0x01#8, b]

/-- The frame a bus operation sends (R83): its body and the CRC-16 of it, low byte first. -/
def requestFrame (i : Instr) : List Byte := appendCrc (encode i)

/-! The opcode table's numbering: bit 0 is the least significant bit of the first word, and with
`(frame[0] << 8) | frame[1]` (R94) a word is 16 bits, its first byte the high one. -/

/-- The bytes in which the longest instruction fits: 7 + 255 bytes of a multiple-coil write. -/
def longestBytes : Nat := 262

/-- The words of `w` from the first on, each high byte first. -/
def wordsOfTable : Nat → Nat → List Byte
  | 0, _ => []
  | k + 1, w => be16 (BitVec.ofNat 16 (w % 2 ^ 16)) ++ wordsOfTable k (w / 2 ^ 16)

/-- The bytes of a table word: its `nbits` bits, then zeros up to the longest instruction. -/
def tableBytes (nbits w : Nat) : List Byte :=
  wordsOfTable (max (longestBytes / 2) ((nbits + 15) / 16)) (w % 2 ^ nbits)

/-- The port a table word belongs to: the command port where that decodes it, else the CRC unit's
control port (log 9). -/
def tableUnit (nbits w : Nat) : PortUnit :=
  match decodeCommand (tableBytes nbits w) with
  | .instr _ _ => .command
  | _ => .crcControl

/-- The instruction the decoder reads from a table word. -/
def decodeTableWord (nbits w : Nat) : Option Instr :=
  match decode (tableUnit nbits w) (tableBytes nbits w) with
  | .instr i _ => some i
  | _ => none

end Sys2Proof
end

