-- ==== Sys2Proof/Machine/State.lean ====
section
/-! DEFINITION. State.lean: the state of 10_state.md R20, one field per row, the environment's side the block
sees through its answers (R11, R38), and what the model adds to run and to observe (log 2, 3, 5, 6, 10). -/

namespace Sys2Proof.Machine

/-- R33, R200: the two lifecycle states. -/
inductive Life where
  | closed
  | opened
deriving DecidableEq, Repr

/-- R28: the five turnaround states, the block's program counter. -/
inductive Seq where
  | receiveMode
  | switchingToTransmit
  | transmitting
  | switchingToReceive
  | receiving
deriving DecidableEq, Repr

/-- R27, R210, R212: the result kind of a command. -/
inductive Status where
  | ok
  | transportError
  | timeoutError
  | protocolMismatchError
  | crcError
  | setupError
deriving DecidableEq, Repr

/-- R27, R213, D25: which result sequence is valid. -/
inductive ResultKind where
  | nothing
  | bits
  | regs
deriving DecidableEq, Repr

/-- R15: the events of a command's observable behaviour, with the answers of the collaborators. -/
inductive Event where
  | setRE (level : Level)
  | setDE (level : Level)
  | delay (p : DelayName)
  | write (b : Byte) (r : WriteAnswer)
  | read (n : Nat) (r : ReadAnswer)
  | flush (r : Answer)
  | openStream (port baud : Nat) (r : Answer)
  | closeStream
  | openGpio (r : Answer)
  | configOutput (id : Nat) (r : Answer)
  | closeGpio
deriving DecidableEq, Repr

/-- One event of the trace, with SEQ, the two line levels and LIFE as they stand at it, a line write's
own level included (log 2). -/
structure TraceEntry where
  event : Event
  seq : Seq
  de : Level
  re : Level
  life : Life
deriving DecidableEq, Repr

/-- A byte buffer (R37): (address, byte) pairs in canonical form, addresses strictly rising and no byte
0x00; an unlisted address reads 0x00 (log 15). -/
abbrev Memory := List Host.Cell

/-- Why a run stops with a fault. -/
inductive Fault where
  /-- U11, R165: the command needs an answer to a collaborator call that is never answered, so it does
  not end. Raised by every command that calls a collaborator, where `answersLeft` is too small. Safe. -/
  | callNeverAnswers
deriving DecidableEq, Repr

/-- Why a command has no meaning (R98, R233). All are safe: nothing is proved of the run. -/
inductive Refusal where
  /-- An instruction of the table without a meaning in the model; no arm answers it. -/
  | notModelled (mnemonic : String)
  /-- R98, R204: a bus operation with `LIFE = CLOSED`. Raised by the eight bus operations. -/
  | closedInstance
  /-- R98, R204: CONSTRUCT with `LIFE = OPEN`. Raised by CONSTRUCT. -/
  | alreadyOpen
  /-- R192: more than MAX_COILS_WRITE values. Raised by WRITE_MULTIPLE_COILS. -/
  | tooManyCoils
  /-- R195: more than MAX_REGS_WRITE values. Raised by WRITE_MULTIPLE_REGISTERS. -/
  | tooManyRegisters
  /-- R81, R95, R98: a word at a port that selects no command or micro-operation. Raised by the step. -/
  | undecodable (why : Reject)
deriving DecidableEq, Repr

structure State where
  /-- LIFE, R33. -/
  life : Life
  /-- SER_OPEN, R33. -/
  serOpen : Bool
  /-- GPIO_OPEN, R33. -/
  gpioOpen : Bool
  /-- CFG_PORT, R34. -/
  cfgPort : Nat
  /-- CFG_BAUD, R34. -/
  cfgBaud : Nat
  /-- CFG_DE_ID, R34. -/
  cfgDeId : Nat
  /-- CFG_RE_ID, R34. -/
  cfgReId : Nat
  /-- DE, R30. -/
  de : Level
  /-- RE, R31. -/
  re : Level
  /-- SEQ, R28. -/
  seq : Seq
  /-- REQ_SLAVE, R22. -/
  reqSlave : Byte
  /-- REQ_FC, R21. -/
  reqFc : Byte
  /-- REQ_ADDR, R21. -/
  reqAddr : Word
  /-- REQ_COUNT, R23. -/
  reqCount : Word
  /-- REQ_VALUE, R21. -/
  reqValue : Word
  /-- REQ_BITS, R20. -/
  reqBits : List Bool
  /-- REQ_REGS, R20. -/
  reqRegs : List Word
  /-- TXBUF, R24. -/
  txBuf : Memory
  /-- TXLEN, R24. -/
  txLen : Nat
  /-- The transmit loop's index `k`, R29, R147. -/
  txIdx : Nat
  /-- RXBUF, R25. -/
  rxBuf : Memory
  /-- EXPLEN, R91. -/
  expLen : Nat
  /-- RXCNT, R25. -/
  rxCnt : Nat
  /-- CRC, R26. -/
  crc : Word
  /-- STATUS, R27. -/
  status : Status
  /-- ERR_EXP, R214. -/
  errExp : Nat
  /-- ERR_ACT, R214. -/
  errAct : Nat
  /-- RES_BITS, R27. -/
  resBits : List Bool
  /-- RES_REGS, R27. -/
  resRegs : List Word
  /-- Which result is valid, R27, R213. -/
  resValid : ResultKind
  /-- U9: the two policy parameters; nothing writes them (log 6). -/
  params : Params
  /-- R38 (a): the stream's receive queue, oldest byte first (log 4). -/
  rxQueue : List Byte
  /-- The model's: the coming answers of `OpenStream` (log 3). -/
  openAns : List Answer
  /-- The model's: the coming answers of `Flush`. -/
  flushAns : List Answer
  /-- The model's: the coming answers of `OpenGpio`. -/
  gpioAns : List Answer
  /-- The model's: the coming answers of `ConfigOutput`. -/
  configAns : List Answer
  /-- The model's: the coming answers of `Write`. -/
  writeAns : List WriteAnswer
  /-- The model's: what happens during the coming `Read`s. -/
  readAns : List Arrival
  /-- The model's: how many free values have been drawn (log 3). -/
  free : Nat
  /-- The model's: how many more calls the collaborators answer; `none`: every call (R244, U11, log 5). -/
  answersLeft : Option Nat
  /-- The model's: every event so far, oldest first (R15, log 2). -/
  trace : List TraceEntry
  /-- The model's: the words the host presents at its command port, oldest first (R12, log 10). -/
  pending : List (List Byte)
  /-- The words at the CRC unit's control port, oldest first (R95, D3). The port is inside the block: the host
  does not reach it (R120), and none waits there between commands (log 22). -/
  control : List (List Byte)
deriving DecidableEq, Repr

/-- R41, R240: power-on. `LIFE = CLOSED`, nothing held; every other value is the model's (log 11), as the
spec calls it unspecified. -/
def State.reset : State where
  life := .closed
  serOpen := false
  gpioOpen := false
  cfgPort := 0
  cfgBaud := 0
  cfgDeId := 0
  cfgReId := 0
  de := .low
  re := .low
  seq := .receiveMode
  reqSlave := 0#8
  reqFc := 0#8
  reqAddr := 0#16
  reqCount := 0#16
  reqValue := 0#16
  reqBits := []
  reqRegs := []
  txBuf := []
  txLen := 8
  txIdx := 0
  rxBuf := []
  expLen := 5
  rxCnt := 0
  crc := 0#16
  status := .ok
  errExp := 0
  errAct := 0
  resBits := []
  resRegs := []
  resValid := .nothing
  params := Config.defaultParams
  rxQueue := []
  openAns := []
  flushAns := []
  gpioAns := []
  configAns := []
  writeAns := []
  readAns := []
  free := 0
  answersLeft := none
  trace := []
  pending := []
  control := []

end Sys2Proof.Machine
end

