-- ==== Sys2Proof/Machine/Flags.lean ====
section
/-! DEFINITION. Flags.lean: the block has no condition codes (10_state.md R35); its only status is STATUS with
its validity mark, written once at the end of a command. The codes of R212 and R28. -/

namespace Sys2Proof.Machine

/-- R212: the numeric codes of STATUS (D6). -/
def statusCode : Status → Nat
  | .ok => 0
  | .transportError => 1
  | .timeoutError => 2
  | .protocolMismatchError => 3
  | .crcError => 4
  | .setupError => 5

/-- R28: the numeric codes of SEQ (D22). -/
def seqCode : Seq → Nat
  | .receiveMode => 0
  | .switchingToTransmit => 1
  | .transmitting => 2
  | .switchingToReceive => 3
  | .receiving => 4

/-- R14: `LOW = 0`, `HIGH = 1`. -/
def levelCode : Level → Nat
  | .low => 0
  | .high => 1

/-- R27: the successful end of a command: `STATUS <- OK`, and which result sequence is valid. -/
def State.succeed (valid : ResultKind) (s : State) : State := { s with status := .ok, resValid := valid }

end Sys2Proof.Machine
end

