-- ==== Sys2Proof/Machine/Ops.lean ====
section
/-! DEFINITION. Ops.lean: the operations the meanings are written over: the byte buffers (20_memory.md R59),
the events and the primitives of the two collaborators (R52 to R58), raising an error (60_exceptions.md
R213), and the end of a command. -/

namespace Sys2Proof.Machine

/-! Byte buffers (R37, R59). -/

/-- What a byte nothing has written reads as (log 15). -/
def Memory.unlisted : Byte := 0x00#8

/-- One byte of a buffer. -/
def Memory.read : Memory → Nat → Byte
  | [], _ => Memory.unlisted
  | (x, c) :: rest, a => if a = x then c else Memory.read rest a

/-- Writing one byte keeps the canonical form. -/
def Memory.write : Memory → Nat → Byte → Memory
  | [], a, b => if b = Memory.unlisted then [] else [(a, b)]
  | (x, c) :: rest, a, b =>
    if a < x then (if b = Memory.unlisted then (x, c) :: rest else (a, b) :: (x, c) :: rest)
    else if a = x then (if b = Memory.unlisted then rest else (a, b) :: rest)
    else (x, c) :: Memory.write rest a b

/-- The canonical form: addresses strictly rising, no byte equal to what an unlisted address reads as. -/
def Memory.wf : Memory → Bool
  | [] => true
  | (x, c) :: rest => decide (c ≠ Memory.unlisted) && rest.all (fun e => decide (x < e.1)) && Memory.wf rest

/-- `n` bytes from `a` on, one byte at a time (R65). -/
def Memory.load (m : Memory) (a : Nat) : Nat → List Byte
  | 0 => []
  | n + 1 => Memory.read m a :: Memory.load m (a + 1) n

/-- Bytes written from `a` on, one byte at a time (R65). -/
def Memory.store (m : Memory) (a : Nat) : List Byte → Memory
  | [] => m
  | b :: rest => Memory.store (Memory.write m a b) (a + 1) rest

/-! Events (R15). -/

/-- The next event of the trace, with the state as it stands. -/
def State.emit (e : Event) (s : State) : State :=
  { s with trace := s.trace ++ [{ event := e, seq := s.seq, de := s.de, re := s.re, life := s.life }] }

/-- R58: `SetDE(level)` drives the line and writes the register. -/
def State.setDE (level : Level) (s : State) : State := State.emit (.setDE level) { s with de := level }

/-- R58: `SetRE(level)`. -/
def State.setRE (level : Level) (s : State) : State := State.emit (.setRE level) { s with re := level }

/-- R15: `Delay(p)`. -/
def State.delay (p : DelayName) (s : State) : State := State.emit (.delay p) s

/-- R16: `SEQ <- state`. -/
def State.goto (q : Seq) (s : State) : State := { s with seq := q }

/-! The byte stream (R52 to R55). Each call's answer is the head of its queue, or a free value where the
queue is empty (log 3). -/

/-- The answer of the coming `OpenStream`. -/
def State.openAnswer (s : State) : Answer := s.openAns.headD (Config.freeAnswer s.free)

/-- R55: `OpenStream(port, baud)`. -/
def State.openedStream (port baud : Nat) (s : State) : State :=
  State.emit (.openStream port baud s.openAnswer) { s with openAns := s.openAns.tail, free := s.free + 1 }

/-- The answer of the coming `Flush`. -/
def State.flushAnswer (s : State) : Answer := s.flushAns.headD (Config.freeAnswer s.free)

/-- What a `Flush` leaves in the receive queue: nothing (R55, R76); where it fails the queue is left as
it is. -/
def flushedQueue (r : Answer) (queue : List Byte) : List Byte :=
  match r with
  | .ok => []
  | .failed => queue

/-- R55: `Flush`. -/
def State.flushed (s : State) : State :=
  State.emit (.flush s.flushAnswer)
    { s with flushAns := s.flushAns.tail, free := s.free + 1, rxQueue := flushedQueue s.flushAnswer s.rxQueue }

/-- R55: `CloseStream`, which has no answer the block reads. -/
def State.closeStream (s : State) : State := State.emit .closeStream s

/-- The answer of the coming `Write`. -/
def State.writeAnswer (s : State) : WriteAnswer := s.writeAns.headD (Config.freeWrite s.free)

/-- R53: `Write(b)`. -/
def State.wrote (b : Byte) (s : State) : State :=
  State.emit (.write b s.writeAnswer) { s with writeAns := s.writeAns.tail, free := s.free + 1 }

/-- What happens during the coming `Read`. -/
def State.arrival (s : State) : Arrival := s.readAns.headD (Config.freeArrival s.free)

/-- R54: the answer a `Read(n)` gives, from what happens during it and the receive queue: bytes from the
head of the queue, at most `n`; `Zero` where that is no byte (log 4). -/
def readAnswerOf (n : Nat) (queue : List Byte) : Arrival → ReadAnswer
  | .bytes arrived most =>
    match (queue ++ arrived).take (min n most) with
    | [] => .zero
    | b :: bs => .data (b :: bs)
  | .zero => .zero
  | .eos => .eos
  | .readError => .readError

/-- R54: the receive queue after it: `Data(bs)` removes `bs` from the head, the other answers remove nothing. -/
def queueAfter (n : Nat) (queue : List Byte) : Arrival → List Byte
  | .bytes arrived most => (queue ++ arrived).drop (min n most)
  | .zero => queue
  | .eos => queue
  | .readError => queue

/-- The answer of the coming `Read(n)`. -/
def State.readAnswer (n : Nat) (s : State) : ReadAnswer := readAnswerOf n s.rxQueue s.arrival

/-- R54: `Read(n)`. -/
def State.didRead (n : Nat) (s : State) : State :=
  State.emit (.read n (s.readAnswer n))
    { s with readAns := s.readAns.tail, free := s.free + 1, rxQueue := queueAfter n s.rxQueue s.arrival }

/-! The digital outputs (R56, R57). -/

/-- The answer of the coming `OpenGpio`. -/
def State.gpioAnswer (s : State) : Answer := s.gpioAns.headD (Config.freeAnswer s.free)

/-- R56: `OpenGpio`. -/
def State.openedGpio (s : State) : State :=
  State.emit (.openGpio s.gpioAnswer) { s with gpioAns := s.gpioAns.tail, free := s.free + 1 }

/-- R56: `CloseGpio`, which has no answer the block reads. -/
def State.closeGpio (s : State) : State := State.emit .closeGpio s

/-- The answer of the coming `ConfigOutput`. -/
def State.configAnswer (s : State) : Answer := s.configAns.headD (Config.freeAnswer s.free)

/-- R57: `ConfigOutput(id)`. -/
def State.configured (id : Nat) (s : State) : State :=
  State.emit (.configOutput id s.configAnswer) { s with configAns := s.configAns.tail, free := s.free + 1 }

/-- R41, R42: the block no longer drives the lines; their levels are free values (U2, log 12). -/
def State.linesReleased (s : State) : State :=
  { s with de := Config.freeLevel s.free, re := Config.freeLevel (s.free + 1), free := s.free + 2 }

/-! Taking an exception (R213, R222). There is no return from one (R224): the command is over. -/

/-- R213: `raise K(expected, actual)`, after the raising rule's own clean-up: STATUS, the context values,
and the result sequences marked invalid. -/
def State.raise (k : Status) (expected actual : Nat) (s : State) : State :=
  { s with status := k, errExp := expected, errAct := actual, resValid := .nothing }

/-- How far a command has come: still running, or ended by an error (R16: "nothing after it in the
pseudocode runs"). -/
inductive Flow where
  | running (s : State)
  | raised (s : State)
deriving DecidableEq, Repr

/-- What stands next in the pseudocode runs only where no error has ended the command. -/
def Flow.andThen (f : Flow) (next : State → Flow) : Flow :=
  match f with
  | .running s => next s
  | .raised s => .raised s

/-- The state a command ends in. -/
def Flow.state : Flow → State
  | .running s => s
  | .raised s => s

/-! The end of a command (R225, U11). -/

/-- The calls whose answer the block waits for (R53 to R57). -/
def Event.awaits : Event → Bool
  | .setRE _ => false
  | .setDE _ => false
  | .delay _ => false
  | .write _ _ => true
  | .read _ _ => true
  | .flush _ => true
  | .openStream _ _ _ => true
  | .closeStream => false
  | .openGpio _ => true
  | .configOutput _ _ => true
  | .closeGpio => false

/-- How many answered calls stand in the trace of `t` beyond the trace of `s`. -/
def callsBetween (s t : State) : Nat := ((t.trace.drop s.trace.length).filter (fun e => e.event.awaits)).length

/-- R225: a command that ends in `t` does so "provided the collaborator answers every call"; where fewer
calls are answered than it makes, it does not end (U11: stuck, log 5). -/
def finish (s t : State) : Host.Outcome State Fault Refusal :=
  match s.answersLeft with
  | none => .next t
  | some k =>
    if callsBetween s t ≤ k then .next { t with answersLeft := some (k - callsBetween s t) }
    else .fault .callNeverAnswers

end Sys2Proof.Machine
end

