-- ==== Sys2Proof/Machine/Lifecycle.lean ====
section
/-! DEFINITION. Lifecycle.lean: CONSTRUCT and CLOSE (45_lifecycle.md R200 to R204). -/

namespace Sys2Proof.Machine

/-- Releasing the serial connection where it is held (R202, R203). -/
def State.releaseStream (s : State) : State :=
  if s.serOpen then { State.closeStream s with serOpen := false } else s

/-- Releasing the digital I/O subsystem where it is held (R202, R203). -/
def State.releaseGpio (s : State) : State :=
  if s.gpioOpen then { State.closeGpio s with gpioOpen := false } else s

/-- R202: `Unwind()`, in reverse order of acquisition. -/
def State.unwind (s : State) : State := { State.releaseStream (State.releaseGpio s) with life := .closed }

/-- The end of a failed CONSTRUCT: the error with context 0, 0 (R214), the lines unspecified (R41, R202,
log 12), SEQ in RECEIVE_MODE (R222, log 14). -/
def State.constructFailed (k : Status) (s : State) : State :=
  State.raise k 0 0 (State.goto .receiveMode (State.linesReleased s))

/-- R201: `OpenStream`; nothing to release where it fails (R202). -/
def acquireStream (port baud : Nat) (s : State) : Flow :=
  let t := State.openedStream port baud s
  match s.openAnswer with
  | .ok => .running { t with serOpen := true }
  | .failed => .raised (State.constructFailed .transportError t)

/-- R201: `Flush`. -/
def flushStream (s : State) : Flow :=
  let t := State.flushed s
  match s.flushAnswer with
  | .ok => .running t
  | .failed => .raised (State.constructFailed .transportError (State.unwind t))

/-- R201: `OpenGpio`. -/
def acquireGpio (s : State) : Flow :=
  let t := State.openedGpio s
  match s.gpioAnswer with
  | .ok => .running { t with gpioOpen := true }
  | .failed => .raised (State.constructFailed .setupError (State.unwind t))

/-- R201: `ConfigOutput(id)`. -/
def configureLine (id : Nat) (s : State) : Flow :=
  let t := State.configured id s
  match s.configAnswer with
  | .ok => .running t
  | .failed => .raised (State.constructFailed .setupError (State.unwind t))

/-- R201: both lines low (receive mode), RECEIVE_MODE, OPEN. -/
def State.constructed (s : State) : State :=
  let s := State.goto .receiveMode (State.setRE .low (State.setDE .low s))
  State.succeed .nothing { s with life := .opened }

/-- R201: the body of CONSTRUCT. -/
def constructOp (port baud deId reId : Nat) (s : State) : Flow :=
  (acquireStream port baud { s with cfgPort := port, cfgBaud := baud, cfgDeId := deId, cfgReId := reId }).andThen
    fun s => (flushStream s).andThen fun s => (acquireGpio s).andThen fun s => (configureLine deId s).andThen
    fun s => (configureLine reId s).andThen fun s => .running (State.constructed s)

/-- `CONSTRUCT`, R201; refused on an open instance (R204). -/
def execConstruct (port baud deId reId : Nat) (s : State) : Host.Outcome State Fault Refusal :=
  if s.life = .closed then finish s (constructOp port baud deId reId s).state else .refused .alreadyOpen

/-- `CLOSE`, R203: serial first, digital I/O second, each where it is held; accepted in every lifecycle
state; afterwards the lines are unspecified (R42, log 12). -/
def execClose (s : State) : Host.Outcome State Fault Refusal :=
  let t := State.releaseGpio (State.releaseStream s)
  .next (State.succeed .nothing (State.linesReleased { t with life := .closed }))

end Sys2Proof.Machine
end

