-- ==== Sys2Proof/Machine/Crc.lean ====
section
/-! DEFINITION. Crc.lean: the CRC-16 generator's register and its two micro-operations (40_crc16.md). They are
no commands: they write CRC alone, no STATUS and no event (log 20). -/

namespace Sys2Proof.Machine

/-- R111: `CRC <- 0xFFFF`. -/
def State.crcReset (s : State) : State := { s with crc := Config.crcInit }

/-- R112: `CRC <- CRC xor zext_16(b)`, then eight shifts. -/
def State.crcUpdate (b : Byte) (s : State) : State := { s with crc := crcByte s.crc b }

/-- R114: the generator run over a byte sequence: RESET, then UPDATE of each byte, offset 0 first. -/
def State.crcOver (bytes : List Byte) (s : State) : State := { s with crc := crc16 bytes }

/-- `CRC16.RESET`, R111. -/
def execCrcReset (s : State) : Host.Outcome State Fault Refusal := .next (State.crcReset s)

/-- `CRC16.UPDATE b`, R112. -/
def execCrcUpdate (b : Byte) (s : State) : Host.Outcome State Fault Refusal := .next (State.crcUpdate b s)

end Sys2Proof.Machine
end

