-- ==== Sys2Proof/Machine/Frame.lean ====
section
/-! DEFINITION. Frame.lean: the frame encoder and decoder on the buffers (41_frame_codec.md R125, R130, R135;
40_crc16.md R116). -/

namespace Sys2Proof.Machine

/-- R125: `BuildFrame(body)`: the CRC generator runs over the body, and TXBUF and TXLEN take the frame. -/
def State.buildFrame (body : List Byte) (s : State) : State :=
  { State.crcOver body s with
    txBuf := Memory.store s.txBuf 0 (appendCrc body), txLen := (appendCrc body).length }

/-- `rsp = RXBUF[0 .. EXPLEN-1]` (R130). -/
def State.response (s : State) : List Byte := Memory.load s.rxBuf 0 s.expLen

/-- R116: `CheckCrc(rsp)`: the generator runs over all but the last two bytes. -/
def checkCrc (rsp : List Byte) (s : State) : Flow :=
  let t := State.crcOver (rsp.take (rsp.length - 2)) s
  if receivedCrc rsp = t.crc then .running t
  else .raised (t.raise .crcError t.crc.toNat (receivedCrc rsp).toNat)

/-- R130, R131: `Validate(rsp, slave, fc)`, the three checks in this order. -/
def validate (rsp : List Byte) (slave fc : Byte) (s : State) : Flow :=
  if byteAt rsp 0 ≠ slave then .raised (s.raise .protocolMismatchError slave.toNat (byteAt rsp 0).toNat)
  else if byteAt rsp 1 ≠ fc then .raised (s.raise .protocolMismatchError fc.toNat (byteAt rsp 1).toNat)
  else checkCrc rsp s

/-- R135: `EchoCheck(rsp)` against the request held in TXBUF, offsets 0 to 5. -/
def echoCheck (rsp : List Byte) (s : State) : Flow :=
  let req := Memory.load s.txBuf 0 6
  match firstDiff req rsp (List.range 6) with
  | none => .running s
  | some i => .raised (s.raise .protocolMismatchError (byteAt req i).toNat (byteAt rsp i).toNat)

end Sys2Proof.Machine
end

