-- ==== Sys2Proof/Machine/Turnaround.lean ====
section
/-! DEFINITION. Turnaround.lean: the RS485 arbiter and the request/response state machine, `Transact` of
42_turnaround.md R147, step by step. -/

namespace Sys2Proof.Machine

/-- Step 1 (R150, R151): receiver off, driver on, a settle delay after each. -/
def State.enterTransmit (s : State) : State :=
  let s := State.goto .switchingToTransmit s
  let s := State.delay .lineSettle (State.setRE .high s)
  let s := State.delay .lineSettle (State.setDE .high s)
  State.goto .transmitting s

/-- Driver off, receiver on, a settle delay after each (R155, R156). -/
def State.linesToReceive (s : State) : State :=
  let s := State.goto .switchingToReceive s
  let s := State.delay .lineSettle (State.setDE .low s)
  State.delay .lineSettle (State.setRE .low s)

/-- R155: `TxAbort()`, under both values of TX_ABORT_RESTORES_RX; `SEQ` ends in RECEIVE_MODE either way. -/
def State.txAbort (s : State) : State :=
  State.goto .receiveMode (if s.params.txAbortRestoresRx then State.linesToReceive s else s)

/-- Step 2 (R152, R153): the last `left` bytes of the frame, one `Write` each, from offset `k` on. -/
def transmitBytes : Nat → State → Flow
  | 0, s => .running s
  | left + 1, s =>
    let t := State.wrote (Memory.read s.txBuf s.txIdx) s
    match s.writeAnswer with
    | .accepted1 => transmitBytes left { State.delay .interByte t with txIdx := s.txIdx + 1 }
    | .accepted0 => .raised ((State.txAbort t).raise .transportError 1 0)
    | .writeError => .raised ((State.txAbort t).raise .transportError 1 0)

/-- Step 2 whole, with the delay after the frame (R154). -/
def transmitFrame (s : State) : Flow :=
  (transmitBytes s.txLen { s with txIdx := 0 }).andThen fun t => .running (State.delay .postFrame t)

/-- Step 3 and the start of step 4 (R156, R157). -/
def State.enterReceive (s : State) : State :=
  let s := State.goto .receiving (State.linesToReceive s)
  { State.delay .preReceive s with rxCnt := 0 }

/-- R159: `Data(bs)` is appended at `RXBUF[RXCNT ..]`, and a pacing delay follows (R160). -/
def State.accept (bs : List Byte) (s : State) : State :=
  State.delay .readPacing { s with rxBuf := Memory.store s.rxBuf s.rxCnt bs, rxCnt := s.rxCnt + bs.length }

/-- Step 4 (R158 to R161): the receive loop. `fuel` bounds the number of reads; EXPLEN is enough, since
each `Data` adds a byte (R159). -/
def receiveLoop : Nat → State → Flow
  | 0, s => .running s
  | fuel + 1, s =>
    if s.rxCnt < s.expLen then
      let n := s.expLen - s.rxCnt
      let t := State.didRead n s
      match s.readAnswer n with
      | .data bs => receiveLoop fuel (State.accept bs t)
      | .zero => .running t
      | .eos => .running t
      | .readError => .raised ((State.goto .receiveMode t).raise .transportError t.expLen t.rxCnt)
    else .running s

/-- Step 5 (R162, R163): back to RECEIVE_MODE, and the length check. -/
def checkLength (s : State) : Flow :=
  let t := State.goto .receiveMode s
  if t.rxCnt < t.expLen then .raised (t.raise .timeoutError t.expLen t.rxCnt) else .running t

/-- R147: `Transact()`. -/
def transact (s : State) : Flow :=
  (transmitFrame (State.enterTransmit s)).andThen fun t =>
    (receiveLoop t.expLen (State.enterReceive t)).andThen checkLength

end Sys2Proof.Machine
end

