-- ==== Sys2Proof/Machine/ReadOps.lean ====
section
/-! DEFINITION. ReadOps.lean: the four read operations (43_read_ops.md). -/

namespace Sys2Proof.Machine

/-- R175: what `ReadOp` writes before the transaction: the descriptor, the frame, EXPLEN. -/
def State.readRequest (fc slave : Byte) (start count : Word) (s : State) : State :=
  { State.buildFrame (body4 slave fc start count)
      { s with reqSlave := slave, reqFc := fc, reqAddr := start, reqCount := count } with
    expLen := expectedLength fc count.toNat }

/-- R175: the decode of a validated response and the successful end. -/
def State.decodeRead (fc : Byte) (count : Word) (rsp : List Byte) (s : State) : State :=
  if isBitRead fc then State.succeed .bits { s with resBits := unpackBits rsp count.toNat }
  else State.succeed .regs { s with resRegs := unpackRegs rsp count.toNat }

/-- R175: `ReadOp(fc, slave, start, count)`. -/
def readOp (fc slave : Byte) (start count : Word) (s : State) : Flow :=
  (transact (State.readRequest fc slave start count s)).andThen fun t =>
    (validate t.response slave fc t).andThen fun u => .running (State.decodeRead fc count t.response u)

/-- R175, R98, R204: a read operation is refused on a closed instance. -/
def execRead (fc slave : Byte) (start count : Word) (s : State) : Host.Outcome State Fault Refusal :=
  if s.life = .opened then finish s (readOp fc slave start count s).state else .refused .closedInstance

/-- `READ_COILS`, R176. -/
def execReadCoils (slave : Byte) (start count : Word) (s : State) : Host.Outcome State Fault Refusal :=
  execRead 0x01#8 slave start count s

/-- `READ_DISCRETE_INPUTS`, R177. -/
def execReadDiscreteInputs (slave : Byte) (start count : Word) (s : State) : Host.Outcome State Fault Refusal :=
  execRead 0x02#8 slave start count s

/-- `READ_HOLDING_REGISTERS`, R178. -/
def execReadHoldingRegisters (slave : Byte) (start count : Word) (s : State) : Host.Outcome State Fault Refusal :=
  execRead 0x03#8 slave start count s

/-- `READ_INPUT_REGISTERS`, R179. -/
def execReadInputRegisters (slave : Byte) (start count : Word) (s : State) : Host.Outcome State Fault Refusal :=
  execRead 0x04#8 slave start count s

end Sys2Proof.Machine
end

