-- ==== Sys2Proof/Machine/WriteOps.lean ====
section
/-! DEFINITION. WriteOps.lean: the four write operations (44_write_ops.md). -/

namespace Sys2Proof.Machine

/-- R185: what `WriteOp` writes before the transaction, over the operation's own REQ_* registers. -/
def State.writeRequest (fc slave : Byte) (body : List Byte) (s : State) : State :=
  { State.buildFrame body { s with reqSlave := slave, reqFc := fc } with expLen := expectedLength fc 0 }

/-- R185: `WriteOp(fc, slave, body, echo)`. -/
def writeOp (fc slave : Byte) (body : List Byte) (echo : Bool) (s : State) : Flow :=
  (transact (State.writeRequest fc slave body s)).andThen fun t =>
    (validate t.response slave fc t).andThen fun u =>
      (if echo then echoCheck t.response u else .running u).andThen fun v => .running (State.succeed .nothing v)

/-- R185, R98, R204: a write operation is refused on a closed instance. -/
def execWrite (fc slave : Byte) (body : List Byte) (echo : Bool) (s t : State) :
    Host.Outcome State Fault Refusal :=
  if s.life = .opened then finish s (writeOp fc slave body echo t).state else .refused .closedInstance

/-- `WRITE_COIL`, R186: `REQ_VALUE` is the coil word; the echo is checked. -/
def execWriteCoil (slave : Byte) (addr : Word) (value : Bool) (s : State) : Host.Outcome State Fault Refusal :=
  execWrite 0x05#8 slave (body4 slave 0x05#8 addr (coilWord value)) true s
    { s with reqAddr := addr, reqValue := coilWord value }

/-- `WRITE_REGISTER`, R187: the echo is checked where ECHO_CHECK_FC06 is set. -/
def execWriteRegister (slave : Byte) (addr value : Word) (s : State) : Host.Outcome State Fault Refusal :=
  execWrite 0x06#8 slave (body4 slave 0x06#8 addr value) s.params.echoCheckFc06 s
    { s with reqAddr := addr, reqValue := value }

/-- `WRITE_MULTIPLE_COILS`, R190; refused beyond MAX_COILS_WRITE values (R192). -/
def execWriteMultipleCoils (slave : Byte) (start : Word) (values : List Bool) (s : State) :
    Host.Outcome State Fault Refusal :=
  if values.length ≤ Config.maxCoilsWrite then
    execWrite 0x0F#8 slave (bodyWMC slave start values) false s
      { s with reqAddr := start, reqCount := BitVec.ofNat 16 values.length, reqBits := values }
  else .refused .tooManyCoils

/-- `WRITE_MULTIPLE_REGISTERS`, R194; refused beyond MAX_REGS_WRITE values (R195). -/
def execWriteMultipleRegisters (slave : Byte) (start : Word) (values : List Word) (s : State) :
    Host.Outcome State Fault Refusal :=
  if values.length ≤ Config.maxRegsWrite then
    execWrite 0x10#8 slave (bodyWMR slave start values) false s
      { s with reqAddr := start, reqCount := BitVec.ofNat 16 values.length, reqRegs := values }
  else .refused .tooManyRegisters

end Sys2Proof.Machine
end

