-- ==== Sys2Proof/Machine/Dispatch.lean ====
section
/-! DEFINITION. Dispatch.lean: exec, one arm per constructor of Instr. -/

namespace Sys2Proof.Machine

def exec (i : Instr) (s : State) : Host.Outcome State Fault Refusal :=
  match i with
  | .readCoils slave start count => Sys2Proof.Machine.execReadCoils slave start count s
  | .readDiscreteInputs slave start count => Sys2Proof.Machine.execReadDiscreteInputs slave start count s
  | .readHoldingRegisters slave start count => Sys2Proof.Machine.execReadHoldingRegisters slave start count s
  | .readInputRegisters slave start count => Sys2Proof.Machine.execReadInputRegisters slave start count s
  | .writeCoil slave addr value => Sys2Proof.Machine.execWriteCoil slave addr value s
  | .writeRegister slave addr value => Sys2Proof.Machine.execWriteRegister slave addr value s
  | .writeMultipleCoils slave start values => Sys2Proof.Machine.execWriteMultipleCoils slave start values s
  | .writeMultipleRegisters slave start values => Sys2Proof.Machine.execWriteMultipleRegisters slave start values s
  | .construct port baud deId reId => Sys2Proof.Machine.execConstruct port baud deId reId s
  | .close => Sys2Proof.Machine.execClose s
  | .crcReset => Sys2Proof.Machine.execCrcReset s
  | .crcUpdate b => Sys2Proof.Machine.execCrcUpdate b s

end Sys2Proof.Machine
end

