-- ==== Sys2Proof/Machine/Fetch.lean ====
section
/-! DEFINITION. Fetch.lean: taking the next word the host presents (00_scope.md R12; 30_encoding.md R80; log 10), or
the next control word of the CRC unit (R95, log 22). The block fetches no instructions from a memory (20_memory.md R75). -/

namespace Sys2Proof.Machine

/-- What the block finds at its ports, the host's and its own. -/
inductive Fetched where
  /-- Nothing is presented: the block idles in RECEIVE_MODE (R231). -/
  | idle
  /-- An instruction, and the state with it taken. -/
  | run (i : Instr) (s : State)
  /-- The CRC unit's control word `00xxxxxxxx`, which holds CRC (R95), and the state with it taken. -/
  | hold (s : State)
  /-- A word that selects no command (R98). -/
  | rejected (why : Reject)

/-- What a word taken off a port is, `taken` being the state with it taken; bytes after the instruction's own are
not looked at. -/
def fetchAt (port : PortUnit) (word : List Byte) (taken : State) : Fetched :=
  match decode port word with
  | .instr i _ => .run i taken
  | .hold _ => .hold taken
  | .rejected why => .rejected why

/-- The next word: at the CRC unit's control port where one waits there, which only the block's inside can bring
about (R95, R120, log 22), else the oldest the host presents at its command port. The host's words are decoded as
commands alone (R80, R81). -/
def fetch (s : State) : Fetched :=
  match s.control with
  | word :: rest => fetchAt .crcControl word { s with control := rest }
  | [] =>
    match s.pending with
    | [] => .idle
    | word :: rest => fetchAt .command word { s with pending := rest }

/-- The instance a bus operation needs (R243): where it is closed, as a CONSTRUCT that succeeded leaves it. It
stands for that CONSTRUCT where a table word is placed to be run at once (log 10); no meaning uses it. -/
def State.readyFor (i : Option Instr) (s : State) : State :=
  match i with
  | none => s
  | some i =>
    if i.isBusOp ∧ s.life = .closed then
      { s with life := .opened, serOpen := true, gpioOpen := true, de := .low, re := .low, seq := .receiveMode }
    else s

/-- A word placed at its port so that the next step takes it (log 10, log 22). -/
def State.place (port : PortUnit) (word : List Byte) (s : State) : State :=
  match port with
  | .command => { s with control := [], pending := word :: s.pending }
  | .crcControl => { s with control := word :: s.control }

end Sys2Proof.Machine
end

