-- ==== Sys2Proof/Machine/Step.lean ====
section
/-! DEFINITION. Step.lean: one step is one whole command, or one micro-operation of the CRC unit (log 1). -/

namespace Sys2Proof.Machine

def step (s : State) : Host.Outcome State Fault Refusal :=
  match fetch s with
  | .idle => .next s
  | .run i t => exec i t
  | .hold t => .next t
  | .rejected why => .refused (.undecodable why)

/-- The table word placed at its port ahead of everything else, on an instance that can run it, so that the next
step does (log 9, log 10, log 22). -/
def State.withFetchWord (s : State) (nbits w : Nat) : State :=
  State.place (tableUnit nbits w) (tableBytes nbits w) (State.readyFor (decodeTableWord nbits w) s)

end Sys2Proof.Machine
end

