-- ==== Sys2Proof/Safety.lean ====
section
/-! DEFINITION. Safety.lean: the terms claims are stated in: the events of a run, the state machine's table, the
invariant of an instance, and an environment that answers in a given way. -/

namespace Sys2Proof

/-! What a bus operation is told apart by (30_encoding.md R84 to R94). For the instructions that send no frame
the values mean nothing. -/

/-- R101: the slave byte of a bus operation. -/
def Instr.slaveByte : Instr → Byte
  | .readCoils slave _ _ => slave
  | .readDiscreteInputs slave _ _ => slave
  | .readHoldingRegisters slave _ _ => slave
  | .readInputRegisters slave _ _ => slave
  | .writeCoil slave _ _ => slave
  | .writeRegister slave _ _ => slave
  | .writeMultipleCoils slave _ _ => slave
  | .writeMultipleRegisters slave _ _ => slave
  | .construct _ _ _ _ => 0x00#8
  | .close => 0x00#8
  | .crcReset => 0x00#8
  | .crcUpdate _ => 0x00#8

/-- R94: the function code of a bus operation. -/
def Instr.functionCode : Instr → Byte
  | .readCoils _ _ _ => 0x01#8
  | .readDiscreteInputs _ _ _ => 0x02#8
  | .readHoldingRegisters _ _ _ => 0x03#8
  | .readInputRegisters _ _ _ => 0x04#8
  | .writeCoil _ _ _ => 0x05#8
  | .writeRegister _ _ _ => 0x06#8
  | .writeMultipleCoils _ _ _ => 0x0F#8
  | .writeMultipleRegisters _ _ _ => 0x10#8
  | .construct _ _ _ _ => 0x00#8
  | .close => 0x00#8
  | .crcReset => 0x00#8
  | .crcUpdate _ => 0x00#8

/-- R91, R94: how many bytes a bus operation expects back. -/
def Instr.responseLength : Instr → Nat
  | .readCoils _ _ count => 5 + (count.toNat + 7) / 8
  | .readDiscreteInputs _ _ count => 5 + (count.toNat + 7) / 8
  | .readHoldingRegisters _ _ count => 5 + 2 * count.toNat
  | .readInputRegisters _ _ count => 5 + 2 * count.toNat
  | .writeCoil _ _ _ => 8
  | .writeRegister _ _ _ => 8
  | .writeMultipleCoils _ _ _ => 8
  | .writeMultipleRegisters _ _ _ => 8
  | .construct _ _ _ _ => 0
  | .close => 0
  | .crcReset => 0
  | .crcUpdate _ => 0

/-- Whether a bus operation compares bytes 2 to 5 of the response with its request (R186, R187). -/
def Instr.echoes (p : Params) : Instr → Bool
  | .readCoils _ _ _ => false
  | .readDiscreteInputs _ _ _ => false
  | .readHoldingRegisters _ _ _ => false
  | .readInputRegisters _ _ _ => false
  | .writeCoil _ _ _ => true
  | .writeRegister _ _ _ => p.echoCheckFc06
  | .writeMultipleCoils _ _ _ => false
  | .writeMultipleRegisters _ _ _ => false
  | .construct _ _ _ _ => false
  | .close => false
  | .crcReset => false
  | .crcUpdate _ => false

/-- R27: which result sequence a successful command makes valid. -/
def Instr.resultKind : Instr → Machine.ResultKind
  | .readCoils _ _ _ => .bits
  | .readDiscreteInputs _ _ _ => .bits
  | .readHoldingRegisters _ _ _ => .regs
  | .readInputRegisters _ _ _ => .regs
  | .writeCoil _ _ _ => .nothing
  | .writeRegister _ _ _ => .nothing
  | .writeMultipleCoils _ _ _ => .nothing
  | .writeMultipleRegisters _ _ _ => .nothing
  | .construct _ _ _ _ => .nothing
  | .close => .nothing
  | .crcReset => .nothing
  | .crcUpdate _ => .nothing

end Sys2Proof

namespace Sys2Proof.Machine

/-- The next step takes `word` off `port`, `t` being the state with it taken: the oldest word of the CRC unit's
control port where one waits there (log 22), else the oldest the host presents at its command port. -/
def State.takes (s : State) (port : PortUnit) (word : List Byte) (t : State) : Prop :=
  (∃ rest, s.control = word :: rest ∧ port = .crcControl ∧ t = { s with control := rest }) ∨
  (s.control = [] ∧ ∃ rest, s.pending = word :: rest ∧ port = .command ∧ t = { s with pending := rest })

/-- The events so far, without the snapshots (R15). -/
def State.events (s : State) : List Event := s.trace.map (·.event)

/-- The trace entries of `t` beyond those of `s`. -/
def newEntries (s t : State) : List TraceEntry := t.trace.drop s.trace.length

/-- The bytes of the `Write` events, whatever their answers. -/
def writtenBytes : List TraceEntry → List Byte
  | [] => []
  | e :: rest =>
    match e.event with
    | .write b _ => b :: writtenBytes rest
    | _ => writtenBytes rest

/-- The bytes of the `Data` answers. -/
def deliveredBytes : List TraceEntry → List Byte
  | [] => []
  | e :: rest =>
    match e.event with
    | .read _ (.data bs) => bs ++ deliveredBytes rest
    | _ => deliveredBytes rest

/-- How many `Read` events there are, whatever their answers. -/
def readCount : List TraceEntry → Nat
  | [] => 0
  | e :: rest =>
    match e.event with
    | .read _ _ => readCount rest + 1
    | _ => readCount rest

/-- What happens during the next `n` reads where the environment's queue is `ans` and `free` free values have been
drawn before: the entries of the queue, and free values where it is exhausted (log 3). -/
def arrivalsTaken : Nat → List Arrival → Nat → List Arrival
  | 0, _, _ => []
  | n + 1, ans, free => ans.headD (Config.freeArrival free) :: arrivalsTaken n ans.tail (free + 1)

/-- The bytes that arrive, in order, whether the reads they arrive during take them or not (R54, log 4). -/
def arrivedBytes : List Arrival → List Byte
  | [] => []
  | .bytes arrived _ :: rest => arrived ++ arrivedBytes rest
  | .zero :: rest => arrivedBytes rest
  | .eos :: rest => arrivedBytes rest
  | .readError :: rest => arrivedBytes rest

/-- R164: no byte is written after one that was not accepted. -/
def noRetry : List TraceEntry → Bool
  | [] => true
  | e :: rest =>
    match e.event with
    | .write _ r => if r = .accepted1 then noRetry rest else decide (writtenBytes rest = [])
    | _ => noRetry rest

/-- R32: never driver on and receiver on. -/
def TraceEntry.linesSafe (e : TraceEntry) : Bool := !(decide (e.de = .high) && decide (e.re = .low))

/-- R148: the events that occur while SEQ holds each of its states, and the lines as they stand. -/
def TraceEntry.inTable (e : TraceEntry) : Bool :=
  match e.seq, e.event with
  | .switchingToTransmit, .setRE .high => decide (e.re = .high)
  | .switchingToTransmit, .setDE .high => decide (e.re = .high) && decide (e.de = .high)
  | .switchingToTransmit, .delay .lineSettle => decide (e.re = .high)
  | .transmitting, .write _ _ => decide (e.re = .high) && decide (e.de = .high)
  | .transmitting, .delay .interByte => decide (e.re = .high) && decide (e.de = .high)
  | .transmitting, .delay .postFrame => decide (e.re = .high) && decide (e.de = .high)
  | .switchingToReceive, .setDE .low => decide (e.de = .low) && decide (e.re = .high)
  | .switchingToReceive, .setRE .low => decide (e.de = .low) && decide (e.re = .low)
  | .switchingToReceive, .delay .lineSettle => decide (e.de = .low)
  | .receiving, .delay .preReceive => decide (e.de = .low) && decide (e.re = .low)
  | .receiving, .read _ _ => decide (e.de = .low) && decide (e.re = .low)
  | .receiving, .delay .readPacing => decide (e.de = .low) && decide (e.re = .low)
  | _, _ => false

/-- Every listed address of a buffer is below its capacity (R92, D11). -/
def Memory.below (m : Memory) (cap : Nat) : Bool := m.all fun e => decide (e.1 < cap)

/-- The lines between two commands on an open instance: receive mode, or transmit mode after an abort
under `TX_ABORT_RESTORES_RX = false` (R146, R155, R255). -/
def State.linesAtRest (s : State) : Bool :=
  (decide (s.de = .low) && decide (s.re = .low)) ||
    (!s.params.txAbortRestoresRx && decide (s.de = .high) && decide (s.re = .high))

/-- The invariant of an instance between two commands. -/
structure State.Inv (s : State) : Prop where
  /-- Both buffers keep their canonical form. -/
  tx_wf : Memory.wf s.txBuf = true
  rx_wf : Memory.wf s.rxBuf = true
  /-- Both buffers stay within their capacity (D11). -/
  tx_cap : Memory.below s.txBuf Config.txBufCap = true
  rx_cap : Memory.below s.rxBuf Config.rxBufCap = true
  /-- R20: TXLEN and EXPLEN keep their ranges. -/
  tx_len : 8 ≤ s.txLen ∧ s.txLen ≤ Config.txBufCap
  exp_len : 5 ≤ s.expLen ∧ s.expLen ≤ Config.rxBufCap
  /-- R33, R29, R32: an open instance holds both subsystems, is in RECEIVE_MODE, with its lines at rest. -/
  opened : s.life = .opened → s.serOpen = true ∧ s.gpioOpen = true ∧ s.seq = .receiveMode ∧ s.linesAtRest = true
  /-- R202, R203: a closed instance holds nothing. -/
  closed : s.life = .closed → s.serOpen = false ∧ s.gpioOpen = false
  /-- R32: at no event of an open instance are driver and receiver both on. -/
  lines : ∀ e ∈ s.trace, e.life = .opened → e.linesSafe = true

/-- What `n` `Read`s find where the bytes of each chunk arrive for one of them. -/
def arrivals (chunks : List (List Byte)) : List Arrival := chunks.map fun c => .bytes c c.length

/-- An environment that accepts the next `n` bytes written. -/
def State.accepts (s : State) (n : Nat) : Prop := ∃ more, s.writeAns = List.replicate n .accepted1 ++ more

/-- An environment whose next reads deliver `chunks`, one each, none empty, with nothing queued before. -/
def State.delivers (s : State) (chunks : List (List Byte)) : Prop :=
  s.rxQueue = [] ∧ (∀ c ∈ chunks, c ≠ []) ∧ ∃ more, s.readAns = arrivals chunks ++ more

/-- Both byte buffers are in their canonical form. -/
structure State.BuffersOk (s : State) : Prop where
  tx : Memory.wf s.txBuf = true
  rx : Memory.wf s.rxBuf = true

/-- When a bus operation runs (R98, R175, R185, R225): the instance is open, its values fit the frame, and the
collaborators answer every call. -/
structure State.Ready (s : State) (i : Instr) : Prop where
  bus : i.isBusOp = true
  wellFormed : i.WellFormed
  opened : s.life = .opened
  answered : s.answersLeft = none
  buffers : s.BuffersOk

/-- A bus operation whose frame is accepted whole and whose complete response comes as `chunks`. -/
structure State.Exchanges (s : State) (i : Instr) (chunks : List (List Byte)) : Prop where
  ready : s.Ready i
  accepts : s.accepts (requestFrame i).length
  delivers : s.delivers chunks
  complete : chunks.flatten.length = i.responseLength

/-- R130: a complete response that passes the three checks. -/
structure Accepted (i : Instr) (rsp : List Byte) : Prop where
  slave : byteAt rsp 0 = i.slaveByte
  code : byteAt rsp 1 = i.functionCode
  crc : receivedCrc rsp = computedCrc rsp

/-- R145, R162: where an exchange that was not aborted leaves the control state and the buffers. That RXCNT and RXBUF
keep it to the end of the command and beyond is the model's (log 13). -/
structure State.Settled (t : State) (i : Instr) (rsp : List Byte) : Prop where
  life : t.life = .opened
  seq : t.seq = .receiveMode
  de : t.de = .low
  re : t.re = .low
  count : t.rxCnt = i.responseLength
  response : Memory.load t.rxBuf 0 i.responseLength = rsp

/-- R151: the line changes into transmit mode, with their delays. -/
def toTransmit : List Event := [.setRE .high, .delay .lineSettle, .setDE .high, .delay .lineSettle]

/-- R152: bytes sent and accepted, a delay after each. -/
def sending (bytes : List Byte) : List Event := bytes.flatMap fun b => [.write b .accepted1, .delay .interByte]

/-- R156: the line changes into receive mode, with their delays. -/
def toReceive : List Event := [.setDE .low, .delay .lineSettle, .setRE .low, .delay .lineSettle]

/-- R166: the events before the first `Read` of an exchange whose writes are all accepted. -/
def txEvents (frame : List Byte) : List Event :=
  toTransmit ++ sending frame ++ [.delay .postFrame] ++ toReceive ++ [.delay .preReceive]

/-- R166: the events of the reads that deliver `chunks` when `n` bytes are missing. -/
def rxEvents : Nat → List (List Byte) → List Event
  | _, [] => []
  | n, c :: rest => [.read n (.data c), .delay .readPacing] ++ rxEvents (n - c.length) rest

end Sys2Proof.Machine
end

