-- ==== Sys2Proof/Certificates/Slice0/Obligations.lean ====
section
/-! DEFINITION. Obligations.lean: the statements for the provers, read off the numbered rules of spec/. Where a
statement rests on a decision of the spec's writer or on a choice of the model, its docstring says so. -/

open Sys2Proof Sys2Proof.Machine

/-! Encoding. -/

/-- R84, R85, R86, R95, and R81 with the decision D2 for the selector 0xF1 of CLOSE: words written out from the spec's
encodings decode to the instructions they stand for. That a bus operation's word at the command port is its request
body and that of CLOSE is 0x00 and its selector is the model's (log 7), and so are the bytes of the control words
(log 8). -/
def Obligations.SpecWordsDecode : Prop :=
  decode .command [0x01#8, 0x01#8, 0x00#8, 0x13#8, 0x00#8, 0x13#8] = .instr (.readCoils 0x01#8 0x0013#16 0x0013#16) [] ∧
  decode .command [0x01#8, 0x04#8, 0x00#8, 0x00#8, 0x00#8, 0x03#8] =
    .instr (.readInputRegisters 0x01#8 0x0000#16 0x0003#16) [] ∧
  decode .command [0x01#8, 0x05#8, 0x00#8, 0xAC#8, 0xFF#8, 0x00#8] = .instr (.writeCoil 0x01#8 0x00AC#16 true) [] ∧
  decode .command [0x01#8, 0x06#8, 0x00#8, 0x10#8, 0x12#8, 0x34#8] =
    .instr (.writeRegister 0x01#8 0x0010#16 0x1234#16) [] ∧
  decode .command [0x01#8, 0x0F#8, 0x00#8, 0x13#8, 0x00#8, 0x0A#8, 0x02#8, 0xCD#8, 0x01#8] =
    .instr (.writeMultipleCoils 0x01#8 0x0013#16
      [true, false, true, true, false, false, true, true, true, false]) [] ∧
  decode .command [0x01#8, 0x10#8, 0x00#8, 0x01#8, 0x00#8, 0x02#8, 0x04#8, 0x00#8, 0x0A#8, 0x01#8, 0x02#8] =
    .instr (.writeMultipleRegisters 0x01#8 0x0001#16 [0x000A#16, 0x0102#16]) [] ∧
  decode .command [0x00#8, 0xF1#8] = .instr .close [] ∧
  decode .crcControl [0x02#8, 0xAB#8] = .instr .crcReset [] ∧
  decode .crcControl [0x01#8, 0xAB#8] = .instr (.crcUpdate 0xAB#8) []

/-- Every well-formed instruction decodes from its encoding, with every operand at every value the encoding
admits, and what stands behind it is left over. The ports' binary form is the model's (logs 7, 8, 16). -/
def Obligations.DecodeEncodeAgree : Prop :=
  ∀ (i : Instr) (rest : List Byte), i.WellFormed → decode (unitOf i) (encode i ++ rest) = .instr i rest

/-- What decodes is the encoding of a well-formed instruction at that instruction's port; the one exception is
CRC16.RESET, whose `din` is ignored (R95, D3). The ports' binary form is the model's (logs 7, 8, 16). -/
def Obligations.DecodedIsEncoded : Prop :=
  ∀ (u : PortUnit) (bytes rest : List Byte) (i : Instr), decode u bytes = .instr i rest →
    i.WellFormed ∧ u = unitOf i ∧
      (bytes = encode i ++ rest ∨ (i = .crcReset ∧ ∃ din, bytes = [0x02#8, din] ++ rest))

/-- R81, R95, R98 (decisions D2, D3): a word that selects no command is refused by name, and the control word
`00xxxxxxxx` holds CRC. That the selector is the second byte of a word at the command port (log 7; R81 gives that port
no binary form), the bytes of the control words (log 8) and the words waiting at the host's port (log 10) and at the
generator's (log 22) are the model's choices. -/
def Obligations.UnselectedWordsRefused : Prop :=
  ∀ (s : State) (ws : List (List Byte)) (slave op din : Byte) (more : List Byte),
    (op ∉ [0x01#8, 0x02#8, 0x03#8, 0x04#8, 0x05#8, 0x06#8, 0x0F#8, 0x10#8, 0xF0#8, 0xF1#8] →
      s.control = [] → s.pending = (slave :: op :: more) :: ws →
      step s = .refused (.undecodable (.unknownSelector op))) ∧
    (s.control = (0x03#8 :: din :: more) :: ws →
      step s = .refused (.undecodable .illegalControlWord)) ∧
    (s.control = (0x00#8 :: din :: more) :: ws → step s = .next { s with control := ws })

/-- One step takes a word off its port and runs what it decodes to; with no word at either port the block idles (R12,
R231). That a step is a whole command is the model's (log 1), and so are the words that wait at the host's port
(log 10) and at the generator's (log 22), which `takes` takes first. -/
def Obligations.StepRunsDecoded : Prop :=
  (∀ (s : State), s.control = [] → s.pending = [] → step s = .next s) ∧
  (∀ (s t : State) (port : PortUnit) (word rest : List Byte) (i : Instr),
    s.takes port word t → decode port word = .instr i rest → step s = exec i t) ∧
  (∀ (s t : State) (port : PortUnit) (word rest : List Byte),
    s.takes port word t → decode port word = .hold rest → step s = .next t) ∧
  (∀ (s t : State) (port : PortUnit) (word : List Byte) (why : Reject),
    s.takes port word t → decode port word = .rejected why → step s = .refused (.undecodable why))

/-! The CRC-16 generator (40_crc16.md). -/

/-- R111, in every lifecycle state (log 20); that the control word's bytes are 0x02 and an ignored `din` is the
model's choice (log 8). -/
def Obligations.CrcResetResult : Prop :=
  (∀ (s : State), exec .crcReset s = .next { s with crc := 0xFFFF#16 }) ∧
  (∀ (din : Byte) (rest : List Byte), decode .crcControl (0x02#8 :: din :: rest) = .instr .crcReset rest)

/-- R112: the exclusive or into the low byte, then eight times the test of bit 0, the shift and the exclusive or
with 0xA001; nothing else changes, in every lifecycle state (log 20). That the control word's bytes are 0x01 and the
byte is the model's choice (log 8). -/
def Obligations.CrcUpdateResult : Prop :=
  (∀ (b : Byte) (s : State), exec (.crcUpdate b) s =
    .next { s with crc := (Nat.iterate
      (fun c : Word => if c.getLsbD 0 then (c >>> 1) ^^^ 0xA001#16 else c >>> 1) 8 (s.crc ^^^ b.setWidth 16)) }) ∧
  (∀ (b : Byte) (rest : List Byte), decode .crcControl (0x01#8 :: b :: rest) = .instr (.crcUpdate b) rest) ∧
  (∀ (s : State), s.crc = 0xFFFF#16 → exec (.crcUpdate 0x01#8) s = .next { s with crc := 0x807E#16 })

/-- R110, R114: CRC16.RESET and then CRC16.UPDATE of each byte, offset 0 first, at the generator's control port,
leave in CRC the fold of the update over the bytes, and `crc16` is that value; nothing else changes but the words
taken from the port. The bytes of the control words (log 8), one micro-operation a step (log 1) and the words waiting
at that port (log 22) are the model's choices. -/
def Obligations.Crc16IsTheFold : Prop :=
  (∀ (bytes : List Byte) (s : State) (ws : List (List Byte)),
    s.control = [0x02#8, 0x00#8] :: (bytes.map (fun b => [0x01#8, b]) ++ ws) →
    Sys2Proof.core.run (bytes.length + 1) s = .next { s with control := ws, crc := crc16 bytes } ∧
    crc16 bytes = bytes.foldl (fun c b => Nat.iterate
      (fun c : Word => if c.getLsbD 0 then (c >>> 1) ^^^ 0xA001#16 else c >>> 1) 8 (c ^^^ b.setWidth 16)) 0xFFFF#16) ∧
  crc16 [] = 0xFFFF#16 ∧
  crc16 [0x01#8, 0x03#8, 0x00#8, 0x00#8, 0x00#8, 0x0A#8] = 0xCDC5#16 ∧
  crc16 [0x00#8, 0x01#8] ≠ crc16 [0x01#8, 0x00#8]

/-- R115: the CRC is appended low byte first, and a request's frame is its body with its CRC. -/
def Obligations.AppendCrcRule : Prop :=
  (∀ (body : List Byte),
    appendCrc body = body ++ [(crc16 body).setWidth 8, ((crc16 body) >>> 8).setWidth 8]) ∧
  appendCrc [0x01#8, 0x03#8, 0x00#8, 0x00#8, 0x00#8, 0x0A#8] =
    [0x01#8, 0x03#8, 0x00#8, 0x00#8, 0x00#8, 0x0A#8, 0xC5#8, 0xCD#8]

/-- R118 (c), which the spec derives from R111 to R116: the residue of a body with its CRC is 0, and the residue
test accepts exactly the responses the comparison accepts. -/
def Obligations.CrcResidue : Prop :=
  (∀ (body : List Byte), crc16 (appendCrc body) = 0x0000#16) ∧
  (∀ (rsp : List Byte), 2 ≤ rsp.length → (receivedCrc rsp = computedCrc rsp ↔ crc16 rsp = 0x0000#16))

/-- R118 (d), derived there: over sequences of one length `crc16` is affine. -/
def Obligations.CrcAffine : Prop :=
  ∀ (bytes errors : List Byte), bytes.length = errors.length →
    crc16 (List.zipWith (· ^^^ ·) bytes errors) = crc16 bytes ^^^ crcFrom 0x0000#16 errors

/-- R116, R118 (d), derived there: of `CheckCrc` alone, wherever it runs on a response with a right CRC in which one
bit was flipped, in its CRC bytes too: it raises CrcError. That an operation whose response has the flip in byte 0 or
1 ends before this check is FlippedResponseBit below. -/
def Obligations.SingleBitErrorsDetected : Prop :=
  ∀ (rsp : List Byte) (i k : Nat) (s : State), 5 ≤ rsp.length → i < rsp.length → k < 8 →
    receivedCrc rsp = computedCrc rsp →
    ∃ t, checkCrc (rsp.set i (byteAt rsp i ^^^ (1#8 <<< k))) s = .raised t ∧ t.status = .crcError

/-! The frame codec (41_frame_codec.md, 30_encoding.md). -/

/-- R84, R85, R86, R90, R127: the request frames, field by field. The byte order of the address fields is the
decision D5, the cleared padding bits the decision D24. -/
def Obligations.RequestFrames : Prop :=
  (∀ (slave : Byte) (a b : Word),
    (∀ p ∈ [(Instr.readCoils slave a b, 0x01#8), (Instr.readDiscreteInputs slave a b, 0x02#8),
        (Instr.readHoldingRegisters slave a b, 0x03#8), (Instr.readInputRegisters slave a b, 0x04#8),
        (Instr.writeRegister slave a b, 0x06#8)],
      requestFrame p.1 = appendCrc [slave, p.2, (a >>> 8).setWidth 8, a.setWidth 8, (b >>> 8).setWidth 8, b.setWidth 8])) ∧
  (∀ (slave : Byte) (a : Word) (value : Bool),
    requestFrame (.writeCoil slave a value) =
      appendCrc [slave, 0x05#8, (a >>> 8).setWidth 8, a.setWidth 8, if value then 0xFF#8 else 0x00#8, 0x00#8]) ∧
  (∀ (slave : Byte) (start : Word) (values : List Bool), values.length ≤ 2040 →
    ∃ data, requestFrame (.writeMultipleCoils slave start values) =
        appendCrc ([slave, 0x0F#8, (start >>> 8).setWidth 8, start.setWidth 8, BitVec.ofNat 8 (values.length / 256),
          BitVec.ofNat 8 values.length, BitVec.ofNat 8 data.length] ++ data) ∧
      data.length = (values.length + 7) / 8 ∧
      ∀ k, k < 8 * data.length → (byteAt data (k / 8)).getLsbD (k % 8) = values.getD k false) ∧
  (∀ (slave : Byte) (start : Word) (values : List Word), values.length ≤ 127 →
    requestFrame (.writeMultipleRegisters slave start values) =
      appendCrc ([slave, 0x10#8, (start >>> 8).setWidth 8, start.setWidth 8, 0x00#8, BitVec.ofNat 8 values.length,
        BitVec.ofNat 8 (2 * values.length)] ++ values.flatMap fun w : Word => [(w >>> 8).setWidth 8, w.setWidth 8]))

/-- R136, which the spec derives from R127 and R132: unpacking what was packed gives it back. -/
def Obligations.PackUnpackRoundTrip : Prop :=
  ∀ (values : List Bool) (rsp : List Byte), values.length ≤ 2040 →
    (byteAt rsp 2).toNat = (values.length + 7) / 8 →
    (rsp.drop 3).take ((values.length + 7) / 8) = packBits values →
    unpackBits rsp values.length = values

/-! The eight bus operations (42_turnaround.md, 43_read_ops.md, 44_write_ops.md). -/

/-- R225, R99: on an open instance every bus operation ends, for every sequence of answers, after at most
`10 + 2 * TXLEN + 2 * EXPLEN` events; on a closed one every CONSTRUCT ends; CLOSE always does. -/
def Obligations.CommandsAlwaysEnd : Prop :=
  (∀ (s : State) (i : Instr), s.Ready i →
    ∃ t, exec i s = .next t ∧
      (newEntries s t).length ≤ 10 + 2 * (requestFrame i).length + 2 * i.responseLength ∧
      (t.status = .ok ∨ t.status = .transportError ∨ t.status = .timeoutError ∨
        t.status = .protocolMismatchError ∨ t.status = .crcError)) ∧
  (∀ (s : State) (port baud deId reId : Nat), s.life = .closed → s.answersLeft = none →
    ∃ t, exec (.construct port baud deId reId) s = .next t ∧ (newEntries s t).length ≤ 7 ∧
      (t.status = .ok ∨ t.status = .transportError ∨ t.status = .setupError)) ∧
  (∀ (s : State), ∃ t, exec .close s = .next t ∧ (newEntries s t).length ≤ 2 ∧ t.status = .ok)

/-- R151, R156: the line changes of a bus operation, in their order and no other, for every sequence of answers:
into transmit mode at its start, and into receive mode wherever it comes to receive. -/
def Obligations.TurnaroundOrder : Prop :=
  ∀ (s t : State) (i : Instr), i.isBusOp = true → exec i s = .next t →
    (∃ e rest, newEntries s t =
        [⟨.setRE .high, .switchingToTransmit, s.de, .high, .opened⟩,
         ⟨.delay .lineSettle, .switchingToTransmit, s.de, .high, .opened⟩,
         ⟨.setDE .high, .switchingToTransmit, .high, .high, .opened⟩,
         ⟨.delay .lineSettle, .switchingToTransmit, .high, .high, .opened⟩] ++ e :: rest ∧
      e.seq = .transmitting ∧ ∀ f ∈ rest, f.seq ≠ .switchingToTransmit) ∧
    ((∃ e ∈ newEntries s t, e.seq = .receiving) →
      (newEntries s t).filter (fun e => decide (e.seq = .switchingToReceive)) =
        [⟨.setDE .low, .switchingToReceive, .low, .high, .opened⟩,
         ⟨.delay .lineSettle, .switchingToReceive, .low, .high, .opened⟩,
         ⟨.setRE .low, .switchingToReceive, .low, .low, .opened⟩,
         ⟨.delay .lineSettle, .switchingToReceive, .low, .low, .opened⟩])

/-- R152, R154, R157: where every byte is accepted, the frame is written byte by byte in order with a delay after
each, the delay after the frame follows, the lines turn, one delay precedes the first read, which asks for all of
EXPLEN (RXCNT is 0; that a `Read` asks for all that is missing is the spec's decision D17, R158, log 21), and then
only reads and pacing delays come. -/
def Obligations.FrameIsSentWhole : Prop :=
  ∀ (s : State) (i : Instr), s.Ready i → s.accepts (requestFrame i).length →
    ∃ t r rest, exec i s = .next t ∧
      t.events = s.events ++ (toTransmit ++ sending (requestFrame i) ++ [Event.delay .postFrame] ++ toReceive ++
        [Event.delay .preReceive, Event.read i.responseLength r] ++ rest) ∧
      ∀ e ∈ rest, e = .delay .readPacing ∨ ∃ n' r', e = .read n' r'

/-- R164: one command writes at most one frame, each byte at most once, and nothing after a byte that was not
accepted; CONSTRUCT, CLOSE and the CRC unit write nothing. -/
def Obligations.AtMostOneFrame : Prop :=
  ∀ (s t : State) (i : Instr), s.BuffersOk → exec i s = .next t →
    writtenBytes (newEntries s t) <+: (if i.isBusOp then requestFrame i else []) ∧ noRetry (newEntries s t) = true

/-- R155 (decision D13): a byte that is not accepted ends the transmission; both values of
TX_ABORT_RESTORES_RX. That the receive side keeps what it held is the model's (log 13). -/
def Obligations.TransmitAbort : Prop :=
  ∀ (s : State) (i : Instr) (k : Nat) (a : WriteAnswer) (more : List WriteAnswer), s.Ready i →
    s.writeAns = List.replicate k .accepted1 ++ a :: more → k < (requestFrame i).length → a ≠ .accepted1 →
    ∃ t, exec i s = .next t ∧ t.status = .transportError ∧ t.errExp = 1 ∧ t.errAct = 0 ∧ t.resValid = .nothing ∧
      t.seq = .receiveMode ∧ t.rxCnt = s.rxCnt ∧ t.rxQueue = s.rxQueue ∧ t.rxBuf = s.rxBuf ∧
      t.de = (if s.params.txAbortRestoresRx then .low else .high) ∧
      t.re = (if s.params.txAbortRestoresRx then .low else .high) ∧
      t.events = s.events ++ (toTransmit ++ sending ((requestFrame i).take k) ++
        [Event.write (byteAt (requestFrame i) k) a] ++ (if s.params.txAbortRestoresRx then toReceive else []))

/-- R163, R162: a response that ends short, after any number of partial reads, is a TimeoutError with the two
lengths; nothing of it is validated or decoded, the frame has been sent once, and the lines are in receive mode.
That the result sequences keep their values and CRC that of the request's body is the model's choice (log 13; the spec
leaves them open after the command, U7). -/
def Obligations.ShortResponse : Prop :=
  ∀ (s : State) (i : Instr) (chunks : List (List Byte)) (a : Arrival) (more : List Arrival), s.Ready i →
    s.accepts (requestFrame i).length → s.rxQueue = [] → (∀ c ∈ chunks, c ≠ []) →
    s.readAns = arrivals chunks ++ a :: more → (a = .zero ∨ a = .eos) →
    chunks.flatten.length < i.responseLength →
    ∃ t, exec i s = .next t ∧ t.status = .timeoutError ∧ t.errExp = i.responseLength ∧
      t.errAct = chunks.flatten.length ∧ t.rxCnt = chunks.flatten.length ∧ t.resValid = .nothing ∧
      t.resBits = s.resBits ∧ t.resRegs = s.resRegs ∧ t.crc = crc16 (encode i) ∧
      t.seq = .receiveMode ∧ t.de = .low ∧ t.re = .low ∧ t.life = .opened ∧
      writtenBytes (newEntries s t) = requestFrame i

/-- R161 (decision D29): a read error ends the operation with TransportError. -/
def Obligations.ReadErrorEnds : Prop :=
  ∀ (s : State) (i : Instr) (chunks : List (List Byte)) (more : List Arrival), s.Ready i →
    s.accepts (requestFrame i).length → s.rxQueue = [] → (∀ c ∈ chunks, c ≠ []) →
    s.readAns = arrivals chunks ++ .readError :: more → chunks.flatten.length < i.responseLength →
    ∃ t, exec i s = .next t ∧ t.status = .transportError ∧ t.errExp = i.responseLength ∧
      t.errAct = chunks.flatten.length ∧ t.resValid = .nothing ∧ t.seq = .receiveMode ∧ t.de = .low ∧ t.re = .low ∧
      t.life = .opened

/-- R166, which the spec derives from R147: the events of an exchange whose response comes whole, exactly, and how
many they are. That each read asks for all that is missing is the decision D17, the pacing delay after the completing
read the decision D18 (log 21). -/
def Obligations.SuccessfulExchangeTrace : Prop :=
  ∀ (s : State) (i : Instr) (chunks : List (List Byte)), s.Exchanges i chunks →
    ∃ t, exec i s = .next t ∧
      t.events = s.events ++ (txEvents (requestFrame i) ++ rxEvents i.responseLength chunks) ∧
      (newEntries s t).length = 10 + 2 * (requestFrame i).length + 2 * chunks.length

/-- R116, R130, R131: a complete response is judged by its slave byte, its function-code byte and its CRC, in this
order, and the first that fails is reported with both values; where all three hold and no echo is checked, the
operation succeeds: for the writes that none is checked is the decision D8 or D9 (log 21). That an error leaves the
result sequences as they are, and that RXBUF and RXCNT still hold the response after the command, is the model's
choice (log 13). -/
def Obligations.ResponseJudged : Prop :=
  ∀ (s : State) (i : Instr) (chunks : List (List Byte)), s.Exchanges i chunks →
    ∃ t, exec i s = .next t ∧ t.Settled i chunks.flatten ∧
      (byteAt chunks.flatten 0 ≠ i.slaveByte →
        t.status = .protocolMismatchError ∧ t.errExp = i.slaveByte.toNat ∧
        t.errAct = (byteAt chunks.flatten 0).toNat) ∧
      (byteAt chunks.flatten 0 = i.slaveByte → byteAt chunks.flatten 1 ≠ i.functionCode →
        t.status = .protocolMismatchError ∧ t.errExp = i.functionCode.toNat ∧
        t.errAct = (byteAt chunks.flatten 1).toNat) ∧
      (byteAt chunks.flatten 0 = i.slaveByte → byteAt chunks.flatten 1 = i.functionCode →
        receivedCrc chunks.flatten ≠ computedCrc chunks.flatten →
        t.status = .crcError ∧ t.errExp = (computedCrc chunks.flatten).toNat ∧
        t.errAct = (receivedCrc chunks.flatten).toNat) ∧
      (Accepted i chunks.flatten → i.echoes s.params = false → t.status = .ok) ∧
      (t.status ≠ .ok → t.resBits = s.resBits ∧ t.resRegs = s.resRegs)

/-- R132, R176, R177: READ_COILS and READ_DISCRETE_INPUTS with an accepted response return `count` booleans, each
the response's bit where the reported byte count covers it, else false; whatever that byte count is (R100). That
RES_REGS keeps its value is the model's choice (log 13). -/
def Obligations.ReadBitsResult : Prop :=
  ∀ (s : State) (slave : Byte) (start count : Word) (i : Instr) (chunks : List (List Byte)),
    (i = .readCoils slave start count ∨ i = .readDiscreteInputs slave start count) →
    s.Exchanges i chunks → Accepted i chunks.flatten →
    ∃ t, exec i s = .next t ∧ t.status = .ok ∧ t.Settled i chunks.flatten ∧ t.resRegs = s.resRegs ∧
      t.resBits.length = count.toNat ∧
      ∀ k, k < count.toNat → t.resBits.getD k true =
        (if k / 8 < (byteAt chunks.flatten 2).toNat then (byteAt chunks.flatten (3 + k / 8)).getLsbD (k % 8) else false)

/-- R133 (decision D12), R178, R179: READ_HOLDING_REGISTERS and READ_INPUT_REGISTERS with an accepted response
return `count` words, each the response's two bytes where the reported byte count covers both, else 0x0000. That
RES_BITS keeps its value is the model's choice (log 13). -/
def Obligations.ReadRegistersResult : Prop :=
  ∀ (s : State) (slave : Byte) (start count : Word) (i : Instr) (chunks : List (List Byte)),
    (i = .readHoldingRegisters slave start count ∨ i = .readInputRegisters slave start count) →
    s.Exchanges i chunks → Accepted i chunks.flatten →
    ∃ t, exec i s = .next t ∧ t.status = .ok ∧ t.Settled i chunks.flatten ∧ t.resBits = s.resBits ∧
      t.resRegs.length = count.toNat ∧
      ∀ k, k < count.toNat → t.resRegs.getD k 0xFFFF#16 =
        (if 2 * k + 1 < (byteAt chunks.flatten 2).toNat then
          byteAt chunks.flatten (3 + 2 * k) ++ byteAt chunks.flatten (4 + 2 * k) else 0x0000#16)

/-- R186: WRITE_COIL puts the coil word into its request, and succeeds exactly where the accepted response repeats
the request's bytes 0 to 5. That REQ_ADDR and REQ_VALUE still hold it after the command is the model's (log 13). -/
def Obligations.WriteCoilResult : Prop :=
  ∀ (s : State) (slave : Byte) (addr : Word) (value : Bool) (chunks : List (List Byte)),
    s.Exchanges (.writeCoil slave addr value) chunks → Accepted (.writeCoil slave addr value) chunks.flatten →
    ∃ t, exec (.writeCoil slave addr value) s = .next t ∧ t.Settled (.writeCoil slave addr value) chunks.flatten ∧
      t.reqAddr = addr ∧ t.reqValue = (if value then 0xFF00#16 else 0x0000#16) ∧
      writtenBytes (newEntries s t) = appendCrc
        [slave, 0x05#8, (addr >>> 8).setWidth 8, addr.setWidth 8, if value then 0xFF#8 else 0x00#8, 0x00#8] ∧
      ((∀ k, k < 6 → byteAt chunks.flatten k = byteAt (requestFrame (.writeCoil slave addr value)) k) →
        t.status = .ok) ∧
      (¬ (∀ k, k < 6 → byteAt chunks.flatten k = byteAt (requestFrame (.writeCoil slave addr value)) k) →
        t.status = .protocolMismatchError)

/-- R135 (decisions D7, D28) with R187 (decision D8): where the echo is checked, the first byte of 0 to 5 that
differs from the request is reported with both values. -/
def Obligations.EchoMismatch : Prop :=
  ∀ (s : State) (i : Instr) (chunks : List (List Byte)) (k : Nat), s.Exchanges i chunks →
    Accepted i chunks.flatten → i.echoes s.params = true → k < 6 →
    byteAt chunks.flatten k ≠ byteAt (requestFrame i) k →
    (∀ j, j < k → byteAt chunks.flatten j = byteAt (requestFrame i) j) →
    ∃ t, exec i s = .next t ∧ t.status = .protocolMismatchError ∧
      t.errExp = (byteAt (requestFrame i) k).toNat ∧ t.errAct = (byteAt chunks.flatten k).toNat ∧
      t.resValid = .nothing

/-- R185 to R194 (decisions D8, D9): the four writes succeed on an accepted response of 8 bytes, whose bytes 2 to 5
are compared only where the echo is checked; no result is valid. That the REQ_* registers still hold the operands
after the command is the model's (log 13). -/
def Obligations.WriteOpsSucceed : Prop :=
  ∀ (s : State) (slave : Byte) (addr value : Word) (coil : Bool) (coils : List Bool) (regs : List Word) (i : Instr)
    (chunks : List (List Byte)),
    (i = .writeCoil slave addr coil ∨ i = .writeRegister slave addr value ∨
      i = .writeMultipleCoils slave addr coils ∨ i = .writeMultipleRegisters slave addr regs) →
    s.Exchanges i chunks → Accepted i chunks.flatten →
    (i.echoes s.params = true → ∀ k, k < 6 → byteAt chunks.flatten k = byteAt (requestFrame i) k) →
    ∃ t, exec i s = .next t ∧ t.status = .ok ∧ t.resValid = .nothing ∧ t.Settled i chunks.flatten ∧
      t.reqAddr = addr ∧ (i = .writeRegister slave addr value → t.reqValue = value) ∧
      (i = .writeMultipleCoils slave addr coils → t.reqCount.toNat = coils.length ∧ t.reqBits = coils) ∧
      (i = .writeMultipleRegisters slave addr regs → t.reqCount.toNat = regs.length ∧ t.reqRegs = regs)

/-- R64, which the spec derives from R159: where the splits of a response fall changes no result. That CRC and RXCNT
hold a value after the command that can be compared (U7 leaves it open), and so ERR_EXP and ERR_ACT on success and the
result sequences on an error, is the model's choice (log 13). -/
def Obligations.SplitsDoNotMatter : Prop :=
  ∀ (s : State) (i : Instr) (chunks chunks' : List (List Byte)) (more : List Arrival), s.Exchanges i chunks →
    (∀ c ∈ chunks', c ≠ []) → chunks'.flatten = chunks.flatten →
    ∃ t t', exec i s = .next t ∧ exec i { s with readAns := arrivals chunks' ++ more } = .next t' ∧
      t'.status = t.status ∧ t'.errExp = t.errExp ∧ t'.errAct = t.errAct ∧ t'.resValid = t.resValid ∧
      t'.resBits = t.resBits ∧ t'.resRegs = t.resRegs ∧ t'.seq = t.seq ∧ t'.de = t.de ∧ t'.re = t.re ∧
      t'.crc = t.crc ∧ t'.rxCnt = t.rxCnt

/-- R251 (derived there; decision D26): a five-byte exception response is a TimeoutError where more bytes are
expected, and a ProtocolMismatchError for a read of count 0. -/
def Obligations.ExceptionResponses : Prop :=
  ∀ (s : State) (i : Instr) (code : Byte) (a : Arrival) (more : List Arrival), s.Ready i →
    s.accepts (requestFrame i).length → s.rxQueue = [] → (a = .zero ∨ a = .eos) →
    s.readAns = arrivals [appendCrc [i.slaveByte, i.functionCode ||| 0x80#8, code]] ++ a :: more →
    ∃ t, exec i s = .next t ∧
      (5 < i.responseLength → t.status = .timeoutError ∧ t.errExp = i.responseLength ∧ t.errAct = 5) ∧
      (i.responseLength = 5 → t.status = .protocolMismatchError ∧ t.errExp = i.functionCode.toNat ∧
        t.errAct = (i.functionCode ||| 0x80#8).toNat)

/-- R247 (derived there; decision D16): a bus operation takes at most EXPLEN bytes, and no byte is lost: what is
queued before it, followed by all that arrives during its reads, is what it takes followed by what stays queued. What
arrives during its reads is what the environment's queue says of as many reads as it makes, and a free value (log 3)
for each read behind the queue's end; every byte written has drawn one answer before. That a byte which arrives waits
behind those queued until a `Read` takes it is the model's inference (log 4). -/
def Obligations.StaleBytesFirst : Prop :=
  ∀ (s t : State) (i : Instr), i.isBusOp = true → s.BuffersOk → exec i s = .next t →
    (deliveredBytes (newEntries s t)).length ≤ i.responseLength ∧
    s.rxQueue ++ arrivedBytes (arrivalsTaken (readCount (newEntries s t)) s.readAns
        (s.free + (writtenBytes (newEntries s t)).length)) =
      deliveredBytes (newEntries s t) ++ t.rxQueue ∧
    t.readAns = s.readAns.drop (readCount (newEntries s t))

/-- R145 (its failures by the decisions D13, D29): how a bus operation's exchange leaves the control state: short of
a transport or timeout error the response is complete in RXBUF; and an error of the exchange has its own context. That
RXBUF and RXCNT still hold it after the command is the model's (log 13). -/
def Obligations.ExchangeEnds : Prop :=
  ∀ (s t : State) (i : Instr), i.isBusOp = true → s.BuffersOk → exec i s = .next t →
    t.seq = .receiveMode ∧ t.life = .opened ∧
    ((t.Settled i (deliveredBytes (newEntries s t)) ∧ t.status ≠ .transportError ∧ t.status ≠ .timeoutError) ∨
     (t.status = .timeoutError ∧ t.errExp = i.responseLength ∧ t.errAct = t.rxCnt ∧ t.rxCnt < i.responseLength ∧
        t.de = .low ∧ t.re = .low) ∨
     (t.status = .transportError ∧ t.errExp = i.responseLength ∧ t.errAct = t.rxCnt ∧ t.de = .low ∧ t.re = .low) ∨
     (t.status = .transportError ∧ t.errExp = 1 ∧ t.errAct = 0 ∧
        t.de = (if s.params.txAbortRestoresRx then .low else .high) ∧
        t.re = (if s.params.txAbortRestoresRx then .low else .high)))

/-- R148, R167, R32, which the spec derives from R147, R151, R155 and R156: at every event of a bus operation, for
every sequence of answers and both values of TX_ABORT_RESTORES_RX, the event is one SEQ's state allows, the lines
stand as the state machine's table has them, and never are driver and receiver both on. -/
def Obligations.TraceInTable : Prop :=
  ∀ (s t : State) (i : Instr), i.isBusOp = true → s.BuffersOk → exec i s = .next t →
    s.trace ++ newEntries s t = t.trace ∧
    ∀ e ∈ newEntries s t, e.inTable = true ∧ e.linesSafe = true ∧ e.life = .opened

/-- R29, which the spec derives from R150 to R160: SEQ starts in SWITCHING_TO_TRANSMIT and goes forward through its
states one at a time, never back, and ends in RECEIVE_MODE. -/
def Obligations.SeqGoesForward : Prop :=
  ∀ (s t : State) (i : Instr), i.isBusOp = true → s.BuffersOk → exec i s = .next t →
    ((newEntries s t).map fun e => seqCode e.seq).IsChain (fun a b => b = a ∨ b = a + 1) ∧
    (newEntries s t).head?.map (·.seq) = some .switchingToTransmit ∧ t.seq = .receiveMode

/-- R21, R91, R92 (decision D11 for EXPLEN): what each bus operation writes into the request descriptor, the frame
registers and TXBUF; that they still hold it after the command is the model's (log 13). -/
def Obligations.RequestRegisters : Prop :=
  ∀ (s t : State) (i : Instr), i.isBusOp = true → s.BuffersOk → exec i s = .next t →
    t.reqSlave = i.slaveByte ∧ t.reqFc = i.functionCode ∧ t.txLen = (requestFrame i).length ∧
    t.expLen = i.responseLength ∧ Memory.load t.txBuf 0 t.txLen = requestFrame i ∧
    (∀ slave start count, i = .readCoils slave start count ∨ i = .readDiscreteInputs slave start count ∨
        i = .readHoldingRegisters slave start count ∨ i = .readInputRegisters slave start count →
      t.reqAddr = start ∧ t.reqCount = count ∧ t.txLen = 8) ∧
    (∀ slave addr value, i = .writeCoil slave addr value →
      t.reqAddr = addr ∧ t.reqValue = (if value then 0xFF00#16 else 0x0000#16) ∧ t.txLen = 8) ∧
    (∀ slave addr value, i = .writeRegister slave addr value → t.reqAddr = addr ∧ t.reqValue = value ∧ t.txLen = 8) ∧
    (∀ slave start values, i = .writeMultipleCoils slave start values →
      t.reqAddr = start ∧ t.reqCount.toNat = values.length ∧ t.reqBits = values ∧
      t.txLen = 9 + (values.length + 7) / 8) ∧
    (∀ slave start values, i = .writeMultipleRegisters slave start values →
      t.reqAddr = start ∧ t.reqCount.toNat = values.length ∧ t.reqRegs = values ∧ t.txLen = 9 + 2 * values.length)

/-- The frame of the four reads: every register but the descriptor's, the frame's, the CRC, the receive side's, the
two lines, SEQ and the result's is unchanged; the result sequence of the other kind is unchanged, and both are where
the read fails; the error context is unchanged where it succeeds; of memory only the bytes of the frame in TXBUF and
the bytes delivered into RXBUF change. That registers keep their values between commands is the model's (log 13). -/
def Obligations.ReadOpsFrame : Prop :=
  ∀ (s t : State) (slave : Byte) (start count : Word) (i : Instr),
    (i = .readCoils slave start count ∨ i = .readDiscreteInputs slave start count ∨
      i = .readHoldingRegisters slave start count ∨ i = .readInputRegisters slave start count) →
    s.BuffersOk → exec i s = .next t →
    t.life = s.life ∧ t.serOpen = s.serOpen ∧ t.gpioOpen = s.gpioOpen ∧ t.cfgPort = s.cfgPort ∧
    t.cfgBaud = s.cfgBaud ∧ t.cfgDeId = s.cfgDeId ∧ t.cfgReId = s.cfgReId ∧ t.reqValue = s.reqValue ∧
    t.reqBits = s.reqBits ∧ t.reqRegs = s.reqRegs ∧ t.params = s.params ∧ t.openAns = s.openAns ∧
    t.flushAns = s.flushAns ∧ t.gpioAns = s.gpioAns ∧ t.configAns = s.configAns ∧ t.pending = s.pending ∧
    t.control = s.control ∧
    (i.resultKind = .bits → t.resRegs = s.resRegs) ∧ (i.resultKind = .regs → t.resBits = s.resBits) ∧
    (t.status = .ok → t.errExp = s.errExp ∧ t.errAct = s.errAct) ∧
    (t.status ≠ .ok → t.resBits = s.resBits ∧ t.resRegs = s.resRegs) ∧
    (∀ a, (requestFrame i).length ≤ a → Memory.read t.txBuf a = Memory.read s.txBuf a) ∧
    (∀ a, (deliveredBytes (newEntries s t)).length ≤ a → Memory.read t.rxBuf a = Memory.read s.rxBuf a)

/-- The frame of the four writes, as that of the reads; no result sequence changes, and the registers of the
descriptor that the operation's own rule does not name are unchanged (log 13). -/
def Obligations.WriteOpsFrame : Prop :=
  ∀ (s t : State) (slave : Byte) (addr value : Word) (coil : Bool) (coils : List Bool) (regs : List Word) (i : Instr),
    (i = .writeCoil slave addr coil ∨ i = .writeRegister slave addr value ∨
      i = .writeMultipleCoils slave addr coils ∨ i = .writeMultipleRegisters slave addr regs) →
    s.BuffersOk → exec i s = .next t →
    t.life = s.life ∧ t.serOpen = s.serOpen ∧ t.gpioOpen = s.gpioOpen ∧ t.cfgPort = s.cfgPort ∧
    t.cfgBaud = s.cfgBaud ∧ t.cfgDeId = s.cfgDeId ∧ t.cfgReId = s.cfgReId ∧ t.params = s.params ∧
    t.openAns = s.openAns ∧ t.flushAns = s.flushAns ∧ t.gpioAns = s.gpioAns ∧ t.configAns = s.configAns ∧
    t.pending = s.pending ∧ t.control = s.control ∧ t.resBits = s.resBits ∧ t.resRegs = s.resRegs ∧
    (i = .writeCoil slave addr coil ∨ i = .writeRegister slave addr value →
      t.reqCount = s.reqCount ∧ t.reqBits = s.reqBits ∧ t.reqRegs = s.reqRegs) ∧
    (i = .writeMultipleCoils slave addr coils → t.reqValue = s.reqValue ∧ t.reqRegs = s.reqRegs) ∧
    (i = .writeMultipleRegisters slave addr regs → t.reqValue = s.reqValue ∧ t.reqBits = s.reqBits) ∧
    (t.status = .ok → t.errExp = s.errExp ∧ t.errAct = s.errAct) ∧
    (∀ a, (requestFrame i).length ≤ a → Memory.read t.txBuf a = Memory.read s.txBuf a) ∧
    (∀ a, (deliveredBytes (newEntries s t)).length ≤ a → Memory.read t.rxBuf a = Memory.read s.rxBuf a)

/-- R21, R24, R25, R26, R41: no bus operation reads what an earlier command left in the descriptor, the frame
registers, the two buffers, the counts, the CRC or the transmit index: two states that differ only there give the
same outcome for the host and on the bus. The receive queue is another matter: it does carry over (R38, R75, R247) and
is the same in both states here (StaleBytesFirst has its rule). That ERR_EXP and ERR_ACT on success and the result
sequences that are not valid keep what they held, and so can be compared, is the model's choice (log 13). -/
def Obligations.LeftoversDoNotMatter : Prop :=
  ∀ (s : State) (i : Instr) (slave fc : Byte) (addr count value crc : Word) (bits : List Bool) (regs : List Word)
    (tx rx : Memory) (txLen txIdx expLen rxCnt : Nat), s.Ready i → Memory.wf tx = true → Memory.wf rx = true →
    ∃ t t', exec i s = .next t ∧
      exec i { s with
        reqSlave := slave, reqFc := fc, reqAddr := addr, reqCount := count, reqValue := value, reqBits := bits,
        reqRegs := regs, crc := crc, txBuf := tx, rxBuf := rx, txLen := txLen, txIdx := txIdx, expLen := expLen,
        rxCnt := rxCnt } = .next t' ∧
      t'.trace = t.trace ∧ t'.status = t.status ∧ t'.errExp = t.errExp ∧ t'.errAct = t.errAct ∧
      t'.resValid = t.resValid ∧ t'.resBits = t.resBits ∧ t'.resRegs = t.resRegs ∧ t'.rxQueue = t.rxQueue ∧
      t'.de = t.de ∧ t'.re = t.re ∧ t'.writeAns = t.writeAns ∧ t'.readAns = t.readAns ∧ t'.free = t.free

/-! Lifecycle (45_lifecycle.md). -/

/-- R201 (the order within each pair of lines is the decision D27): CONSTRUCT where every call is answered `Ok`. -/
def Obligations.ConstructSucceeds : Prop :=
  ∀ (s : State) (port baud deId reId : Nat) (o f g c : List Answer), s.life = .closed → s.answersLeft = none →
    s.openAns = .ok :: o → s.flushAns = .ok :: f → s.gpioAns = .ok :: g → s.configAns = .ok :: .ok :: c →
    ∃ t, exec (.construct port baud deId reId) s = .next t ∧ t.status = .ok ∧ t.life = .opened ∧ t.serOpen = true ∧
      t.gpioOpen = true ∧ t.de = .low ∧ t.re = .low ∧ t.seq = .receiveMode ∧ t.cfgPort = port ∧ t.cfgBaud = baud ∧
      t.cfgDeId = deId ∧ t.cfgReId = reId ∧ t.rxQueue = [] ∧ t.resValid = .nothing ∧
      t.events = s.events ++ [Event.openStream port baud .ok, Event.flush .ok, Event.openGpio .ok, Event.configOutput deId .ok,
        Event.configOutput reId .ok, Event.setDE .low, Event.setRE .low]

/-- R202: whatever the collaborators answer, a CONSTRUCT that fails has released what it had acquired, in reverse
order, and leaves the instance closed with nothing held; a later CONSTRUCT on it runs. That `de_id` is configured
before `re_id` is the decision D27 (log 21). -/
def Obligations.ConstructUnwinds : Prop :=
  ∀ (s : State) (port baud deId reId : Nat), s.life = .closed → s.serOpen = false → s.gpioOpen = false →
    s.answersLeft = none →
    ∃ t, exec (.construct port baud deId reId) s = .next t ∧
      (t.status ≠ .ok →
        t.life = .closed ∧ t.serOpen = false ∧ t.gpioOpen = false ∧
        (∀ p b d r, ∃ u, exec (.construct p b d r) t = .next u) ∧
        (t.events = s.events ++ [Event.openStream port baud .failed] ∨
         t.events = s.events ++ [Event.openStream port baud .ok, Event.flush .failed, Event.closeStream] ∨
         t.events = s.events ++ [Event.openStream port baud .ok, Event.flush .ok, Event.openGpio .failed, Event.closeStream] ∨
         t.events = s.events ++ [Event.openStream port baud .ok, Event.flush .ok, Event.openGpio .ok, Event.configOutput deId .failed,
           Event.closeGpio, Event.closeStream] ∨
         t.events = s.events ++ [Event.openStream port baud .ok, Event.flush .ok, Event.openGpio .ok, Event.configOutput deId .ok,
           Event.configOutput reId .failed, Event.closeGpio, Event.closeStream]))

/-- R201, R214 (90_conflicts.md C9, decisions D7, D20): the kind of a CONSTRUCT failure; for the two serial steps
either kind is accepted, as the spec asks (log 18). -/
def Obligations.ConstructErrorKinds : Prop :=
  ∀ (s t : State) (port baud deId reId : Nat), exec (.construct port baud deId reId) s = .next t → t.status ≠ .ok →
    t.errExp = 0 ∧ t.errAct = 0 ∧ t.resValid = .nothing ∧
    ((Event.openStream port baud .failed ∈ t.events.drop s.events.length ∨ Event.flush .failed ∈ t.events.drop s.events.length) →
      t.status = .transportError ∨ t.status = .setupError) ∧
    ((Event.openGpio .failed ∈ t.events.drop s.events.length ∨
        (∃ id, Event.configOutput id .failed ∈ t.events.drop s.events.length)) → t.status = .setupError)

/-- The frame of CONSTRUCT: it writes LIFE, SER_OPEN, GPIO_OPEN, CFG_*, DE, RE, SEQ, the result registers, and the
receive queue it flushes; every other register and both buffers are unchanged (log 13). -/
def Obligations.ConstructFrame : Prop :=
  ∀ (s t : State) (port baud deId reId : Nat), exec (.construct port baud deId reId) s = .next t →
    t.reqSlave = s.reqSlave ∧ t.reqFc = s.reqFc ∧ t.reqAddr = s.reqAddr ∧ t.reqCount = s.reqCount ∧
    t.reqValue = s.reqValue ∧ t.reqBits = s.reqBits ∧ t.reqRegs = s.reqRegs ∧ t.txLen = s.txLen ∧
    t.txIdx = s.txIdx ∧ t.expLen = s.expLen ∧ t.rxCnt = s.rxCnt ∧ t.crc = s.crc ∧ t.resBits = s.resBits ∧
    t.resRegs = s.resRegs ∧ t.params = s.params ∧ t.writeAns = s.writeAns ∧ t.readAns = s.readAns ∧
    t.pending = s.pending ∧ t.control = s.control ∧ (t.status = .ok → t.errExp = s.errExp ∧ t.errAct = s.errAct) ∧
    (∀ a, Memory.read t.txBuf a = Memory.read s.txBuf a) ∧ (∀ a, Memory.read t.rxBuf a = Memory.read s.rxBuf a)

/-- R203 (the guard on GPIO_OPEN is the decision D27): CLOSE in every lifecycle state, with its events and its
frame. The levels it leaves the lines at are free values (log 12). That CFG_*, REQ_*, SEQ, CRC, the counts, the context
values, the result sequences and both buffers are unchanged is the model's choice (log 13; R41 calls most of them
unspecified after CLOSE), and that the receive queue is too the model's inference (log 4). -/
def Obligations.CloseResult : Prop :=
  ∀ (s : State), ∃ t, exec .close s = .next t ∧ t.status = .ok ∧ t.life = .closed ∧ t.serOpen = false ∧
    t.gpioOpen = false ∧ t.resValid = .nothing ∧
    t.events = s.events ++ ((if s.serOpen then [Event.closeStream] else []) ++ (if s.gpioOpen then [Event.closeGpio] else [])) ∧
    t.seq = s.seq ∧ t.cfgPort = s.cfgPort ∧ t.cfgBaud = s.cfgBaud ∧ t.cfgDeId = s.cfgDeId ∧ t.cfgReId = s.cfgReId ∧
    t.reqSlave = s.reqSlave ∧ t.reqFc = s.reqFc ∧ t.reqAddr = s.reqAddr ∧ t.reqCount = s.reqCount ∧
    t.reqValue = s.reqValue ∧ t.reqBits = s.reqBits ∧ t.reqRegs = s.reqRegs ∧ t.txLen = s.txLen ∧
    t.txIdx = s.txIdx ∧ t.expLen = s.expLen ∧ t.rxCnt = s.rxCnt ∧ t.crc = s.crc ∧ t.errExp = s.errExp ∧
    t.errAct = s.errAct ∧ t.resBits = s.resBits ∧ t.resRegs = s.resRegs ∧ t.params = s.params ∧
    t.rxQueue = s.rxQueue ∧ t.writeAns = s.writeAns ∧ t.readAns = s.readAns ∧ t.pending = s.pending ∧
    t.control = s.control ∧
    (∀ a, Memory.read t.txBuf a = Memory.read s.txBuf a) ∧ (∀ a, Memory.read t.rxBuf a = Memory.read s.rxBuf a)

/-- R203 (decision D27), "safe to call multiple times": a CLOSE after a CLOSE makes no event and changes only the
levels of the lines, which are free values, and the counter they are drawn with (log 12). That the registers R41 calls
unspecified after CLOSE (CFG_*, REQ_*, CRC, the buffers and the rest) stay as the first CLOSE left them is the model's
choice (log 13). -/
def Obligations.CloseIdempotent : Prop :=
  ∀ (s t : State), exec .close s = .next t →
    ∃ u, exec .close t = .next u ∧ u = { t with de := u.de, re := u.re, free := u.free }

/-- R200: the transitions of LIFE. CONSTRUCT opens on success and leaves it CLOSED on failure, CLOSE closes from
either state, and a bus operation has a meaning only in OPEN, where it leaves it. -/
def Obligations.LifecycleTransitions : Prop :=
  (∀ (s t : State) (port baud deId reId : Nat), exec (.construct port baud deId reId) s = .next t →
    s.life = .closed ∧ (t.status = .ok → t.life = .opened) ∧ (t.status ≠ .ok → t.life = .closed)) ∧
  (∀ (s : State), ∃ t, exec .close s = .next t ∧ t.life = .closed) ∧
  (∀ (s t : State) (i : Instr), i.isBusOp = true → exec i s = .next t → s.life = .opened ∧ t.life = .opened)

/-- R98, R192, R195, R204 (decisions D10, D14): the refused commands, each by its name. -/
def Obligations.RefusedCommands : Prop :=
  (∀ (s : State) (i : Instr), i.isBusOp = true → i.WellFormed → s.life = .closed →
    exec i s = .refused .closedInstance) ∧
  (∀ (s : State) (port baud deId reId : Nat), s.life = .opened →
    exec (.construct port baud deId reId) s = .refused .alreadyOpen) ∧
  (∀ (s : State) (slave : Byte) (start : Word) (values : List Bool), 2040 < values.length →
    exec (.writeMultipleCoils slave start values) s = .refused .tooManyCoils) ∧
  (∀ (s : State) (slave : Byte) (start : Word) (values : List Word), 127 < values.length →
    exec (.writeMultipleRegisters slave start values) s = .refused .tooManyRegisters)

/-! Errors (60_exceptions.md). -/

/-- R219: SetupError is raised by CONSTRUCT alone, never by a bus operation or by CLOSE; the CRC unit writes no
STATUS. -/
def Obligations.SetupErrorOnlyFromConstruct : Prop :=
  ∀ (s t : State) (i : Instr), exec i s = .next t → t.status = .setupError →
    (∃ port baud deId reId, i = .construct port baud deId reId) ∨
    (i = .crcReset ∧ s.status = .setupError) ∨ (∃ b, i = .crcUpdate b ∧ s.status = .setupError)

/-- R27, R213 (decision D25; the mark in State is the model's, log 19): on success exactly the command's own result
is valid, on failure none. -/
def Obligations.ResultValidity : Prop :=
  ∀ (s t : State) (i : Instr), (∀ b, i ≠ .crcUpdate b) → i ≠ .crcReset → exec i s = .next t →
    (t.status = .ok → t.resValid = i.resultKind) ∧ (t.status ≠ .ok → t.resValid = .nothing)

/-- U11 (log 5): where the collaborators answer `k` more calls, a command whose run makes at most `k` ends as it
would, and one that would make more does not end. -/
def Obligations.UnansweredCallsStick : Prop :=
  ∀ (s t : State) (i : Instr) (k : Nat), (i.isBusOp = true ∨ ∃ port baud deId reId, i = .construct port baud deId reId) →
    exec i { s with answersLeft := none } = .next t →
    exec i { s with answersLeft := some k } =
      (if ((newEntries s t).filter (fun e => e.event.awaits)).length ≤ k then
        .next { t with
          answersLeft := some (k - ((newEntries s t).filter (fun e => e.event.awaits)).length) }
      else .fault .callNeverAnswers)

/-! The whole machine. -/

/-- R41, R240: what the spec states of power-on; the two policy parameters at the spec's defaults (R7). -/
def Obligations.ResetValues : Prop :=
  State.reset.life = .closed ∧ State.reset.serOpen = false ∧ State.reset.gpioOpen = false ∧
  State.reset.params = { echoCheckFc06 := false, txAbortRestoresRx := true }

/-- The reset state meets the invariant; the ranges it names hold of reset values the model chose (log 11). -/
def Obligations.ResetInv : Prop := State.reset.Inv

/-- R20, R32, R33, R34, R255 and D11: every step keeps the invariant: canonical buffers within their capacities, the
ranges of TXLEN and EXPLEN, what an open and a closed instance hold, RECEIVE_MODE and the lines between commands,
and never driver and receiver both on at an event of an open instance. -/
def Obligations.StepKeepsInv : Prop :=
  ∀ (s t : State), s.Inv → step s = .next t → t.Inv

/-- R34, R40, R71: no step writes the policy parameters or takes back an event, and while an instance stays open
its configuration registers keep the arguments of its CONSTRUCT. The parameters and the trace as parts of the state
are the model's (logs 6, 2). -/
def Obligations.FixedByEveryStep : Prop :=
  ∀ (s t : State), step s = .next t →
    t.params = s.params ∧ s.trace <+: t.trace ∧
    (s.life = .opened → t.life = .opened →
      t.cfgPort = s.cfgPort ∧ t.cfgBaud = s.cfgBaud ∧ t.cfgDeId = s.cfgDeId ∧ t.cfgReId = s.cfgReId)

/-- R98, R204, R233, U11: where a step is no next state, it takes a word, and either that decodes to an instruction and
the stop is that instruction's: the one fault, a call that is never answered, of a bus operation or a CONSTRUCT whose
answers are bounded (log 5), or the refusal of a bus operation on a closed instance or of a CONSTRUCT on an open one;
or it decodes to nothing and is refused for the decoder's reason. Of those reasons the spec gives the unknown selector
(R98) and the control word 11 (U13); the others, for words cut short, a stray slave byte, a coil word other than the
two of R84, a byte count or padding that does not follow from the quantity and a control word of more than ten bits,
are the model's, whose binary form of the ports it is (logs 7, 8); the words at the ports are logs 10 and 22. -/
def Obligations.StopsOnlyWhereTheSpecStops : Prop :=
  ∀ (s : State),
    (∃ t, step s = .next t) ∨
    (∃ port word t i rest, s.takes port word t ∧ decode port word = .instr i rest ∧
      ((step s = .fault .callNeverAnswers ∧ (∃ k, s.answersLeft = some k) ∧
          (i.isBusOp = true ∨ ∃ port baud deId reId, i = .construct port baud deId reId)) ∨
       (step s = .refused .closedInstance ∧ s.life = .closed ∧ i.isBusOp = true) ∨
       (step s = .refused .alreadyOpen ∧ s.life = .opened ∧
          ∃ port baud deId reId, i = .construct port baud deId reId))) ∨
    (∃ port word t why, s.takes port word t ∧ decode port word = .rejected why ∧
      step s = .refused (.undecodable why))

/-- R116, R130, R131, and R118 (d), derived there: a bus operation whose response would be accepted but for one
flipped bit fails: a flip in the slave or the function-code byte is a ProtocolMismatchError with the expected and the
flipped byte, a flip in any later byte, the CRC's included, a CrcError with the computed and the received CRC. -/
def Obligations.FlippedResponseBit : Prop :=
  ∀ (s : State) (i : Instr) (chunks : List (List Byte)) (rsp : List Byte) (j k : Nat), s.Exchanges i chunks →
    Accepted i rsp → j < rsp.length → k < 8 → chunks.flatten = rsp.set j (byteAt rsp j ^^^ (1#8 <<< k)) →
    ∃ t, exec i s = .next t ∧ t.resValid = .nothing ∧
      (j < 2 → t.status = .protocolMismatchError ∧ t.errExp = (byteAt rsp j).toNat ∧
        t.errAct = (byteAt chunks.flatten j).toNat) ∧
      (2 ≤ j → t.status = .crcError ∧ t.errExp = (computedCrc chunks.flatten).toNat ∧
        t.errAct = (receivedCrc chunks.flatten).toNat)

/-- R120, R95: no word the host presents is a micro-operation of the generator; and where none waits at the
generator's own port, which the host does not reach, none does after a step either, and the step leaves CRC as it was
unless the host's word was a bus operation. That CRC keeps its value then is the model's (log 13), and so is a state
with words at that port (log 22). -/
def Obligations.HostCannotReachGenerator : Prop :=
  (∀ (word rest : List Byte) (i : Instr), decode .command word = .instr i rest →
    i ≠ .crcReset ∧ ∀ b, i ≠ .crcUpdate b) ∧
  (∀ (s t : State), s.control = [] → step s = .next t →
    t.control = [] ∧
    (t.crc = s.crc ∨ ∃ word words i rest, s.pending = word :: words ∧ decode .command word = .instr i rest ∧
      i.isBusOp = true))

/-- R120 (its order before the line changes is the decision D19): the two runs of the generator in a bus operation: it
has run over the request body, and over nothing more where the exchange fails or the slave or the function-code byte
is wrong; else it has run over the response without its last two bytes after that. That CRC still holds its value
after the command is the model's choice (log 13; U7). -/
def Obligations.GeneratorRuns : Prop :=
  ∀ (s t : State) (i : Instr), i.isBusOp = true → s.BuffersOk → exec i s = .next t →
    t.crc = (if t.status = .transportError ∨ t.status = .timeoutError ∨
        byteAt (deliveredBytes (newEntries s t)) 0 ≠ i.slaveByte ∨
        byteAt (deliveredBytes (newEntries s t)) 1 ≠ i.functionCode
      then crc16 (encode i) else computedCrc (deliveredBytes (newEntries s t)))
end

