-- ==== Sys2Proof/Laws/Codec.lean ====
section
/-! SUPPORT. Laws/Codec.lean: byte order, the CRC fold, lengths of the bodies, and what a packed sequence holds
bit by bit. -/

namespace Sys2Proof.Machine

/-! Byte order. -/

@[simp] theorem wordBe_hi_lo (w : Word) : wordBe (hiByte w) (loByte w) = w := by
  apply BitVec.eq_of_getLsbD_eq
  intro i hi
  simp only [wordBe, hiByte, loByte, BitVec.getLsbD_or, BitVec.getLsbD_shiftLeft, BitVec.getLsbD_setWidth,
    BitVec.getLsbD_ushiftRight]
  by_cases h8 : i < 8
  · simp [h8, hi]
  · simp [h8, hi, show i - 8 < 16 by omega, show i - 8 < 8 by omega, show 8 + (i - 8) = i by omega]

/-- R14: `word_be(a, b)` is the two bytes one after the other. -/
theorem wordBe_eq (a b : Byte) : wordBe a b = a ++ b := by
  apply BitVec.eq_of_getLsbD_eq
  intro i hi
  simp only [wordBe, BitVec.getLsbD_or, BitVec.getLsbD_shiftLeft, BitVec.getLsbD_setWidth, BitVec.getLsbD_append]
  by_cases h : i < 8
  · simp [h, hi]
  · have : b.getLsbD i = false := BitVec.getLsbD_of_ge _ _ (by omega)
    simp [h, hi, this]
    omega

@[simp] theorem hiByte_wordBe (a b : Byte) : hiByte (wordBe a b) = a := by
  apply BitVec.eq_of_getLsbD_eq
  intro i hi
  simp [wordBe, hiByte, hi, show 8 + i < 16 by omega, show i < 16 by omega]

@[simp] theorem loByte_wordBe (a b : Byte) : loByte (wordBe a b) = b := by
  apply BitVec.eq_of_getLsbD_eq
  intro i hi
  simp [wordBe, loByte, hi]

@[simp] theorem be16_length (w : Word) : (be16 w).length = 2 := rfl
@[simp] theorem le16_length (w : Word) : (le16 w).length = 2 := rfl

/-! The CRC. -/

@[simp] theorem crcFrom_nil (c : Word) : crcFrom c [] = c := rfl

@[simp] theorem crcFrom_cons (c : Word) (b : Byte) (s : List Byte) :
    crcFrom c (b :: s) = crcFrom (crcByte c b) s := by
  rw [crcFrom]
  split
  · rename_i h
    congr 1
    exact (BitVec.eq_of_toNat_eq (by simpa using h)).symm
  · rename_i n h
    congr 1
    show BitVec.ofNat 16 n.succ = _
    rw [← h, BitVec.ofNat_toNat, BitVec.setWidth_eq]

/-- R114: the generator run over a sequence is the byte update folded over it. -/
theorem crcFrom_eq_foldl (c : Word) (s : List Byte) : crcFrom c s = s.foldl crcByte c := by
  induction s generalizing c with
  | nil => rfl
  | cons b s ih => rw [crcFrom_cons, ih, List.foldl_cons]

theorem crcFrom_append (c : Word) (s t : List Byte) : crcFrom c (s ++ t) = crcFrom (crcFrom c s) t := by
  simp [crcFrom_eq_foldl, List.foldl_append]

@[simp] theorem appendCrc_length (body : List Byte) : (appendCrc body).length = body.length + 2 := by
  simp [appendCrc]

theorem appendCrc_take (body : List Byte) : (appendCrc body).take body.length = body := by
  simp [appendCrc]

/-! Lengths of the bodies (R92, without the two CRC bytes). -/

@[simp] theorem body4_length (slave fc : Byte) (a b : Word) : (body4 slave fc a b).length = 6 := rfl

@[simp] theorem packBits_length (values : List Bool) : (packBits values).length = ceil8 values.length := by
  simp [packBits]

@[simp] theorem packRegs_length (values : List Word) : (packRegs values).length = 2 * values.length := by
  induction values with
  | nil => rfl
  | cons w rest ih =>
    simp only [packRegs, List.flatMap_cons, List.length_append, be16_length, List.length_cons] at ih ⊢
    omega

@[simp] theorem bodyWMC_length (slave : Byte) (start : Word) (values : List Bool) :
    (bodyWMC slave start values).length = 7 + ceil8 values.length := by
  simp [bodyWMC]; omega

@[simp] theorem bodyWMR_length (slave : Byte) (start : Word) (values : List Word) :
    (bodyWMR slave start values).length = 7 + 2 * values.length := by
  simp [bodyWMR]; omega

@[simp] theorem bitsOf_length (data : List Byte) (n : Nat) : (bitsOf data n).length = n := by simp [bitsOf]
@[simp] theorem regsOf_length (data : List Byte) (n : Nat) : (regsOf data n).length = n := by simp [regsOf]

@[simp] theorem unpackBits_length (rsp : List Byte) (n : Nat) : (unpackBits rsp n).length = n := by
  simp [unpackBits]

@[simp] theorem unpackRegs_length (rsp : List Byte) (n : Nat) : (unpackRegs rsp n).length = n := by
  simp [unpackRegs]

/-- R91: the bounds of EXPLEN over every function code and every 16-bit count. -/
theorem expectedLength_bounds (fc : Byte) (count : Nat) (h : count ≤ 65535) :
    5 ≤ expectedLength fc count ∧ expectedLength fc count ≤ Config.rxBufCap := by
  unfold expectedLength ceil8 Config.rxBufCap
  split
  · omega
  · split <;> omega

/-! Bits of a packed sequence (R127). -/

/-- The loop of R127 over one data byte, as far as bit `n`. -/
theorem packLoop_getLsbD (f : Nat → Bool) (n i : Nat) (hn : n ≤ 8) (hi : i < 8) :
    ((List.range n).foldl (fun acc k => if f k then acc ||| (1#8 <<< k) else acc) 0#8).getLsbD i
      = (decide (i < n) && f i) := by
  induction n with
  | zero => simp
  | succ n ih =>
    have ih := ih (by omega)
    rw [List.range_succ, List.foldl_append, List.foldl_cons, List.foldl_nil]
    by_cases hin : i = n
    · subst hin
      split
      · rename_i hf
        simp [hi, hf]
      · rename_i hf
        rw [ih]; simp [hf]
    · have hlt : decide (i < n + 1) = decide (i < n) := by
        by_cases h : i < n
        · simp [h]; omega
        · simp [h]; omega
      rw [hlt]
      split
      · rw [BitVec.getLsbD_or, ih, BitVec.getLsbD_shiftLeft]
        by_cases h : i < n
        · simp [h]
        · simp [show ¬ i < n by omega, show i - n ≠ 0 by omega]
      · exact ih

/-- R62, R127: bit `k` of data byte `j` is value `8*j + k`, false where there is none. -/
theorem packByte_getLsbD (values : List Bool) (j k : Nat) (hk : k < 8) :
    (packByte values j).getLsbD k = values.getD (8 * j + k) false := by
  rw [packByte, packLoop_getLsbD (fun k => values.getD (8 * j + k) false) 8 k (by omega) hk]
  simp [hk]

theorem byteAt_packBits (values : List Bool) (j : Nat) (hj : j < ceil8 values.length) :
    byteAt (packBits values) j = packByte values j := by
  simp [byteAt, packBits, List.getD_eq_getElem?_getD, hj]

/-- R62, R127: point `i` of the packed bytes is value `i`; the padding bits are 0 (D24). -/
theorem bitAt_packBits (values : List Bool) (i : Nat) :
    bitAt (packBits values) i = values.getD i false := by
  unfold bitAt
  by_cases hj : i / 8 < ceil8 values.length
  · rw [byteAt_packBits values _ hj, packByte_getLsbD values _ _ (Nat.mod_lt i (by omega)), Nat.div_add_mod]
  · have hlen : values.length ≤ i := by unfold ceil8 at hj; omega
    have h0 : byteAt (packBits values) (i / 8) = 0#8 := by
      have hle : (packBits values).length ≤ i / 8 := by rw [packBits_length]; omega
      simp [byteAt, List.getD_eq_getElem?_getD, List.getElem?_eq_none hle]
    rw [h0]
    simp [List.getD_eq_getElem?_getD, hlen]

end Sys2Proof.Machine
end

