-- ==== Sys2Proof/Laws/Memory.lean ====
section
/-! SUPPORT. Laws/Memory.lean: the byte buffers. A read after a write gives the byte written and leaves every
other address alone; every write keeps the canonical form; what a store of several bytes does. -/

namespace Sys2Proof.Machine

theorem Memory.wf_cons {x : Nat} {c : Byte} {rest : Memory} :
    Memory.wf ((x, c) :: rest) = true ↔
      c ≠ Memory.unlisted ∧ (∀ e ∈ rest, x < e.1) ∧ Memory.wf rest = true := by
  simp [Memory.wf, and_assoc]

/-- An address below every listed one reads as unlisted. -/
theorem Memory.read_below {m : Memory} {a : Nat} (h : ∀ e ∈ m, a < e.1) : Memory.read m a = Memory.unlisted := by
  induction m with
  | nil => rfl
  | cons e rest ih =>
    obtain ⟨x, c⟩ := e
    have hx : a < x := h (x, c) (by simp)
    rw [Memory.read, if_neg (by omega)]
    exact ih fun e he => h e (by simp [he])

/-- Where the addresses a write touches lie. -/
theorem Memory.mem_write {m : Memory} {a : Nat} {b : Byte} {e : Host.Cell} (h : e ∈ Memory.write m a b) :
    e = (a, b) ∨ e ∈ m := by
  induction m with
  | nil =>
    rw [Memory.write] at h
    split at h
    · simp at h
    · left; simpa using h
  | cons p rest ih =>
    obtain ⟨x, c⟩ := p
    rw [Memory.write] at h
    split at h
    · split at h
      · exact .inr h
      · rcases List.mem_cons.1 h with h | h
        · exact .inl h
        · exact .inr h
    · split at h
      · split at h
        · exact .inr (by simp [h])
        · rcases List.mem_cons.1 h with h | h
          · exact .inl h
          · exact .inr (by simp [h])
      · rcases List.mem_cons.1 h with h | h
        · exact .inr (by simp [h])
        · rcases ih h with h | h
          · exact .inl h
          · exact .inr (by simp [h])

theorem Memory.write_wf {m : Memory} (a : Nat) (b : Byte) (h : Memory.wf m = true) :
    Memory.wf (Memory.write m a b) = true := by
  induction m with
  | nil =>
    rw [Memory.write]
    split
    · rfl
    · rename_i hb; simp [Memory.wf, hb]
  | cons e rest ih =>
    obtain ⟨x, c⟩ := e
    obtain ⟨hc, hx, hr⟩ := Memory.wf_cons.1 h
    rw [Memory.write]
    split
    · rename_i hax
      split
      · exact h
      · rename_i hb
        refine Memory.wf_cons.2 ⟨hb, ?_, h⟩
        intro e he
        rcases List.mem_cons.1 he with rfl | he
        · exact hax
        · have := hx e he; omega
    · split
      · rename_i _ hax
        split
        · exact hr
        · rename_i hb; exact Memory.wf_cons.2 ⟨hb, fun e he => hax ▸ hx e he, hr⟩
      · rename_i h1 h2
        refine Memory.wf_cons.2 ⟨hc, ?_, ih hr⟩
        intro e he
        rcases Memory.mem_write he with rfl | he
        · show x < a; omega
        · exact hx e he

theorem Memory.read_write_same {m : Memory} (a : Nat) (b : Byte) (h : Memory.wf m = true) :
    Memory.read (Memory.write m a b) a = b := by
  induction m with
  | nil =>
    rw [Memory.write]
    split
    · rename_i hb; simp [Memory.read, hb]
    · simp [Memory.read]
  | cons e rest ih =>
    obtain ⟨x, c⟩ := e
    obtain ⟨hc, hx, hr⟩ := Memory.wf_cons.1 h
    rw [Memory.write]
    split
    · rename_i hax
      split
      · rename_i hb
        rw [Memory.read_below, hb]
        intro e he
        rcases List.mem_cons.1 he with rfl | he
        · exact hax
        · have := hx e he; omega
      · simp [Memory.read]
    · split
      · rename_i _ hax
        split
        · rename_i hb
          rw [Memory.read_below, hb]
          intro e he; exact hax ▸ hx e he
        · simp [Memory.read]
      · rename_i _ hax
        rw [Memory.read, if_neg hax]
        exact ih hr

theorem Memory.read_write_other {m : Memory} {a a' : Nat} (b : Byte) (hne : a' ≠ a) :
    Memory.read (Memory.write m a b) a' = Memory.read m a' := by
  induction m with
  | nil =>
    rw [Memory.write]
    split
    · rfl
    · simp [Memory.read, hne]
  | cons e rest ih =>
    obtain ⟨x, c⟩ := e
    rw [Memory.write]
    split
    · split
      · rfl
      · rw [Memory.read, if_neg hne]
    · split
      · rename_i _ hax
        subst hax
        split
        · rw [Memory.read, if_neg hne]
        · simp [Memory.read, hne]
      · simp only [Memory.read, ih]

@[simp] theorem Memory.load_length (m : Memory) (a n : Nat) : (Memory.load m a n).length = n := by
  induction n generalizing a with
  | zero => rfl
  | succ n ih => simp [Memory.load, ih]

theorem Memory.load_getElem (m : Memory) (a n i : Nat) (h : i < (Memory.load m a n).length) :
    (Memory.load m a n)[i] = Memory.read m (a + i) := by
  induction n generalizing a i with
  | zero => simp [Memory.load] at h
  | succ n ih =>
    cases i with
    | zero => simp [Memory.load]
    | succ i =>
      simp only [Memory.load, List.getElem_cons_succ]
      rw [ih]
      congr 1
      omega

theorem Memory.load_append (m : Memory) (a n k : Nat) :
    Memory.load m a (n + k) = Memory.load m a n ++ Memory.load m (a + n) k := by
  induction n generalizing a with
  | zero => simp [Memory.load]
  | succ n ih =>
    rw [show n + 1 + k = (n + k) + 1 by omega]
    simp only [Memory.load, ih, List.cons_append]
    rw [show a + 1 + n = a + (n + 1) by omega]

/-- Two buffers that read alike on a range load alike. -/
theorem Memory.load_congr {m m' : Memory} {a n : Nat}
    (h : ∀ i, a ≤ i → i < a + n → Memory.read m i = Memory.read m' i) :
    Memory.load m a n = Memory.load m' a n := by
  induction n generalizing a with
  | zero => rfl
  | succ n ih =>
    simp only [Memory.load]
    rw [h a (by omega) (by omega), ih fun i h1 h2 => h i (by omega) (by omega)]

theorem Memory.store_wf {m : Memory} (a : Nat) (bs : List Byte) (h : Memory.wf m = true) :
    Memory.wf (Memory.store m a bs) = true := by
  induction bs generalizing m a with
  | nil => exact h
  | cons b rest ih => exact ih (a + 1) (Memory.write_wf a b h)

/-- A store leaves every address outside its bytes alone. -/
theorem Memory.read_store_outside {m : Memory} {a i : Nat} {bs : List Byte} (h : i < a ∨ a + bs.length ≤ i) :
    Memory.read (Memory.store m a bs) i = Memory.read m i := by
  induction bs generalizing m a with
  | nil => rfl
  | cons b rest ih =>
    simp only [List.length_cons] at h
    rw [Memory.store, ih (by omega), Memory.read_write_other b (by omega)]

/-- The bytes a store wrote load back. -/
theorem Memory.load_store {m : Memory} (a : Nat) (bs : List Byte) (h : Memory.wf m = true) :
    Memory.load (Memory.store m a bs) a bs.length = bs := by
  induction bs generalizing m a with
  | nil => rfl
  | cons b rest ih =>
    have hw := Memory.write_wf a b h
    simp only [List.length_cons, Memory.load, Memory.store]
    rw [ih (a + 1) hw, Memory.read_store_outside (.inl (by omega)), Memory.read_write_same a b h]

/-- Where the listed addresses of a store lie. -/
theorem Memory.mem_store {m : Memory} {a : Nat} {bs : List Byte} {e : Host.Cell} (h : e ∈ Memory.store m a bs) :
    (a ≤ e.1 ∧ e.1 < a + bs.length) ∨ e ∈ m := by
  induction bs generalizing m a with
  | nil => exact .inr h
  | cons b rest ih =>
    simp only [List.length_cons]
    rcases ih h with h | h
    · left; omega
    · rcases Memory.mem_write h with rfl | h
      · left; constructor <;> simp
      · exact .inr h

end Sys2Proof.Machine
end

