-- ==== Sys2Proof/Laws/State.lean ====
section
/-! SUPPORT. Laws/State.lean: for each update of the state, what every field holds after it, true by rfl. A
`_sets` lemma holds the fields the update writes and a `_keeps` lemma all the others; both are conjunctions,
which simp takes apart into one rewrite rule per field, so that no later proof unfolds a record update. -/

namespace Sys2Proof.Machine

@[simp] theorem State.emit_sets (e : Event) (s : State) :
    (State.emit e s).trace = s.trace ++ [⟨e, s.seq, s.de, s.re, s.life⟩] := by
  rfl

@[simp] theorem State.emit_keeps (e : Event) (s : State) :
    (State.emit e s).life = s.life ∧
    (State.emit e s).serOpen = s.serOpen ∧
    (State.emit e s).gpioOpen = s.gpioOpen ∧
    (State.emit e s).cfgPort = s.cfgPort ∧
    (State.emit e s).cfgBaud = s.cfgBaud ∧
    (State.emit e s).cfgDeId = s.cfgDeId ∧
    (State.emit e s).cfgReId = s.cfgReId ∧
    (State.emit e s).de = s.de ∧
    (State.emit e s).re = s.re ∧
    (State.emit e s).seq = s.seq ∧
    (State.emit e s).reqSlave = s.reqSlave ∧
    (State.emit e s).reqFc = s.reqFc ∧
    (State.emit e s).reqAddr = s.reqAddr ∧
    (State.emit e s).reqCount = s.reqCount ∧
    (State.emit e s).reqValue = s.reqValue ∧
    (State.emit e s).reqBits = s.reqBits ∧
    (State.emit e s).reqRegs = s.reqRegs ∧
    (State.emit e s).txBuf = s.txBuf ∧
    (State.emit e s).txLen = s.txLen ∧
    (State.emit e s).txIdx = s.txIdx ∧
    (State.emit e s).rxBuf = s.rxBuf ∧
    (State.emit e s).expLen = s.expLen ∧
    (State.emit e s).rxCnt = s.rxCnt ∧
    (State.emit e s).crc = s.crc ∧
    (State.emit e s).status = s.status ∧
    (State.emit e s).errExp = s.errExp ∧
    (State.emit e s).errAct = s.errAct ∧
    (State.emit e s).resBits = s.resBits ∧
    (State.emit e s).resRegs = s.resRegs ∧
    (State.emit e s).resValid = s.resValid ∧
    (State.emit e s).params = s.params ∧
    (State.emit e s).rxQueue = s.rxQueue ∧
    (State.emit e s).openAns = s.openAns ∧
    (State.emit e s).flushAns = s.flushAns ∧
    (State.emit e s).gpioAns = s.gpioAns ∧
    (State.emit e s).configAns = s.configAns ∧
    (State.emit e s).writeAns = s.writeAns ∧
    (State.emit e s).readAns = s.readAns ∧
    (State.emit e s).free = s.free ∧
    (State.emit e s).answersLeft = s.answersLeft ∧
    (State.emit e s).pending = s.pending ∧
    (State.emit e s).control = s.control := by
  exact ⟨rfl, rfl, rfl, rfl, rfl, rfl, rfl, rfl, rfl, rfl, rfl, rfl, rfl, rfl, rfl, rfl, rfl, rfl, rfl, rfl,
    rfl, rfl, rfl, rfl, rfl, rfl, rfl, rfl, rfl, rfl, rfl, rfl, rfl, rfl, rfl, rfl, rfl, rfl, rfl, rfl,
    rfl, rfl⟩

@[simp] theorem State.setDE_sets (l : Level) (s : State) :
    (State.setDE l s).de = l ∧
    (State.setDE l s).trace = s.trace ++ [⟨.setDE l, s.seq, l, s.re, s.life⟩] := by
  exact ⟨rfl, rfl⟩

@[simp] theorem State.setDE_keeps (l : Level) (s : State) :
    (State.setDE l s).life = s.life ∧
    (State.setDE l s).serOpen = s.serOpen ∧
    (State.setDE l s).gpioOpen = s.gpioOpen ∧
    (State.setDE l s).cfgPort = s.cfgPort ∧
    (State.setDE l s).cfgBaud = s.cfgBaud ∧
    (State.setDE l s).cfgDeId = s.cfgDeId ∧
    (State.setDE l s).cfgReId = s.cfgReId ∧
    (State.setDE l s).re = s.re ∧
    (State.setDE l s).seq = s.seq ∧
    (State.setDE l s).reqSlave = s.reqSlave ∧
    (State.setDE l s).reqFc = s.reqFc ∧
    (State.setDE l s).reqAddr = s.reqAddr ∧
    (State.setDE l s).reqCount = s.reqCount ∧
    (State.setDE l s).reqValue = s.reqValue ∧
    (State.setDE l s).reqBits = s.reqBits ∧
    (State.setDE l s).reqRegs = s.reqRegs ∧
    (State.setDE l s).txBuf = s.txBuf ∧
    (State.setDE l s).txLen = s.txLen ∧
    (State.setDE l s).txIdx = s.txIdx ∧
    (State.setDE l s).rxBuf = s.rxBuf ∧
    (State.setDE l s).expLen = s.expLen ∧
    (State.setDE l s).rxCnt = s.rxCnt ∧
    (State.setDE l s).crc = s.crc ∧
    (State.setDE l s).status = s.status ∧
    (State.setDE l s).errExp = s.errExp ∧
    (State.setDE l s).errAct = s.errAct ∧
    (State.setDE l s).resBits = s.resBits ∧
    (State.setDE l s).resRegs = s.resRegs ∧
    (State.setDE l s).resValid = s.resValid ∧
    (State.setDE l s).params = s.params ∧
    (State.setDE l s).rxQueue = s.rxQueue ∧
    (State.setDE l s).openAns = s.openAns ∧
    (State.setDE l s).flushAns = s.flushAns ∧
    (State.setDE l s).gpioAns = s.gpioAns ∧
    (State.setDE l s).configAns = s.configAns ∧
    (State.setDE l s).writeAns = s.writeAns ∧
    (State.setDE l s).readAns = s.readAns ∧
    (State.setDE l s).free = s.free ∧
    (State.setDE l s).answersLeft = s.answersLeft ∧
    (State.setDE l s).pending = s.pending ∧
    (State.setDE l s).control = s.control := by
  exact ⟨rfl, rfl, rfl, rfl, rfl, rfl, rfl, rfl, rfl, rfl, rfl, rfl, rfl, rfl, rfl, rfl, rfl, rfl, rfl, rfl,
    rfl, rfl, rfl, rfl, rfl, rfl, rfl, rfl, rfl, rfl, rfl, rfl, rfl, rfl, rfl, rfl, rfl, rfl, rfl, rfl, rfl⟩

@[simp] theorem State.setRE_sets (l : Level) (s : State) :
    (State.setRE l s).re = l ∧
    (State.setRE l s).trace = s.trace ++ [⟨.setRE l, s.seq, s.de, l, s.life⟩] := by
  exact ⟨rfl, rfl⟩

@[simp] theorem State.setRE_keeps (l : Level) (s : State) :
    (State.setRE l s).life = s.life ∧
    (State.setRE l s).serOpen = s.serOpen ∧
    (State.setRE l s).gpioOpen = s.gpioOpen ∧
    (State.setRE l s).cfgPort = s.cfgPort ∧
    (State.setRE l s).cfgBaud = s.cfgBaud ∧
    (State.setRE l s).cfgDeId = s.cfgDeId ∧
    (State.setRE l s).cfgReId = s.cfgReId ∧
    (State.setRE l s).de = s.de ∧
    (State.setRE l s).seq = s.seq ∧
    (State.setRE l s).reqSlave = s.reqSlave ∧
    (State.setRE l s).reqFc = s.reqFc ∧
    (State.setRE l s).reqAddr = s.reqAddr ∧
    (State.setRE l s).reqCount = s.reqCount ∧
    (State.setRE l s).reqValue = s.reqValue ∧
    (State.setRE l s).reqBits = s.reqBits ∧
    (State.setRE l s).reqRegs = s.reqRegs ∧
    (State.setRE l s).txBuf = s.txBuf ∧
    (State.setRE l s).txLen = s.txLen ∧
    (State.setRE l s).txIdx = s.txIdx ∧
    (State.setRE l s).rxBuf = s.rxBuf ∧
    (State.setRE l s).expLen = s.expLen ∧
    (State.setRE l s).rxCnt = s.rxCnt ∧
    (State.setRE l s).crc = s.crc ∧
    (State.setRE l s).status = s.status ∧
    (State.setRE l s).errExp = s.errExp ∧
    (State.setRE l s).errAct = s.errAct ∧
    (State.setRE l s).resBits = s.resBits ∧
    (State.setRE l s).resRegs = s.resRegs ∧
    (State.setRE l s).resValid = s.resValid ∧
    (State.setRE l s).params = s.params ∧
    (State.setRE l s).rxQueue = s.rxQueue ∧
    (State.setRE l s).openAns = s.openAns ∧
    (State.setRE l s).flushAns = s.flushAns ∧
    (State.setRE l s).gpioAns = s.gpioAns ∧
    (State.setRE l s).configAns = s.configAns ∧
    (State.setRE l s).writeAns = s.writeAns ∧
    (State.setRE l s).readAns = s.readAns ∧
    (State.setRE l s).free = s.free ∧
    (State.setRE l s).answersLeft = s.answersLeft ∧
    (State.setRE l s).pending = s.pending ∧
    (State.setRE l s).control = s.control := by
  exact ⟨rfl, rfl, rfl, rfl, rfl, rfl, rfl, rfl, rfl, rfl, rfl, rfl, rfl, rfl, rfl, rfl, rfl, rfl, rfl, rfl,
    rfl, rfl, rfl, rfl, rfl, rfl, rfl, rfl, rfl, rfl, rfl, rfl, rfl, rfl, rfl, rfl, rfl, rfl, rfl, rfl, rfl⟩

@[simp] theorem State.delay_sets (p : DelayName) (s : State) :
    (State.delay p s).trace = s.trace ++ [⟨.delay p, s.seq, s.de, s.re, s.life⟩] := by
  rfl

@[simp] theorem State.delay_keeps (p : DelayName) (s : State) :
    (State.delay p s).life = s.life ∧
    (State.delay p s).serOpen = s.serOpen ∧
    (State.delay p s).gpioOpen = s.gpioOpen ∧
    (State.delay p s).cfgPort = s.cfgPort ∧
    (State.delay p s).cfgBaud = s.cfgBaud ∧
    (State.delay p s).cfgDeId = s.cfgDeId ∧
    (State.delay p s).cfgReId = s.cfgReId ∧
    (State.delay p s).de = s.de ∧
    (State.delay p s).re = s.re ∧
    (State.delay p s).seq = s.seq ∧
    (State.delay p s).reqSlave = s.reqSlave ∧
    (State.delay p s).reqFc = s.reqFc ∧
    (State.delay p s).reqAddr = s.reqAddr ∧
    (State.delay p s).reqCount = s.reqCount ∧
    (State.delay p s).reqValue = s.reqValue ∧
    (State.delay p s).reqBits = s.reqBits ∧
    (State.delay p s).reqRegs = s.reqRegs ∧
    (State.delay p s).txBuf = s.txBuf ∧
    (State.delay p s).txLen = s.txLen ∧
    (State.delay p s).txIdx = s.txIdx ∧
    (State.delay p s).rxBuf = s.rxBuf ∧
    (State.delay p s).expLen = s.expLen ∧
    (State.delay p s).rxCnt = s.rxCnt ∧
    (State.delay p s).crc = s.crc ∧
    (State.delay p s).status = s.status ∧
    (State.delay p s).errExp = s.errExp ∧
    (State.delay p s).errAct = s.errAct ∧
    (State.delay p s).resBits = s.resBits ∧
    (State.delay p s).resRegs = s.resRegs ∧
    (State.delay p s).resValid = s.resValid ∧
    (State.delay p s).params = s.params ∧
    (State.delay p s).rxQueue = s.rxQueue ∧
    (State.delay p s).openAns = s.openAns ∧
    (State.delay p s).flushAns = s.flushAns ∧
    (State.delay p s).gpioAns = s.gpioAns ∧
    (State.delay p s).configAns = s.configAns ∧
    (State.delay p s).writeAns = s.writeAns ∧
    (State.delay p s).readAns = s.readAns ∧
    (State.delay p s).free = s.free ∧
    (State.delay p s).answersLeft = s.answersLeft ∧
    (State.delay p s).pending = s.pending ∧
    (State.delay p s).control = s.control := by
  exact ⟨rfl, rfl, rfl, rfl, rfl, rfl, rfl, rfl, rfl, rfl, rfl, rfl, rfl, rfl, rfl, rfl, rfl, rfl, rfl, rfl,
    rfl, rfl, rfl, rfl, rfl, rfl, rfl, rfl, rfl, rfl, rfl, rfl, rfl, rfl, rfl, rfl, rfl, rfl, rfl, rfl,
    rfl, rfl⟩

@[simp] theorem State.goto_sets (q : Seq) (s : State) :
    (State.goto q s).seq = q := by
  rfl

@[simp] theorem State.goto_keeps (q : Seq) (s : State) :
    (State.goto q s).life = s.life ∧
    (State.goto q s).serOpen = s.serOpen ∧
    (State.goto q s).gpioOpen = s.gpioOpen ∧
    (State.goto q s).cfgPort = s.cfgPort ∧
    (State.goto q s).cfgBaud = s.cfgBaud ∧
    (State.goto q s).cfgDeId = s.cfgDeId ∧
    (State.goto q s).cfgReId = s.cfgReId ∧
    (State.goto q s).de = s.de ∧
    (State.goto q s).re = s.re ∧
    (State.goto q s).reqSlave = s.reqSlave ∧
    (State.goto q s).reqFc = s.reqFc ∧
    (State.goto q s).reqAddr = s.reqAddr ∧
    (State.goto q s).reqCount = s.reqCount ∧
    (State.goto q s).reqValue = s.reqValue ∧
    (State.goto q s).reqBits = s.reqBits ∧
    (State.goto q s).reqRegs = s.reqRegs ∧
    (State.goto q s).txBuf = s.txBuf ∧
    (State.goto q s).txLen = s.txLen ∧
    (State.goto q s).txIdx = s.txIdx ∧
    (State.goto q s).rxBuf = s.rxBuf ∧
    (State.goto q s).expLen = s.expLen ∧
    (State.goto q s).rxCnt = s.rxCnt ∧
    (State.goto q s).crc = s.crc ∧
    (State.goto q s).status = s.status ∧
    (State.goto q s).errExp = s.errExp ∧
    (State.goto q s).errAct = s.errAct ∧
    (State.goto q s).resBits = s.resBits ∧
    (State.goto q s).resRegs = s.resRegs ∧
    (State.goto q s).resValid = s.resValid ∧
    (State.goto q s).params = s.params ∧
    (State.goto q s).rxQueue = s.rxQueue ∧
    (State.goto q s).openAns = s.openAns ∧
    (State.goto q s).flushAns = s.flushAns ∧
    (State.goto q s).gpioAns = s.gpioAns ∧
    (State.goto q s).configAns = s.configAns ∧
    (State.goto q s).writeAns = s.writeAns ∧
    (State.goto q s).readAns = s.readAns ∧
    (State.goto q s).free = s.free ∧
    (State.goto q s).answersLeft = s.answersLeft ∧
    (State.goto q s).trace = s.trace ∧
    (State.goto q s).pending = s.pending ∧
    (State.goto q s).control = s.control := by
  exact ⟨rfl, rfl, rfl, rfl, rfl, rfl, rfl, rfl, rfl, rfl, rfl, rfl, rfl, rfl, rfl, rfl, rfl, rfl, rfl, rfl,
    rfl, rfl, rfl, rfl, rfl, rfl, rfl, rfl, rfl, rfl, rfl, rfl, rfl, rfl, rfl, rfl, rfl, rfl, rfl, rfl,
    rfl, rfl⟩

@[simp] theorem State.openedStream_sets (p b : Nat) (s : State) :
    (State.openedStream p b s).openAns = s.openAns.tail ∧
    (State.openedStream p b s).free = s.free + 1 ∧
    (State.openedStream p b s).trace = s.trace ++ [⟨.openStream p b s.openAnswer, s.seq, s.de, s.re, s.life⟩] := by
  exact ⟨rfl, rfl, rfl⟩

@[simp] theorem State.openedStream_keeps (p b : Nat) (s : State) :
    (State.openedStream p b s).life = s.life ∧
    (State.openedStream p b s).serOpen = s.serOpen ∧
    (State.openedStream p b s).gpioOpen = s.gpioOpen ∧
    (State.openedStream p b s).cfgPort = s.cfgPort ∧
    (State.openedStream p b s).cfgBaud = s.cfgBaud ∧
    (State.openedStream p b s).cfgDeId = s.cfgDeId ∧
    (State.openedStream p b s).cfgReId = s.cfgReId ∧
    (State.openedStream p b s).de = s.de ∧
    (State.openedStream p b s).re = s.re ∧
    (State.openedStream p b s).seq = s.seq ∧
    (State.openedStream p b s).reqSlave = s.reqSlave ∧
    (State.openedStream p b s).reqFc = s.reqFc ∧
    (State.openedStream p b s).reqAddr = s.reqAddr ∧
    (State.openedStream p b s).reqCount = s.reqCount ∧
    (State.openedStream p b s).reqValue = s.reqValue ∧
    (State.openedStream p b s).reqBits = s.reqBits ∧
    (State.openedStream p b s).reqRegs = s.reqRegs ∧
    (State.openedStream p b s).txBuf = s.txBuf ∧
    (State.openedStream p b s).txLen = s.txLen ∧
    (State.openedStream p b s).txIdx = s.txIdx ∧
    (State.openedStream p b s).rxBuf = s.rxBuf ∧
    (State.openedStream p b s).expLen = s.expLen ∧
    (State.openedStream p b s).rxCnt = s.rxCnt ∧
    (State.openedStream p b s).crc = s.crc ∧
    (State.openedStream p b s).status = s.status ∧
    (State.openedStream p b s).errExp = s.errExp ∧
    (State.openedStream p b s).errAct = s.errAct ∧
    (State.openedStream p b s).resBits = s.resBits ∧
    (State.openedStream p b s).resRegs = s.resRegs ∧
    (State.openedStream p b s).resValid = s.resValid ∧
    (State.openedStream p b s).params = s.params ∧
    (State.openedStream p b s).rxQueue = s.rxQueue ∧
    (State.openedStream p b s).flushAns = s.flushAns ∧
    (State.openedStream p b s).gpioAns = s.gpioAns ∧
    (State.openedStream p b s).configAns = s.configAns ∧
    (State.openedStream p b s).writeAns = s.writeAns ∧
    (State.openedStream p b s).readAns = s.readAns ∧
    (State.openedStream p b s).answersLeft = s.answersLeft ∧
    (State.openedStream p b s).pending = s.pending ∧
    (State.openedStream p b s).control = s.control := by
  exact ⟨rfl, rfl, rfl, rfl, rfl, rfl, rfl, rfl, rfl, rfl, rfl, rfl, rfl, rfl, rfl, rfl, rfl, rfl, rfl, rfl,
    rfl, rfl, rfl, rfl, rfl, rfl, rfl, rfl, rfl, rfl, rfl, rfl, rfl, rfl, rfl, rfl, rfl, rfl, rfl, rfl⟩

@[simp] theorem State.flushed_sets (s : State) :
    (State.flushed s).flushAns = s.flushAns.tail ∧
    (State.flushed s).free = s.free + 1 ∧
    (State.flushed s).rxQueue = flushedQueue s.flushAnswer s.rxQueue ∧
    (State.flushed s).trace = s.trace ++ [⟨.flush s.flushAnswer, s.seq, s.de, s.re, s.life⟩] := by
  exact ⟨rfl, rfl, rfl, rfl⟩

@[simp] theorem State.flushed_keeps (s : State) :
    (State.flushed s).life = s.life ∧
    (State.flushed s).serOpen = s.serOpen ∧
    (State.flushed s).gpioOpen = s.gpioOpen ∧
    (State.flushed s).cfgPort = s.cfgPort ∧
    (State.flushed s).cfgBaud = s.cfgBaud ∧
    (State.flushed s).cfgDeId = s.cfgDeId ∧
    (State.flushed s).cfgReId = s.cfgReId ∧
    (State.flushed s).de = s.de ∧
    (State.flushed s).re = s.re ∧
    (State.flushed s).seq = s.seq ∧
    (State.flushed s).reqSlave = s.reqSlave ∧
    (State.flushed s).reqFc = s.reqFc ∧
    (State.flushed s).reqAddr = s.reqAddr ∧
    (State.flushed s).reqCount = s.reqCount ∧
    (State.flushed s).reqValue = s.reqValue ∧
    (State.flushed s).reqBits = s.reqBits ∧
    (State.flushed s).reqRegs = s.reqRegs ∧
    (State.flushed s).txBuf = s.txBuf ∧
    (State.flushed s).txLen = s.txLen ∧
    (State.flushed s).txIdx = s.txIdx ∧
    (State.flushed s).rxBuf = s.rxBuf ∧
    (State.flushed s).expLen = s.expLen ∧
    (State.flushed s).rxCnt = s.rxCnt ∧
    (State.flushed s).crc = s.crc ∧
    (State.flushed s).status = s.status ∧
    (State.flushed s).errExp = s.errExp ∧
    (State.flushed s).errAct = s.errAct ∧
    (State.flushed s).resBits = s.resBits ∧
    (State.flushed s).resRegs = s.resRegs ∧
    (State.flushed s).resValid = s.resValid ∧
    (State.flushed s).params = s.params ∧
    (State.flushed s).openAns = s.openAns ∧
    (State.flushed s).gpioAns = s.gpioAns ∧
    (State.flushed s).configAns = s.configAns ∧
    (State.flushed s).writeAns = s.writeAns ∧
    (State.flushed s).readAns = s.readAns ∧
    (State.flushed s).answersLeft = s.answersLeft ∧
    (State.flushed s).pending = s.pending ∧
    (State.flushed s).control = s.control := by
  exact ⟨rfl, rfl, rfl, rfl, rfl, rfl, rfl, rfl, rfl, rfl, rfl, rfl, rfl, rfl, rfl, rfl, rfl, rfl, rfl, rfl,
    rfl, rfl, rfl, rfl, rfl, rfl, rfl, rfl, rfl, rfl, rfl, rfl, rfl, rfl, rfl, rfl, rfl, rfl, rfl⟩

@[simp] theorem State.closeStream_sets (s : State) :
    (State.closeStream s).trace = s.trace ++ [⟨.closeStream, s.seq, s.de, s.re, s.life⟩] := by
  rfl

@[simp] theorem State.closeStream_keeps (s : State) :
    (State.closeStream s).life = s.life ∧
    (State.closeStream s).serOpen = s.serOpen ∧
    (State.closeStream s).gpioOpen = s.gpioOpen ∧
    (State.closeStream s).cfgPort = s.cfgPort ∧
    (State.closeStream s).cfgBaud = s.cfgBaud ∧
    (State.closeStream s).cfgDeId = s.cfgDeId ∧
    (State.closeStream s).cfgReId = s.cfgReId ∧
    (State.closeStream s).de = s.de ∧
    (State.closeStream s).re = s.re ∧
    (State.closeStream s).seq = s.seq ∧
    (State.closeStream s).reqSlave = s.reqSlave ∧
    (State.closeStream s).reqFc = s.reqFc ∧
    (State.closeStream s).reqAddr = s.reqAddr ∧
    (State.closeStream s).reqCount = s.reqCount ∧
    (State.closeStream s).reqValue = s.reqValue ∧
    (State.closeStream s).reqBits = s.reqBits ∧
    (State.closeStream s).reqRegs = s.reqRegs ∧
    (State.closeStream s).txBuf = s.txBuf ∧
    (State.closeStream s).txLen = s.txLen ∧
    (State.closeStream s).txIdx = s.txIdx ∧
    (State.closeStream s).rxBuf = s.rxBuf ∧
    (State.closeStream s).expLen = s.expLen ∧
    (State.closeStream s).rxCnt = s.rxCnt ∧
    (State.closeStream s).crc = s.crc ∧
    (State.closeStream s).status = s.status ∧
    (State.closeStream s).errExp = s.errExp ∧
    (State.closeStream s).errAct = s.errAct ∧
    (State.closeStream s).resBits = s.resBits ∧
    (State.closeStream s).resRegs = s.resRegs ∧
    (State.closeStream s).resValid = s.resValid ∧
    (State.closeStream s).params = s.params ∧
    (State.closeStream s).rxQueue = s.rxQueue ∧
    (State.closeStream s).openAns = s.openAns ∧
    (State.closeStream s).flushAns = s.flushAns ∧
    (State.closeStream s).gpioAns = s.gpioAns ∧
    (State.closeStream s).configAns = s.configAns ∧
    (State.closeStream s).writeAns = s.writeAns ∧
    (State.closeStream s).readAns = s.readAns ∧
    (State.closeStream s).free = s.free ∧
    (State.closeStream s).answersLeft = s.answersLeft ∧
    (State.closeStream s).pending = s.pending ∧
    (State.closeStream s).control = s.control := by
  exact ⟨rfl, rfl, rfl, rfl, rfl, rfl, rfl, rfl, rfl, rfl, rfl, rfl, rfl, rfl, rfl, rfl, rfl, rfl, rfl, rfl,
    rfl, rfl, rfl, rfl, rfl, rfl, rfl, rfl, rfl, rfl, rfl, rfl, rfl, rfl, rfl, rfl, rfl, rfl, rfl, rfl,
    rfl, rfl⟩

@[simp] theorem State.wrote_sets (b : Byte) (s : State) :
    (State.wrote b s).writeAns = s.writeAns.tail ∧
    (State.wrote b s).free = s.free + 1 ∧
    (State.wrote b s).trace = s.trace ++ [⟨.write b s.writeAnswer, s.seq, s.de, s.re, s.life⟩] := by
  exact ⟨rfl, rfl, rfl⟩

@[simp] theorem State.wrote_keeps (b : Byte) (s : State) :
    (State.wrote b s).life = s.life ∧
    (State.wrote b s).serOpen = s.serOpen ∧
    (State.wrote b s).gpioOpen = s.gpioOpen ∧
    (State.wrote b s).cfgPort = s.cfgPort ∧
    (State.wrote b s).cfgBaud = s.cfgBaud ∧
    (State.wrote b s).cfgDeId = s.cfgDeId ∧
    (State.wrote b s).cfgReId = s.cfgReId ∧
    (State.wrote b s).de = s.de ∧
    (State.wrote b s).re = s.re ∧
    (State.wrote b s).seq = s.seq ∧
    (State.wrote b s).reqSlave = s.reqSlave ∧
    (State.wrote b s).reqFc = s.reqFc ∧
    (State.wrote b s).reqAddr = s.reqAddr ∧
    (State.wrote b s).reqCount = s.reqCount ∧
    (State.wrote b s).reqValue = s.reqValue ∧
    (State.wrote b s).reqBits = s.reqBits ∧
    (State.wrote b s).reqRegs = s.reqRegs ∧
    (State.wrote b s).txBuf = s.txBuf ∧
    (State.wrote b s).txLen = s.txLen ∧
    (State.wrote b s).txIdx = s.txIdx ∧
    (State.wrote b s).rxBuf = s.rxBuf ∧
    (State.wrote b s).expLen = s.expLen ∧
    (State.wrote b s).rxCnt = s.rxCnt ∧
    (State.wrote b s).crc = s.crc ∧
    (State.wrote b s).status = s.status ∧
    (State.wrote b s).errExp = s.errExp ∧
    (State.wrote b s).errAct = s.errAct ∧
    (State.wrote b s).resBits = s.resBits ∧
    (State.wrote b s).resRegs = s.resRegs ∧
    (State.wrote b s).resValid = s.resValid ∧
    (State.wrote b s).params = s.params ∧
    (State.wrote b s).rxQueue = s.rxQueue ∧
    (State.wrote b s).openAns = s.openAns ∧
    (State.wrote b s).flushAns = s.flushAns ∧
    (State.wrote b s).gpioAns = s.gpioAns ∧
    (State.wrote b s).configAns = s.configAns ∧
    (State.wrote b s).readAns = s.readAns ∧
    (State.wrote b s).answersLeft = s.answersLeft ∧
    (State.wrote b s).pending = s.pending ∧
    (State.wrote b s).control = s.control := by
  exact ⟨rfl, rfl, rfl, rfl, rfl, rfl, rfl, rfl, rfl, rfl, rfl, rfl, rfl, rfl, rfl, rfl, rfl, rfl, rfl, rfl,
    rfl, rfl, rfl, rfl, rfl, rfl, rfl, rfl, rfl, rfl, rfl, rfl, rfl, rfl, rfl, rfl, rfl, rfl, rfl, rfl⟩

@[simp] theorem State.didRead_sets (n : Nat) (s : State) :
    (State.didRead n s).readAns = s.readAns.tail ∧
    (State.didRead n s).free = s.free + 1 ∧
    (State.didRead n s).rxQueue = queueAfter n s.rxQueue s.arrival ∧
    (State.didRead n s).trace = s.trace ++ [⟨.read n (s.readAnswer n), s.seq, s.de, s.re, s.life⟩] := by
  exact ⟨rfl, rfl, rfl, rfl⟩

@[simp] theorem State.didRead_keeps (n : Nat) (s : State) :
    (State.didRead n s).life = s.life ∧
    (State.didRead n s).serOpen = s.serOpen ∧
    (State.didRead n s).gpioOpen = s.gpioOpen ∧
    (State.didRead n s).cfgPort = s.cfgPort ∧
    (State.didRead n s).cfgBaud = s.cfgBaud ∧
    (State.didRead n s).cfgDeId = s.cfgDeId ∧
    (State.didRead n s).cfgReId = s.cfgReId ∧
    (State.didRead n s).de = s.de ∧
    (State.didRead n s).re = s.re ∧
    (State.didRead n s).seq = s.seq ∧
    (State.didRead n s).reqSlave = s.reqSlave ∧
    (State.didRead n s).reqFc = s.reqFc ∧
    (State.didRead n s).reqAddr = s.reqAddr ∧
    (State.didRead n s).reqCount = s.reqCount ∧
    (State.didRead n s).reqValue = s.reqValue ∧
    (State.didRead n s).reqBits = s.reqBits ∧
    (State.didRead n s).reqRegs = s.reqRegs ∧
    (State.didRead n s).txBuf = s.txBuf ∧
    (State.didRead n s).txLen = s.txLen ∧
    (State.didRead n s).txIdx = s.txIdx ∧
    (State.didRead n s).rxBuf = s.rxBuf ∧
    (State.didRead n s).expLen = s.expLen ∧
    (State.didRead n s).rxCnt = s.rxCnt ∧
    (State.didRead n s).crc = s.crc ∧
    (State.didRead n s).status = s.status ∧
    (State.didRead n s).errExp = s.errExp ∧
    (State.didRead n s).errAct = s.errAct ∧
    (State.didRead n s).resBits = s.resBits ∧
    (State.didRead n s).resRegs = s.resRegs ∧
    (State.didRead n s).resValid = s.resValid ∧
    (State.didRead n s).params = s.params ∧
    (State.didRead n s).openAns = s.openAns ∧
    (State.didRead n s).flushAns = s.flushAns ∧
    (State.didRead n s).gpioAns = s.gpioAns ∧
    (State.didRead n s).configAns = s.configAns ∧
    (State.didRead n s).writeAns = s.writeAns ∧
    (State.didRead n s).answersLeft = s.answersLeft ∧
    (State.didRead n s).pending = s.pending ∧
    (State.didRead n s).control = s.control := by
  exact ⟨rfl, rfl, rfl, rfl, rfl, rfl, rfl, rfl, rfl, rfl, rfl, rfl, rfl, rfl, rfl, rfl, rfl, rfl, rfl, rfl,
    rfl, rfl, rfl, rfl, rfl, rfl, rfl, rfl, rfl, rfl, rfl, rfl, rfl, rfl, rfl, rfl, rfl, rfl, rfl⟩

@[simp] theorem State.openedGpio_sets (s : State) :
    (State.openedGpio s).gpioAns = s.gpioAns.tail ∧
    (State.openedGpio s).free = s.free + 1 ∧
    (State.openedGpio s).trace = s.trace ++ [⟨.openGpio s.gpioAnswer, s.seq, s.de, s.re, s.life⟩] := by
  exact ⟨rfl, rfl, rfl⟩

@[simp] theorem State.openedGpio_keeps (s : State) :
    (State.openedGpio s).life = s.life ∧
    (State.openedGpio s).serOpen = s.serOpen ∧
    (State.openedGpio s).gpioOpen = s.gpioOpen ∧
    (State.openedGpio s).cfgPort = s.cfgPort ∧
    (State.openedGpio s).cfgBaud = s.cfgBaud ∧
    (State.openedGpio s).cfgDeId = s.cfgDeId ∧
    (State.openedGpio s).cfgReId = s.cfgReId ∧
    (State.openedGpio s).de = s.de ∧
    (State.openedGpio s).re = s.re ∧
    (State.openedGpio s).seq = s.seq ∧
    (State.openedGpio s).reqSlave = s.reqSlave ∧
    (State.openedGpio s).reqFc = s.reqFc ∧
    (State.openedGpio s).reqAddr = s.reqAddr ∧
    (State.openedGpio s).reqCount = s.reqCount ∧
    (State.openedGpio s).reqValue = s.reqValue ∧
    (State.openedGpio s).reqBits = s.reqBits ∧
    (State.openedGpio s).reqRegs = s.reqRegs ∧
    (State.openedGpio s).txBuf = s.txBuf ∧
    (State.openedGpio s).txLen = s.txLen ∧
    (State.openedGpio s).txIdx = s.txIdx ∧
    (State.openedGpio s).rxBuf = s.rxBuf ∧
    (State.openedGpio s).expLen = s.expLen ∧
    (State.openedGpio s).rxCnt = s.rxCnt ∧
    (State.openedGpio s).crc = s.crc ∧
    (State.openedGpio s).status = s.status ∧
    (State.openedGpio s).errExp = s.errExp ∧
    (State.openedGpio s).errAct = s.errAct ∧
    (State.openedGpio s).resBits = s.resBits ∧
    (State.openedGpio s).resRegs = s.resRegs ∧
    (State.openedGpio s).resValid = s.resValid ∧
    (State.openedGpio s).params = s.params ∧
    (State.openedGpio s).rxQueue = s.rxQueue ∧
    (State.openedGpio s).openAns = s.openAns ∧
    (State.openedGpio s).flushAns = s.flushAns ∧
    (State.openedGpio s).configAns = s.configAns ∧
    (State.openedGpio s).writeAns = s.writeAns ∧
    (State.openedGpio s).readAns = s.readAns ∧
    (State.openedGpio s).answersLeft = s.answersLeft ∧
    (State.openedGpio s).pending = s.pending ∧
    (State.openedGpio s).control = s.control := by
  exact ⟨rfl, rfl, rfl, rfl, rfl, rfl, rfl, rfl, rfl, rfl, rfl, rfl, rfl, rfl, rfl, rfl, rfl, rfl, rfl, rfl,
    rfl, rfl, rfl, rfl, rfl, rfl, rfl, rfl, rfl, rfl, rfl, rfl, rfl, rfl, rfl, rfl, rfl, rfl, rfl, rfl⟩

@[simp] theorem State.closeGpio_sets (s : State) :
    (State.closeGpio s).trace = s.trace ++ [⟨.closeGpio, s.seq, s.de, s.re, s.life⟩] := by
  rfl

@[simp] theorem State.closeGpio_keeps (s : State) :
    (State.closeGpio s).life = s.life ∧
    (State.closeGpio s).serOpen = s.serOpen ∧
    (State.closeGpio s).gpioOpen = s.gpioOpen ∧
    (State.closeGpio s).cfgPort = s.cfgPort ∧
    (State.closeGpio s).cfgBaud = s.cfgBaud ∧
    (State.closeGpio s).cfgDeId = s.cfgDeId ∧
    (State.closeGpio s).cfgReId = s.cfgReId ∧
    (State.closeGpio s).de = s.de ∧
    (State.closeGpio s).re = s.re ∧
    (State.closeGpio s).seq = s.seq ∧
    (State.closeGpio s).reqSlave = s.reqSlave ∧
    (State.closeGpio s).reqFc = s.reqFc ∧
    (State.closeGpio s).reqAddr = s.reqAddr ∧
    (State.closeGpio s).reqCount = s.reqCount ∧
    (State.closeGpio s).reqValue = s.reqValue ∧
    (State.closeGpio s).reqBits = s.reqBits ∧
    (State.closeGpio s).reqRegs = s.reqRegs ∧
    (State.closeGpio s).txBuf = s.txBuf ∧
    (State.closeGpio s).txLen = s.txLen ∧
    (State.closeGpio s).txIdx = s.txIdx ∧
    (State.closeGpio s).rxBuf = s.rxBuf ∧
    (State.closeGpio s).expLen = s.expLen ∧
    (State.closeGpio s).rxCnt = s.rxCnt ∧
    (State.closeGpio s).crc = s.crc ∧
    (State.closeGpio s).status = s.status ∧
    (State.closeGpio s).errExp = s.errExp ∧
    (State.closeGpio s).errAct = s.errAct ∧
    (State.closeGpio s).resBits = s.resBits ∧
    (State.closeGpio s).resRegs = s.resRegs ∧
    (State.closeGpio s).resValid = s.resValid ∧
    (State.closeGpio s).params = s.params ∧
    (State.closeGpio s).rxQueue = s.rxQueue ∧
    (State.closeGpio s).openAns = s.openAns ∧
    (State.closeGpio s).flushAns = s.flushAns ∧
    (State.closeGpio s).gpioAns = s.gpioAns ∧
    (State.closeGpio s).configAns = s.configAns ∧
    (State.closeGpio s).writeAns = s.writeAns ∧
    (State.closeGpio s).readAns = s.readAns ∧
    (State.closeGpio s).free = s.free ∧
    (State.closeGpio s).answersLeft = s.answersLeft ∧
    (State.closeGpio s).pending = s.pending ∧
    (State.closeGpio s).control = s.control := by
  exact ⟨rfl, rfl, rfl, rfl, rfl, rfl, rfl, rfl, rfl, rfl, rfl, rfl, rfl, rfl, rfl, rfl, rfl, rfl, rfl, rfl,
    rfl, rfl, rfl, rfl, rfl, rfl, rfl, rfl, rfl, rfl, rfl, rfl, rfl, rfl, rfl, rfl, rfl, rfl, rfl, rfl,
    rfl, rfl⟩

@[simp] theorem State.configured_sets (id : Nat) (s : State) :
    (State.configured id s).configAns = s.configAns.tail ∧
    (State.configured id s).free = s.free + 1 ∧
    (State.configured id s).trace = s.trace ++ [⟨.configOutput id s.configAnswer, s.seq, s.de, s.re, s.life⟩] := by
  exact ⟨rfl, rfl, rfl⟩

@[simp] theorem State.configured_keeps (id : Nat) (s : State) :
    (State.configured id s).life = s.life ∧
    (State.configured id s).serOpen = s.serOpen ∧
    (State.configured id s).gpioOpen = s.gpioOpen ∧
    (State.configured id s).cfgPort = s.cfgPort ∧
    (State.configured id s).cfgBaud = s.cfgBaud ∧
    (State.configured id s).cfgDeId = s.cfgDeId ∧
    (State.configured id s).cfgReId = s.cfgReId ∧
    (State.configured id s).de = s.de ∧
    (State.configured id s).re = s.re ∧
    (State.configured id s).seq = s.seq ∧
    (State.configured id s).reqSlave = s.reqSlave ∧
    (State.configured id s).reqFc = s.reqFc ∧
    (State.configured id s).reqAddr = s.reqAddr ∧
    (State.configured id s).reqCount = s.reqCount ∧
    (State.configured id s).reqValue = s.reqValue ∧
    (State.configured id s).reqBits = s.reqBits ∧
    (State.configured id s).reqRegs = s.reqRegs ∧
    (State.configured id s).txBuf = s.txBuf ∧
    (State.configured id s).txLen = s.txLen ∧
    (State.configured id s).txIdx = s.txIdx ∧
    (State.configured id s).rxBuf = s.rxBuf ∧
    (State.configured id s).expLen = s.expLen ∧
    (State.configured id s).rxCnt = s.rxCnt ∧
    (State.configured id s).crc = s.crc ∧
    (State.configured id s).status = s.status ∧
    (State.configured id s).errExp = s.errExp ∧
    (State.configured id s).errAct = s.errAct ∧
    (State.configured id s).resBits = s.resBits ∧
    (State.configured id s).resRegs = s.resRegs ∧
    (State.configured id s).resValid = s.resValid ∧
    (State.configured id s).params = s.params ∧
    (State.configured id s).rxQueue = s.rxQueue ∧
    (State.configured id s).openAns = s.openAns ∧
    (State.configured id s).flushAns = s.flushAns ∧
    (State.configured id s).gpioAns = s.gpioAns ∧
    (State.configured id s).writeAns = s.writeAns ∧
    (State.configured id s).readAns = s.readAns ∧
    (State.configured id s).answersLeft = s.answersLeft ∧
    (State.configured id s).pending = s.pending ∧
    (State.configured id s).control = s.control := by
  exact ⟨rfl, rfl, rfl, rfl, rfl, rfl, rfl, rfl, rfl, rfl, rfl, rfl, rfl, rfl, rfl, rfl, rfl, rfl, rfl, rfl,
    rfl, rfl, rfl, rfl, rfl, rfl, rfl, rfl, rfl, rfl, rfl, rfl, rfl, rfl, rfl, rfl, rfl, rfl, rfl, rfl⟩

@[simp] theorem State.linesReleased_sets (s : State) :
    (State.linesReleased s).de = Config.freeLevel s.free ∧
    (State.linesReleased s).re = Config.freeLevel (s.free + 1) ∧
    (State.linesReleased s).free = s.free + 2 := by
  exact ⟨rfl, rfl, rfl⟩

@[simp] theorem State.linesReleased_keeps (s : State) :
    (State.linesReleased s).life = s.life ∧
    (State.linesReleased s).serOpen = s.serOpen ∧
    (State.linesReleased s).gpioOpen = s.gpioOpen ∧
    (State.linesReleased s).cfgPort = s.cfgPort ∧
    (State.linesReleased s).cfgBaud = s.cfgBaud ∧
    (State.linesReleased s).cfgDeId = s.cfgDeId ∧
    (State.linesReleased s).cfgReId = s.cfgReId ∧
    (State.linesReleased s).seq = s.seq ∧
    (State.linesReleased s).reqSlave = s.reqSlave ∧
    (State.linesReleased s).reqFc = s.reqFc ∧
    (State.linesReleased s).reqAddr = s.reqAddr ∧
    (State.linesReleased s).reqCount = s.reqCount ∧
    (State.linesReleased s).reqValue = s.reqValue ∧
    (State.linesReleased s).reqBits = s.reqBits ∧
    (State.linesReleased s).reqRegs = s.reqRegs ∧
    (State.linesReleased s).txBuf = s.txBuf ∧
    (State.linesReleased s).txLen = s.txLen ∧
    (State.linesReleased s).txIdx = s.txIdx ∧
    (State.linesReleased s).rxBuf = s.rxBuf ∧
    (State.linesReleased s).expLen = s.expLen ∧
    (State.linesReleased s).rxCnt = s.rxCnt ∧
    (State.linesReleased s).crc = s.crc ∧
    (State.linesReleased s).status = s.status ∧
    (State.linesReleased s).errExp = s.errExp ∧
    (State.linesReleased s).errAct = s.errAct ∧
    (State.linesReleased s).resBits = s.resBits ∧
    (State.linesReleased s).resRegs = s.resRegs ∧
    (State.linesReleased s).resValid = s.resValid ∧
    (State.linesReleased s).params = s.params ∧
    (State.linesReleased s).rxQueue = s.rxQueue ∧
    (State.linesReleased s).openAns = s.openAns ∧
    (State.linesReleased s).flushAns = s.flushAns ∧
    (State.linesReleased s).gpioAns = s.gpioAns ∧
    (State.linesReleased s).configAns = s.configAns ∧
    (State.linesReleased s).writeAns = s.writeAns ∧
    (State.linesReleased s).readAns = s.readAns ∧
    (State.linesReleased s).answersLeft = s.answersLeft ∧
    (State.linesReleased s).trace = s.trace ∧
    (State.linesReleased s).pending = s.pending ∧
    (State.linesReleased s).control = s.control := by
  exact ⟨rfl, rfl, rfl, rfl, rfl, rfl, rfl, rfl, rfl, rfl, rfl, rfl, rfl, rfl, rfl, rfl, rfl, rfl, rfl, rfl,
    rfl, rfl, rfl, rfl, rfl, rfl, rfl, rfl, rfl, rfl, rfl, rfl, rfl, rfl, rfl, rfl, rfl, rfl, rfl, rfl⟩

@[simp] theorem State.raise_sets (k : Status) (x a : Nat) (s : State) :
    (State.raise k x a s).status = k ∧
    (State.raise k x a s).errExp = x ∧
    (State.raise k x a s).errAct = a ∧
    (State.raise k x a s).resValid = .nothing := by
  exact ⟨rfl, rfl, rfl, rfl⟩

@[simp] theorem State.raise_keeps (k : Status) (x a : Nat) (s : State) :
    (State.raise k x a s).life = s.life ∧
    (State.raise k x a s).serOpen = s.serOpen ∧
    (State.raise k x a s).gpioOpen = s.gpioOpen ∧
    (State.raise k x a s).cfgPort = s.cfgPort ∧
    (State.raise k x a s).cfgBaud = s.cfgBaud ∧
    (State.raise k x a s).cfgDeId = s.cfgDeId ∧
    (State.raise k x a s).cfgReId = s.cfgReId ∧
    (State.raise k x a s).de = s.de ∧
    (State.raise k x a s).re = s.re ∧
    (State.raise k x a s).seq = s.seq ∧
    (State.raise k x a s).reqSlave = s.reqSlave ∧
    (State.raise k x a s).reqFc = s.reqFc ∧
    (State.raise k x a s).reqAddr = s.reqAddr ∧
    (State.raise k x a s).reqCount = s.reqCount ∧
    (State.raise k x a s).reqValue = s.reqValue ∧
    (State.raise k x a s).reqBits = s.reqBits ∧
    (State.raise k x a s).reqRegs = s.reqRegs ∧
    (State.raise k x a s).txBuf = s.txBuf ∧
    (State.raise k x a s).txLen = s.txLen ∧
    (State.raise k x a s).txIdx = s.txIdx ∧
    (State.raise k x a s).rxBuf = s.rxBuf ∧
    (State.raise k x a s).expLen = s.expLen ∧
    (State.raise k x a s).rxCnt = s.rxCnt ∧
    (State.raise k x a s).crc = s.crc ∧
    (State.raise k x a s).resBits = s.resBits ∧
    (State.raise k x a s).resRegs = s.resRegs ∧
    (State.raise k x a s).params = s.params ∧
    (State.raise k x a s).rxQueue = s.rxQueue ∧
    (State.raise k x a s).openAns = s.openAns ∧
    (State.raise k x a s).flushAns = s.flushAns ∧
    (State.raise k x a s).gpioAns = s.gpioAns ∧
    (State.raise k x a s).configAns = s.configAns ∧
    (State.raise k x a s).writeAns = s.writeAns ∧
    (State.raise k x a s).readAns = s.readAns ∧
    (State.raise k x a s).free = s.free ∧
    (State.raise k x a s).answersLeft = s.answersLeft ∧
    (State.raise k x a s).trace = s.trace ∧
    (State.raise k x a s).pending = s.pending ∧
    (State.raise k x a s).control = s.control := by
  exact ⟨rfl, rfl, rfl, rfl, rfl, rfl, rfl, rfl, rfl, rfl, rfl, rfl, rfl, rfl, rfl, rfl, rfl, rfl, rfl, rfl,
    rfl, rfl, rfl, rfl, rfl, rfl, rfl, rfl, rfl, rfl, rfl, rfl, rfl, rfl, rfl, rfl, rfl, rfl, rfl⟩

@[simp] theorem State.succeed_sets (v : ResultKind) (s : State) :
    (State.succeed v s).status = .ok ∧
    (State.succeed v s).resValid = v := by
  exact ⟨rfl, rfl⟩

@[simp] theorem State.succeed_keeps (v : ResultKind) (s : State) :
    (State.succeed v s).life = s.life ∧
    (State.succeed v s).serOpen = s.serOpen ∧
    (State.succeed v s).gpioOpen = s.gpioOpen ∧
    (State.succeed v s).cfgPort = s.cfgPort ∧
    (State.succeed v s).cfgBaud = s.cfgBaud ∧
    (State.succeed v s).cfgDeId = s.cfgDeId ∧
    (State.succeed v s).cfgReId = s.cfgReId ∧
    (State.succeed v s).de = s.de ∧
    (State.succeed v s).re = s.re ∧
    (State.succeed v s).seq = s.seq ∧
    (State.succeed v s).reqSlave = s.reqSlave ∧
    (State.succeed v s).reqFc = s.reqFc ∧
    (State.succeed v s).reqAddr = s.reqAddr ∧
    (State.succeed v s).reqCount = s.reqCount ∧
    (State.succeed v s).reqValue = s.reqValue ∧
    (State.succeed v s).reqBits = s.reqBits ∧
    (State.succeed v s).reqRegs = s.reqRegs ∧
    (State.succeed v s).txBuf = s.txBuf ∧
    (State.succeed v s).txLen = s.txLen ∧
    (State.succeed v s).txIdx = s.txIdx ∧
    (State.succeed v s).rxBuf = s.rxBuf ∧
    (State.succeed v s).expLen = s.expLen ∧
    (State.succeed v s).rxCnt = s.rxCnt ∧
    (State.succeed v s).crc = s.crc ∧
    (State.succeed v s).errExp = s.errExp ∧
    (State.succeed v s).errAct = s.errAct ∧
    (State.succeed v s).resBits = s.resBits ∧
    (State.succeed v s).resRegs = s.resRegs ∧
    (State.succeed v s).params = s.params ∧
    (State.succeed v s).rxQueue = s.rxQueue ∧
    (State.succeed v s).openAns = s.openAns ∧
    (State.succeed v s).flushAns = s.flushAns ∧
    (State.succeed v s).gpioAns = s.gpioAns ∧
    (State.succeed v s).configAns = s.configAns ∧
    (State.succeed v s).writeAns = s.writeAns ∧
    (State.succeed v s).readAns = s.readAns ∧
    (State.succeed v s).free = s.free ∧
    (State.succeed v s).answersLeft = s.answersLeft ∧
    (State.succeed v s).trace = s.trace ∧
    (State.succeed v s).pending = s.pending ∧
    (State.succeed v s).control = s.control := by
  exact ⟨rfl, rfl, rfl, rfl, rfl, rfl, rfl, rfl, rfl, rfl, rfl, rfl, rfl, rfl, rfl, rfl, rfl, rfl, rfl, rfl,
    rfl, rfl, rfl, rfl, rfl, rfl, rfl, rfl, rfl, rfl, rfl, rfl, rfl, rfl, rfl, rfl, rfl, rfl, rfl, rfl, rfl⟩

@[simp] theorem State.crcReset_sets (s : State) :
    (State.crcReset s).crc = Config.crcInit := by
  rfl

@[simp] theorem State.crcReset_keeps (s : State) :
    (State.crcReset s).life = s.life ∧
    (State.crcReset s).serOpen = s.serOpen ∧
    (State.crcReset s).gpioOpen = s.gpioOpen ∧
    (State.crcReset s).cfgPort = s.cfgPort ∧
    (State.crcReset s).cfgBaud = s.cfgBaud ∧
    (State.crcReset s).cfgDeId = s.cfgDeId ∧
    (State.crcReset s).cfgReId = s.cfgReId ∧
    (State.crcReset s).de = s.de ∧
    (State.crcReset s).re = s.re ∧
    (State.crcReset s).seq = s.seq ∧
    (State.crcReset s).reqSlave = s.reqSlave ∧
    (State.crcReset s).reqFc = s.reqFc ∧
    (State.crcReset s).reqAddr = s.reqAddr ∧
    (State.crcReset s).reqCount = s.reqCount ∧
    (State.crcReset s).reqValue = s.reqValue ∧
    (State.crcReset s).reqBits = s.reqBits ∧
    (State.crcReset s).reqRegs = s.reqRegs ∧
    (State.crcReset s).txBuf = s.txBuf ∧
    (State.crcReset s).txLen = s.txLen ∧
    (State.crcReset s).txIdx = s.txIdx ∧
    (State.crcReset s).rxBuf = s.rxBuf ∧
    (State.crcReset s).expLen = s.expLen ∧
    (State.crcReset s).rxCnt = s.rxCnt ∧
    (State.crcReset s).status = s.status ∧
    (State.crcReset s).errExp = s.errExp ∧
    (State.crcReset s).errAct = s.errAct ∧
    (State.crcReset s).resBits = s.resBits ∧
    (State.crcReset s).resRegs = s.resRegs ∧
    (State.crcReset s).resValid = s.resValid ∧
    (State.crcReset s).params = s.params ∧
    (State.crcReset s).rxQueue = s.rxQueue ∧
    (State.crcReset s).openAns = s.openAns ∧
    (State.crcReset s).flushAns = s.flushAns ∧
    (State.crcReset s).gpioAns = s.gpioAns ∧
    (State.crcReset s).configAns = s.configAns ∧
    (State.crcReset s).writeAns = s.writeAns ∧
    (State.crcReset s).readAns = s.readAns ∧
    (State.crcReset s).free = s.free ∧
    (State.crcReset s).answersLeft = s.answersLeft ∧
    (State.crcReset s).trace = s.trace ∧
    (State.crcReset s).pending = s.pending ∧
    (State.crcReset s).control = s.control := by
  exact ⟨rfl, rfl, rfl, rfl, rfl, rfl, rfl, rfl, rfl, rfl, rfl, rfl, rfl, rfl, rfl, rfl, rfl, rfl, rfl, rfl,
    rfl, rfl, rfl, rfl, rfl, rfl, rfl, rfl, rfl, rfl, rfl, rfl, rfl, rfl, rfl, rfl, rfl, rfl, rfl, rfl,
    rfl, rfl⟩

@[simp] theorem State.crcUpdate_sets (b : Byte) (s : State) :
    (State.crcUpdate b s).crc = crcByte s.crc b := by
  rfl

@[simp] theorem State.crcUpdate_keeps (b : Byte) (s : State) :
    (State.crcUpdate b s).life = s.life ∧
    (State.crcUpdate b s).serOpen = s.serOpen ∧
    (State.crcUpdate b s).gpioOpen = s.gpioOpen ∧
    (State.crcUpdate b s).cfgPort = s.cfgPort ∧
    (State.crcUpdate b s).cfgBaud = s.cfgBaud ∧
    (State.crcUpdate b s).cfgDeId = s.cfgDeId ∧
    (State.crcUpdate b s).cfgReId = s.cfgReId ∧
    (State.crcUpdate b s).de = s.de ∧
    (State.crcUpdate b s).re = s.re ∧
    (State.crcUpdate b s).seq = s.seq ∧
    (State.crcUpdate b s).reqSlave = s.reqSlave ∧
    (State.crcUpdate b s).reqFc = s.reqFc ∧
    (State.crcUpdate b s).reqAddr = s.reqAddr ∧
    (State.crcUpdate b s).reqCount = s.reqCount ∧
    (State.crcUpdate b s).reqValue = s.reqValue ∧
    (State.crcUpdate b s).reqBits = s.reqBits ∧
    (State.crcUpdate b s).reqRegs = s.reqRegs ∧
    (State.crcUpdate b s).txBuf = s.txBuf ∧
    (State.crcUpdate b s).txLen = s.txLen ∧
    (State.crcUpdate b s).txIdx = s.txIdx ∧
    (State.crcUpdate b s).rxBuf = s.rxBuf ∧
    (State.crcUpdate b s).expLen = s.expLen ∧
    (State.crcUpdate b s).rxCnt = s.rxCnt ∧
    (State.crcUpdate b s).status = s.status ∧
    (State.crcUpdate b s).errExp = s.errExp ∧
    (State.crcUpdate b s).errAct = s.errAct ∧
    (State.crcUpdate b s).resBits = s.resBits ∧
    (State.crcUpdate b s).resRegs = s.resRegs ∧
    (State.crcUpdate b s).resValid = s.resValid ∧
    (State.crcUpdate b s).params = s.params ∧
    (State.crcUpdate b s).rxQueue = s.rxQueue ∧
    (State.crcUpdate b s).openAns = s.openAns ∧
    (State.crcUpdate b s).flushAns = s.flushAns ∧
    (State.crcUpdate b s).gpioAns = s.gpioAns ∧
    (State.crcUpdate b s).configAns = s.configAns ∧
    (State.crcUpdate b s).writeAns = s.writeAns ∧
    (State.crcUpdate b s).readAns = s.readAns ∧
    (State.crcUpdate b s).free = s.free ∧
    (State.crcUpdate b s).answersLeft = s.answersLeft ∧
    (State.crcUpdate b s).trace = s.trace ∧
    (State.crcUpdate b s).pending = s.pending ∧
    (State.crcUpdate b s).control = s.control := by
  exact ⟨rfl, rfl, rfl, rfl, rfl, rfl, rfl, rfl, rfl, rfl, rfl, rfl, rfl, rfl, rfl, rfl, rfl, rfl, rfl, rfl,
    rfl, rfl, rfl, rfl, rfl, rfl, rfl, rfl, rfl, rfl, rfl, rfl, rfl, rfl, rfl, rfl, rfl, rfl, rfl, rfl,
    rfl, rfl⟩

@[simp] theorem State.crcOver_sets (bytes : List Byte) (s : State) :
    (State.crcOver bytes s).crc = crc16 bytes := by
  rfl

@[simp] theorem State.crcOver_keeps (bytes : List Byte) (s : State) :
    (State.crcOver bytes s).life = s.life ∧
    (State.crcOver bytes s).serOpen = s.serOpen ∧
    (State.crcOver bytes s).gpioOpen = s.gpioOpen ∧
    (State.crcOver bytes s).cfgPort = s.cfgPort ∧
    (State.crcOver bytes s).cfgBaud = s.cfgBaud ∧
    (State.crcOver bytes s).cfgDeId = s.cfgDeId ∧
    (State.crcOver bytes s).cfgReId = s.cfgReId ∧
    (State.crcOver bytes s).de = s.de ∧
    (State.crcOver bytes s).re = s.re ∧
    (State.crcOver bytes s).seq = s.seq ∧
    (State.crcOver bytes s).reqSlave = s.reqSlave ∧
    (State.crcOver bytes s).reqFc = s.reqFc ∧
    (State.crcOver bytes s).reqAddr = s.reqAddr ∧
    (State.crcOver bytes s).reqCount = s.reqCount ∧
    (State.crcOver bytes s).reqValue = s.reqValue ∧
    (State.crcOver bytes s).reqBits = s.reqBits ∧
    (State.crcOver bytes s).reqRegs = s.reqRegs ∧
    (State.crcOver bytes s).txBuf = s.txBuf ∧
    (State.crcOver bytes s).txLen = s.txLen ∧
    (State.crcOver bytes s).txIdx = s.txIdx ∧
    (State.crcOver bytes s).rxBuf = s.rxBuf ∧
    (State.crcOver bytes s).expLen = s.expLen ∧
    (State.crcOver bytes s).rxCnt = s.rxCnt ∧
    (State.crcOver bytes s).status = s.status ∧
    (State.crcOver bytes s).errExp = s.errExp ∧
    (State.crcOver bytes s).errAct = s.errAct ∧
    (State.crcOver bytes s).resBits = s.resBits ∧
    (State.crcOver bytes s).resRegs = s.resRegs ∧
    (State.crcOver bytes s).resValid = s.resValid ∧
    (State.crcOver bytes s).params = s.params ∧
    (State.crcOver bytes s).rxQueue = s.rxQueue ∧
    (State.crcOver bytes s).openAns = s.openAns ∧
    (State.crcOver bytes s).flushAns = s.flushAns ∧
    (State.crcOver bytes s).gpioAns = s.gpioAns ∧
    (State.crcOver bytes s).configAns = s.configAns ∧
    (State.crcOver bytes s).writeAns = s.writeAns ∧
    (State.crcOver bytes s).readAns = s.readAns ∧
    (State.crcOver bytes s).free = s.free ∧
    (State.crcOver bytes s).answersLeft = s.answersLeft ∧
    (State.crcOver bytes s).trace = s.trace ∧
    (State.crcOver bytes s).pending = s.pending ∧
    (State.crcOver bytes s).control = s.control := by
  exact ⟨rfl, rfl, rfl, rfl, rfl, rfl, rfl, rfl, rfl, rfl, rfl, rfl, rfl, rfl, rfl, rfl, rfl, rfl, rfl, rfl,
    rfl, rfl, rfl, rfl, rfl, rfl, rfl, rfl, rfl, rfl, rfl, rfl, rfl, rfl, rfl, rfl, rfl, rfl, rfl, rfl,
    rfl, rfl⟩

@[simp] theorem State.buildFrame_sets (body : List Byte) (s : State) :
    (State.buildFrame body s).crc = crc16 body ∧
    (State.buildFrame body s).txBuf = Memory.store s.txBuf 0 (appendCrc body) ∧
    (State.buildFrame body s).txLen = (appendCrc body).length := by
  exact ⟨rfl, rfl, rfl⟩

@[simp] theorem State.buildFrame_keeps (body : List Byte) (s : State) :
    (State.buildFrame body s).life = s.life ∧
    (State.buildFrame body s).serOpen = s.serOpen ∧
    (State.buildFrame body s).gpioOpen = s.gpioOpen ∧
    (State.buildFrame body s).cfgPort = s.cfgPort ∧
    (State.buildFrame body s).cfgBaud = s.cfgBaud ∧
    (State.buildFrame body s).cfgDeId = s.cfgDeId ∧
    (State.buildFrame body s).cfgReId = s.cfgReId ∧
    (State.buildFrame body s).de = s.de ∧
    (State.buildFrame body s).re = s.re ∧
    (State.buildFrame body s).seq = s.seq ∧
    (State.buildFrame body s).reqSlave = s.reqSlave ∧
    (State.buildFrame body s).reqFc = s.reqFc ∧
    (State.buildFrame body s).reqAddr = s.reqAddr ∧
    (State.buildFrame body s).reqCount = s.reqCount ∧
    (State.buildFrame body s).reqValue = s.reqValue ∧
    (State.buildFrame body s).reqBits = s.reqBits ∧
    (State.buildFrame body s).reqRegs = s.reqRegs ∧
    (State.buildFrame body s).txIdx = s.txIdx ∧
    (State.buildFrame body s).rxBuf = s.rxBuf ∧
    (State.buildFrame body s).expLen = s.expLen ∧
    (State.buildFrame body s).rxCnt = s.rxCnt ∧
    (State.buildFrame body s).status = s.status ∧
    (State.buildFrame body s).errExp = s.errExp ∧
    (State.buildFrame body s).errAct = s.errAct ∧
    (State.buildFrame body s).resBits = s.resBits ∧
    (State.buildFrame body s).resRegs = s.resRegs ∧
    (State.buildFrame body s).resValid = s.resValid ∧
    (State.buildFrame body s).params = s.params ∧
    (State.buildFrame body s).rxQueue = s.rxQueue ∧
    (State.buildFrame body s).openAns = s.openAns ∧
    (State.buildFrame body s).flushAns = s.flushAns ∧
    (State.buildFrame body s).gpioAns = s.gpioAns ∧
    (State.buildFrame body s).configAns = s.configAns ∧
    (State.buildFrame body s).writeAns = s.writeAns ∧
    (State.buildFrame body s).readAns = s.readAns ∧
    (State.buildFrame body s).free = s.free ∧
    (State.buildFrame body s).answersLeft = s.answersLeft ∧
    (State.buildFrame body s).trace = s.trace ∧
    (State.buildFrame body s).pending = s.pending ∧
    (State.buildFrame body s).control = s.control := by
  exact ⟨rfl, rfl, rfl, rfl, rfl, rfl, rfl, rfl, rfl, rfl, rfl, rfl, rfl, rfl, rfl, rfl, rfl, rfl, rfl, rfl,
    rfl, rfl, rfl, rfl, rfl, rfl, rfl, rfl, rfl, rfl, rfl, rfl, rfl, rfl, rfl, rfl, rfl, rfl, rfl, rfl⟩

@[simp] theorem State.accept_sets (bs : List Byte) (s : State) :
    (State.accept bs s).rxBuf = Memory.store s.rxBuf s.rxCnt bs ∧
    (State.accept bs s).rxCnt = s.rxCnt + bs.length ∧
    (State.accept bs s).trace = s.trace ++ [⟨.delay .readPacing, s.seq, s.de, s.re, s.life⟩] := by
  exact ⟨rfl, rfl, rfl⟩

@[simp] theorem State.accept_keeps (bs : List Byte) (s : State) :
    (State.accept bs s).life = s.life ∧
    (State.accept bs s).serOpen = s.serOpen ∧
    (State.accept bs s).gpioOpen = s.gpioOpen ∧
    (State.accept bs s).cfgPort = s.cfgPort ∧
    (State.accept bs s).cfgBaud = s.cfgBaud ∧
    (State.accept bs s).cfgDeId = s.cfgDeId ∧
    (State.accept bs s).cfgReId = s.cfgReId ∧
    (State.accept bs s).de = s.de ∧
    (State.accept bs s).re = s.re ∧
    (State.accept bs s).seq = s.seq ∧
    (State.accept bs s).reqSlave = s.reqSlave ∧
    (State.accept bs s).reqFc = s.reqFc ∧
    (State.accept bs s).reqAddr = s.reqAddr ∧
    (State.accept bs s).reqCount = s.reqCount ∧
    (State.accept bs s).reqValue = s.reqValue ∧
    (State.accept bs s).reqBits = s.reqBits ∧
    (State.accept bs s).reqRegs = s.reqRegs ∧
    (State.accept bs s).txBuf = s.txBuf ∧
    (State.accept bs s).txLen = s.txLen ∧
    (State.accept bs s).txIdx = s.txIdx ∧
    (State.accept bs s).expLen = s.expLen ∧
    (State.accept bs s).crc = s.crc ∧
    (State.accept bs s).status = s.status ∧
    (State.accept bs s).errExp = s.errExp ∧
    (State.accept bs s).errAct = s.errAct ∧
    (State.accept bs s).resBits = s.resBits ∧
    (State.accept bs s).resRegs = s.resRegs ∧
    (State.accept bs s).resValid = s.resValid ∧
    (State.accept bs s).params = s.params ∧
    (State.accept bs s).rxQueue = s.rxQueue ∧
    (State.accept bs s).openAns = s.openAns ∧
    (State.accept bs s).flushAns = s.flushAns ∧
    (State.accept bs s).gpioAns = s.gpioAns ∧
    (State.accept bs s).configAns = s.configAns ∧
    (State.accept bs s).writeAns = s.writeAns ∧
    (State.accept bs s).readAns = s.readAns ∧
    (State.accept bs s).free = s.free ∧
    (State.accept bs s).answersLeft = s.answersLeft ∧
    (State.accept bs s).pending = s.pending ∧
    (State.accept bs s).control = s.control := by
  exact ⟨rfl, rfl, rfl, rfl, rfl, rfl, rfl, rfl, rfl, rfl, rfl, rfl, rfl, rfl, rfl, rfl, rfl, rfl, rfl, rfl,
    rfl, rfl, rfl, rfl, rfl, rfl, rfl, rfl, rfl, rfl, rfl, rfl, rfl, rfl, rfl, rfl, rfl, rfl, rfl, rfl⟩

end Sys2Proof.Machine
end

