-- ==== Sys2Proof/Laws/Ops.lean ====
section
/-! SUPPORT. Laws/Ops.lean: one lemma per shared operation that says everything it can do. -/

namespace Sys2Proof.Machine

@[simp] theorem Flow.running_andThen (s : State) (f : State → Flow) : (Flow.running s).andThen f = f s := rfl
@[simp] theorem Flow.raised_andThen (s : State) (f : State → Flow) : (Flow.raised s).andThen f = .raised s := rfl
@[simp] theorem Flow.running_state (s : State) : (Flow.running s).state = s := rfl
@[simp] theorem Flow.raised_state (s : State) : (Flow.raised s).state = s := rfl

theorem Flow.andThen_eq_running {f : Flow} {g : State → Flow} {t : State} :
    f.andThen g = .running t ↔ ∃ s, f = .running s ∧ g s = .running t := by
  cases f <;> simp

theorem Flow.andThen_eq_raised {f : Flow} {g : State → Flow} {t : State} :
    f.andThen g = .raised t ↔ f = .raised t ∨ ∃ s, f = .running s ∧ g s = .raised t := by
  cases f <;> simp

/-- A flow ends in `t` either still running or by an error. -/
theorem Flow.state_cases (f : Flow) : f = .running f.state ∨ f = .raised f.state := by
  cases f <;> simp

/-- R54: a `Data` answer holds between 1 and `n` bytes, taken from the head of the receive queue. -/
theorem readAnswerOf_data {n : Nat} {queue bs : List Byte} {a : Arrival} (h : readAnswerOf n queue a = .data bs) :
    bs ≠ [] ∧ bs.length ≤ n := by
  cases a with
  | bytes arrived most =>
    simp only [readAnswerOf] at h
    split at h
    · simp at h
    · rename_i b rest heq
      obtain rfl : b :: rest = bs := by simpa using h
      refine ⟨by simp, ?_⟩
      rw [← heq]
      simp
  | zero => simp [readAnswerOf] at h
  | eos => simp [readAnswerOf] at h
  | readError => simp [readAnswerOf] at h

/-- R54: where nothing is queued, bytes that arrive and fit are what the read answers, and nothing stays queued. -/
theorem readAnswerOf_arrived {n : Nat} {bs : List Byte} (hne : bs ≠ []) (hle : bs.length ≤ n) :
    readAnswerOf n [] (.bytes bs bs.length) = .data bs ∧ queueAfter n [] (.bytes bs bs.length) = [] := by
  cases bs with
  | nil => exact absurd rfl hne
  | cons b rest =>
    have hmin : min n (b :: rest).length = (b :: rest).length := by omega
    simp only [readAnswerOf, queueAfter, List.nil_append, hmin, List.take_length, List.drop_length, and_self]

theorem finish_none {s t : State} (h : s.answersLeft = none) : finish s t = .next t := by
  simp [finish, h]

/-- U11: a command that ends has ended in the state it would end in were every call answered; only the
number of calls still answered has gone down. -/
theorem finish_next {s t u : State} (h : finish s t = .next u) :
    (s.answersLeft = none ∧ u = t) ∨
      ∃ k, s.answersLeft = some k ∧ callsBetween s t ≤ k ∧
        u = { t with answersLeft := some (k - callsBetween s t) } := by
  unfold finish at h
  split at h
  · rename_i h0
    exact .inl ⟨h0, by simpa using h.symm⟩
  · rename_i k h0
    split at h
    · rename_i hk
      exact .inr ⟨k, h0, hk, by simpa using h.symm⟩
    · cases h

/-- A state with another number of calls still answered (log 5). -/
def State.leaving (a : Option Nat) (s : State) : State := { s with answersLeft := a }

@[simp] theorem State.leaving_keeps (a : Option Nat) (s : State) :
    (s.leaving a).life = s.life ∧ (s.leaving a).serOpen = s.serOpen ∧ (s.leaving a).gpioOpen = s.gpioOpen ∧
    (s.leaving a).cfgPort = s.cfgPort ∧ (s.leaving a).cfgBaud = s.cfgBaud ∧ (s.leaving a).cfgDeId = s.cfgDeId ∧
    (s.leaving a).cfgReId = s.cfgReId ∧ (s.leaving a).de = s.de ∧ (s.leaving a).re = s.re ∧
    (s.leaving a).seq = s.seq ∧ (s.leaving a).reqSlave = s.reqSlave ∧ (s.leaving a).reqFc = s.reqFc ∧
    (s.leaving a).reqAddr = s.reqAddr ∧ (s.leaving a).reqCount = s.reqCount ∧
    (s.leaving a).reqValue = s.reqValue ∧ (s.leaving a).reqBits = s.reqBits ∧
    (s.leaving a).reqRegs = s.reqRegs ∧ (s.leaving a).txBuf = s.txBuf ∧ (s.leaving a).txLen = s.txLen ∧
    (s.leaving a).txIdx = s.txIdx ∧ (s.leaving a).rxBuf = s.rxBuf ∧ (s.leaving a).expLen = s.expLen ∧
    (s.leaving a).rxCnt = s.rxCnt ∧ (s.leaving a).crc = s.crc ∧ (s.leaving a).status = s.status ∧
    (s.leaving a).errExp = s.errExp ∧ (s.leaving a).errAct = s.errAct ∧ (s.leaving a).resBits = s.resBits ∧
    (s.leaving a).resRegs = s.resRegs ∧ (s.leaving a).resValid = s.resValid ∧ (s.leaving a).params = s.params ∧
    (s.leaving a).rxQueue = s.rxQueue ∧ (s.leaving a).openAns = s.openAns ∧
    (s.leaving a).flushAns = s.flushAns ∧ (s.leaving a).gpioAns = s.gpioAns ∧
    (s.leaving a).configAns = s.configAns ∧ (s.leaving a).writeAns = s.writeAns ∧
    (s.leaving a).readAns = s.readAns ∧ (s.leaving a).free = s.free ∧ (s.leaving a).trace = s.trace ∧
    (s.leaving a).pending = s.pending ∧ (s.leaving a).control = s.control := by
  exact ⟨rfl, rfl, rfl, rfl, rfl, rfl, rfl, rfl, rfl, rfl, rfl, rfl, rfl, rfl, rfl, rfl, rfl, rfl, rfl, rfl,
    rfl, rfl, rfl, rfl, rfl, rfl, rfl, rfl, rfl, rfl, rfl, rfl, rfl, rfl, rfl, rfl, rfl, rfl, rfl, rfl,
    rfl, rfl⟩

theorem newEntries_leaving (s t : State) (a : Option Nat) : newEntries s (t.leaving a) = newEntries s t := rfl

/-- The entries a run added, where its trace is known. -/
theorem newEntries_eq {s t : State} {new : List TraceEntry} (h : t.trace = s.trace ++ new) : newEntries s t = new := by
  rw [newEntries, h, List.drop_left]

/-- A command that ends leaves its state with some number of calls still answered. -/
theorem finish_leaving {s t u : State} (h : finish s t = .next u) :
    ∃ a, u = t.leaving a ∧ (s.answersLeft = none → u = t) := by
  rcases finish_next h with ⟨_, h2⟩ | ⟨k, h1, _, h3⟩
  · exact ⟨t.answersLeft, h2, fun _ => h2⟩
  · exact ⟨_, h3, fun hn => by rw [hn] at h1; cases h1⟩

theorem finish_fault {s t : State} {f : Fault} (h : finish s t = .fault f) :
    f = .callNeverAnswers ∧ ∃ k, s.answersLeft = some k ∧ k < callsBetween s t := by
  unfold finish at h
  split at h
  · cases h
  · rename_i k h0
    split at h
    · cases h
    · rename_i hk
      exact ⟨by cases f; rfl, k, h0, by omega⟩

theorem finish_not_refused {s t : State} {r : Refusal} : finish s t ≠ .refused r := by
  unfold finish
  split
  · simp
  · split <;> simp

end Sys2Proof.Machine
end

