-- ==== Sys2Proof/Laws/Turnaround.lean ====
section
/-! SUPPORT. Laws/Turnaround.lean: what each piece of `Transact` (42_turnaround.md R147) can do, said once. -/

namespace Sys2Proof.Machine

/-! The line changes, whole. -/

/-- R151. -/
theorem enterTransmit_eq (s : State) : State.enterTransmit s =
    { s with
      seq := .transmitting, de := .high, re := .high,
      trace := s.trace ++
        [⟨.setRE .high, .switchingToTransmit, s.de, .high, s.life⟩,
         ⟨.delay .lineSettle, .switchingToTransmit, s.de, .high, s.life⟩,
         ⟨.setDE .high, .switchingToTransmit, .high, .high, s.life⟩,
         ⟨.delay .lineSettle, .switchingToTransmit, .high, .high, s.life⟩] } := by
  simp [State.enterTransmit, State.goto, State.setRE, State.setDE, State.delay, State.emit]

/-- R156. -/
theorem linesToReceive_eq (s : State) : State.linesToReceive s =
    { s with
      seq := .switchingToReceive, de := .low, re := .low,
      trace := s.trace ++
        [⟨.setDE .low, .switchingToReceive, .low, s.re, s.life⟩,
         ⟨.delay .lineSettle, .switchingToReceive, .low, s.re, s.life⟩,
         ⟨.setRE .low, .switchingToReceive, .low, .low, s.life⟩,
         ⟨.delay .lineSettle, .switchingToReceive, .low, .low, s.life⟩] } := by
  simp [State.linesToReceive, State.goto, State.setRE, State.setDE, State.delay, State.emit]

/-- R156, R157. -/
theorem enterReceive_eq (s : State) : State.enterReceive s =
    { s with
      seq := .receiving, de := .low, re := .low, rxCnt := 0,
      trace := s.trace ++
        [⟨.setDE .low, .switchingToReceive, .low, s.re, s.life⟩,
         ⟨.delay .lineSettle, .switchingToReceive, .low, s.re, s.life⟩,
         ⟨.setRE .low, .switchingToReceive, .low, .low, s.life⟩,
         ⟨.delay .lineSettle, .switchingToReceive, .low, .low, s.life⟩,
         ⟨.delay .preReceive, .receiving, .low, .low, s.life⟩] } := by
  simp [State.enterReceive, linesToReceive_eq, State.goto, State.delay, State.emit]

/-! What `Transact` leaves alone. -/

/-- The state without what `Transact` may write: two states with the same rest agree in every other field. -/
def State.rest (s : State) : State :=
  { s with
    de := .low, re := .low, seq := .receiveMode, txIdx := 0, rxBuf := [], rxCnt := 0, status := .ok,
    errExp := 0, errAct := 0, resValid := .nothing, rxQueue := [], writeAns := [], readAns := [], free := 0,
    trace := [] }

/-- R155: an abort ends in RECEIVE_MODE; the lines follow the parameter. -/
theorem txAbort_spec (s : State) :
    (State.txAbort s).rest = s.rest ∧ (State.txAbort s).seq = .receiveMode ∧
    (State.txAbort s).rxBuf = s.rxBuf ∧ (State.txAbort s).rxCnt = s.rxCnt ∧
    (State.txAbort s).rxQueue = s.rxQueue ∧ (State.txAbort s).readAns = s.readAns ∧
    (State.txAbort s).de = (if s.params.txAbortRestoresRx then .low else s.de) ∧
    (State.txAbort s).re = (if s.params.txAbortRestoresRx then .low else s.re) ∧
    ∃ new, (State.txAbort s).trace = s.trace ++ new ∧ writtenBytes new = [] ∧ deliveredBytes new = [] ∧
      (s.re = .high → ∀ e ∈ new, e.life = s.life ∧ e.linesSafe = true ∧ e.inTable = true) := by
  unfold State.txAbort
  split
  · simp only [linesToReceive_eq, State.goto, State.rest, true_and]
    refine ⟨_, rfl, rfl, rfl, fun h e he => ?_⟩
    simp only [List.mem_cons, List.not_mem_nil, or_false] at he
    rcases he with rfl | rfl | rfl | rfl <;> simp [TraceEntry.linesSafe, TraceEntry.inTable, h]
  · refine ⟨rfl, rfl, rfl, rfl, rfl, rfl, rfl, rfl, [], by simp [State.goto], rfl, rfl, fun _ e he => by simp at he⟩

theorem writtenBytes_append (xs ys : List TraceEntry) :
    writtenBytes (xs ++ ys) = writtenBytes xs ++ writtenBytes ys := by
  induction xs with
  | nil => rfl
  | cons e rest ih =>
    simp only [List.cons_append, writtenBytes]
    split <;> simp [ih]

theorem deliveredBytes_append (xs ys : List TraceEntry) :
    deliveredBytes (xs ++ ys) = deliveredBytes xs ++ deliveredBytes ys := by
  induction xs with
  | nil => rfl
  | cons e rest ih =>
    simp only [List.cons_append, deliveredBytes]
    split <;> simp [ih]

/-- Entries that write nothing do not break R164, before others or after them. -/
theorem noRetry_before {xs : List TraceEntry} (ys : List TraceEntry) (h : writtenBytes xs = []) :
    noRetry (xs ++ ys) = noRetry ys := by
  induction xs with
  | nil => rfl
  | cons e rest ih =>
    simp only [List.cons_append, writtenBytes, noRetry] at h ⊢
    split
    · rename_i b r hw
      rw [hw] at h
      simp at h
    · rename_i hw
      split at h
      · rename_i b r hw'
        exact absurd hw' (hw b r)
      · exact ih h

theorem noRetry_after (xs : List TraceEntry) {ys : List TraceEntry} (h : writtenBytes ys = []) :
    noRetry (xs ++ ys) = noRetry xs := by
  induction xs with
  | nil =>
    have := noRetry_before (xs := ys) [] h
    rwa [List.append_nil] at this
  | cons e rest ih =>
    simp only [List.cons_append, noRetry, ih, writtenBytes_append, h, List.append_nil]

/-- What an accepted byte of the transmit loop does. -/
def State.sentByte (s : State) : State :=
  { State.delay .interByte (State.wrote (Memory.read s.txBuf s.txIdx) s) with txIdx := s.txIdx + 1 }

@[simp] theorem State.sentByte_rest (s : State) : s.sentByte.rest = s.rest := by
  simp only [State.rest, State.sentByte, State.delay_keeps, State.wrote_keeps]

@[simp] theorem State.sentByte_sets (s : State) :
    s.sentByte.txIdx = s.txIdx + 1 ∧ s.sentByte.writeAns = s.writeAns.tail ∧ s.sentByte.free = s.free + 1 ∧
    s.sentByte.trace = s.trace ++
      [⟨.write (Memory.read s.txBuf s.txIdx) s.writeAnswer, s.seq, s.de, s.re, s.life⟩,
       ⟨.delay .interByte, s.seq, s.de, s.re, s.life⟩] := by
  refine ⟨rfl, rfl, rfl, ?_⟩
  simp [State.sentByte]

@[simp] theorem State.sentByte_keeps (s : State) :
    s.sentByte.seq = s.seq ∧ s.sentByte.de = s.de ∧ s.sentByte.re = s.re ∧ s.sentByte.life = s.life ∧
    s.sentByte.txBuf = s.txBuf ∧ s.sentByte.txLen = s.txLen ∧ s.sentByte.rxBuf = s.rxBuf ∧
    s.sentByte.rxCnt = s.rxCnt ∧ s.sentByte.expLen = s.expLen ∧ s.sentByte.rxQueue = s.rxQueue ∧
    s.sentByte.readAns = s.readAns ∧ s.sentByte.params = s.params ∧ s.sentByte.status = s.status ∧
    s.sentByte.errExp = s.errExp ∧ s.sentByte.errAct = s.errAct ∧ s.sentByte.resValid = s.resValid := by
  simp only [State.sentByte, State.delay_keeps, State.wrote_keeps, and_self]

theorem transmitBytes_succ (left : Nat) (s : State) : transmitBytes (left + 1) s =
    if s.writeAnswer = .accepted1 then transmitBytes left s.sentByte
    else .raised ((State.txAbort (State.wrote (Memory.read s.txBuf s.txIdx) s)).raise .transportError 1 0) := by
  rw [transmitBytes]
  cases s.writeAnswer <;> rfl

/-- R152 to R155: everything the transmit loop can do from TRANSMITTING with both lines HIGH. -/
theorem transmitBytes_spec (left : Nat) (s : State) (hseq : s.seq = .transmitting) (hde : s.de = .high)
    (hre : s.re = .high) :
    (transmitBytes left s).state.rest = s.rest ∧
    (transmitBytes left s).state.rxBuf = s.rxBuf ∧ (transmitBytes left s).state.rxCnt = s.rxCnt ∧
    (transmitBytes left s).state.rxQueue = s.rxQueue ∧ (transmitBytes left s).state.readAns = s.readAns ∧
    (∃ new, (transmitBytes left s).state.trace = s.trace ++ new ∧ deliveredBytes new = [] ∧
      writtenBytes new <+: Memory.load s.txBuf s.txIdx left ∧
      (∀ t, transmitBytes left s = .running t → writtenBytes new = Memory.load s.txBuf s.txIdx left) ∧
      ∀ e ∈ new, e.life = s.life ∧ e.linesSafe = true ∧ e.inTable = true) ∧
    (∀ t, transmitBytes left s = .running t →
      t.seq = .transmitting ∧ t.de = .high ∧ t.re = .high ∧ t.txIdx = s.txIdx + left ∧ t.status = s.status ∧
      t.errExp = s.errExp ∧ t.errAct = s.errAct ∧ t.resValid = s.resValid) ∧
    (∀ t, transmitBytes left s = .raised t →
      t.seq = .receiveMode ∧ t.status = .transportError ∧ t.errExp = 1 ∧ t.errAct = 0 ∧ t.resValid = .nothing ∧
      t.de = (if s.params.txAbortRestoresRx then .low else .high) ∧
      t.re = (if s.params.txAbortRestoresRx then .low else .high)) := by
  induction left generalizing s with
  | zero =>
    refine ⟨rfl, rfl, rfl, rfl, rfl, ⟨[], by simp [transmitBytes], rfl, by simp [writtenBytes], ?_, by simp⟩, ?_, ?_⟩
    · intro _ _; rfl
    · intro t h
      obtain rfl : s = t := by simpa [transmitBytes] using h
      simp [hseq, hde, hre]
    · intro t h; simp [transmitBytes] at h
  | succ left ih =>
    rw [transmitBytes_succ]
    split
    · have := ih s.sentByte (by simpa using hseq) (by simpa using hde) (by simpa using hre)
      simp only [State.sentByte_rest, State.sentByte_keeps, State.sentByte_sets] at this
      obtain ⟨h1, h2, h3, h4, h5, ⟨new, hn, hd, hp, hw, he⟩, hr, hx⟩ := this
      refine ⟨h1, h2, h3, h4, h5,
        ⟨[⟨.write (Memory.read s.txBuf s.txIdx) s.writeAnswer, .transmitting, .high, .high, s.life⟩,
          ⟨.delay .interByte, .transmitting, .high, .high, s.life⟩] ++ new, ?_, ?_, ?_, ?_, ?_⟩, ?_, hx⟩
      · rw [hn, hseq, hde, hre, List.append_assoc]
      · rw [deliveredBytes_append, hd]; rfl
      · rw [writtenBytes_append]
        exact List.cons_prefix_cons.2 ⟨rfl, hp⟩
      · intro t ht
        rw [writtenBytes_append, hw t ht]; rfl
      · intro e hmem
        simp only [List.cons_append, List.nil_append, List.mem_cons] at hmem
        rcases hmem with rfl | rfl | hmem
        · exact ⟨rfl, rfl, rfl⟩
        · exact ⟨rfl, rfl, rfl⟩
        · exact he e hmem
      · intro t ht
        obtain ⟨a, b, c, d, e⟩ := hr t ht
        exact ⟨a, b, c, by omega, e⟩
    · have := txAbort_spec (State.wrote (Memory.read s.txBuf s.txIdx) s)
      simp only [State.wrote_keeps, State.wrote_sets] at this
      obtain ⟨h1, h2, h3, h4, h5, h6, h7, h8, new, hn, hw, hd, he⟩ := this
      have hrest : (State.wrote (Memory.read s.txBuf s.txIdx) s).rest = s.rest := by
        simp only [State.rest, State.wrote_keeps]
      simp only [Flow.raised_state, State.raise_keeps, h3, h4, h5, h6, true_and]
      refine ⟨?_, ⟨[⟨.write (Memory.read s.txBuf s.txIdx) s.writeAnswer, .transmitting, .high, .high,
        s.life⟩] ++ new, ?_, ?_, ?_, ?_, ?_⟩, ?_, ?_⟩
      · rw [← hrest, ← h1]; simp only [State.rest, State.raise_keeps]
      · rw [hn, hseq, hde, hre, List.append_assoc]
      · rw [deliveredBytes_append, hd]; rfl
      · rw [writtenBytes_append, hw]
        exact List.cons_prefix_cons.2 ⟨rfl, List.nil_prefix⟩
      · intro t h; cases h
      · intro e hmem
        simp only [List.cons_append, List.nil_append, List.mem_cons] at hmem
        rcases hmem with rfl | hmem
        · exact ⟨rfl, rfl, rfl⟩
        · exact he hre e hmem
      · intro t h; cases h
      · intro t h
        cases h
        simp only [State.raise_sets, State.raise_keeps, h2, h7, h8, hde, hre, and_self]

/-- R152: where the next `left` writes are accepted, the loop sends those bytes, one `Write` and one delay
each, and goes on. -/
theorem transmitBytes_accepted (left : Nat) (s : State) (more : List WriteAnswer)
    (h : s.writeAns = List.replicate left .accepted1 ++ more) (hseq : s.seq = .transmitting) (hde : s.de = .high)
    (hre : s.re = .high) :
    ∃ t, transmitBytes left s = .running t ∧ t.writeAns = more ∧
      t.events = s.events ++
        (Memory.load s.txBuf s.txIdx left).flatMap (fun b => [.write b .accepted1, .delay .interByte]) := by
  induction left generalizing s with
  | zero => exact ⟨s, rfl, by simpa using h, by simp [Memory.load]⟩
  | succ left ih =>
    have hacc : s.writeAnswer = .accepted1 := by simp [State.writeAnswer, h, List.replicate_succ]
    obtain ⟨t, ht, hw, hev⟩ := ih s.sentByte (by simp [h, List.replicate_succ])
      (by simpa using hseq) (by simpa using hde) (by simpa using hre)
    refine ⟨t, by rw [transmitBytes_succ, if_pos hacc, ht], hw, ?_⟩
    rw [hev]
    simp [State.events, Memory.load, hacc]

/-- R154: the transmit loop with its start and the delay after the frame. -/
theorem transmitFrame_running {s t : State} (h : transmitFrame s = .running t) :
    ∃ u, transmitBytes s.txLen { s with txIdx := 0 } = .running u ∧ t = State.delay .postFrame u := by
  obtain ⟨u, hu, ht⟩ := Flow.andThen_eq_running.1 h
  exact ⟨u, hu, by simpa using ht.symm⟩

theorem transmitFrame_raised {s t : State} (h : transmitFrame s = .raised t) :
    transmitBytes s.txLen { s with txIdx := 0 } = .raised t := by
  rcases Flow.andThen_eq_raised.1 h with h | ⟨u, _, h⟩
  · exact h
  · cases h

end Sys2Proof.Machine
end

