-- ==== Sys2Proof/Laws/Receive.lean ====
section
/-! SUPPORT. Laws/Receive.lean: what the receive loop and the whole of `Transact` can do (42_turnaround.md R147,
R156 to R163), said once. -/

namespace Sys2Proof.Machine

/-- What a `Data` answer does to the state: the read, the bytes stored, the pacing delay. -/
def State.received (bs : List Byte) (s : State) : State := State.accept bs (State.didRead (s.expLen - s.rxCnt) s)

@[simp] theorem State.received_rest (bs : List Byte) (s : State) : (s.received bs).rest = s.rest := by
  simp only [State.rest, State.received, State.accept_keeps, State.didRead_keeps]

@[simp] theorem State.received_sets (bs : List Byte) (s : State) :
    (s.received bs).rxBuf = Memory.store s.rxBuf s.rxCnt bs ∧ (s.received bs).rxCnt = s.rxCnt + bs.length ∧
    (s.received bs).readAns = s.readAns.tail ∧ (s.received bs).free = s.free + 1 ∧
    (s.received bs).rxQueue = queueAfter (s.expLen - s.rxCnt) s.rxQueue s.arrival ∧
    (s.received bs).trace = s.trace ++
      [⟨.read (s.expLen - s.rxCnt) (s.readAnswer (s.expLen - s.rxCnt)), s.seq, s.de, s.re, s.life⟩,
       ⟨.delay .readPacing, s.seq, s.de, s.re, s.life⟩] := by
  refine ⟨rfl, rfl, rfl, rfl, rfl, ?_⟩
  simp [State.received]

@[simp] theorem State.received_keeps (bs : List Byte) (s : State) :
    (s.received bs).seq = s.seq ∧ (s.received bs).de = s.de ∧ (s.received bs).re = s.re ∧
    (s.received bs).life = s.life ∧ (s.received bs).expLen = s.expLen ∧ (s.received bs).writeAns = s.writeAns ∧
    (s.received bs).txIdx = s.txIdx ∧ (s.received bs).status = s.status ∧ (s.received bs).errExp = s.errExp ∧
    (s.received bs).errAct = s.errAct ∧ (s.received bs).resValid = s.resValid := by
  exact ⟨rfl, rfl, rfl, rfl, rfl, rfl, rfl, rfl, rfl, rfl, rfl⟩

theorem receiveLoop_succ (fuel : Nat) (s : State) : receiveLoop (fuel + 1) s =
    if s.rxCnt < s.expLen then
      match s.readAnswer (s.expLen - s.rxCnt) with
      | .data bs => receiveLoop fuel (s.received bs)
      | .zero => .running (State.didRead (s.expLen - s.rxCnt) s)
      | .eos => .running (State.didRead (s.expLen - s.rxCnt) s)
      | .readError => .raised ((State.goto .receiveMode (State.didRead (s.expLen - s.rxCnt) s)).raise
          .transportError s.expLen s.rxCnt)
    else .running s := by
  rw [receiveLoop]
  rfl

/-- The receive loop reaches its own end: more fuel than missing bytes changes nothing (R159: each `Data`
adds at least one byte). -/
theorem receiveLoop_fuel (fuel : Nat) (s : State) (h : s.expLen - s.rxCnt ≤ fuel) :
    receiveLoop (fuel + 1) s = receiveLoop fuel s := by
  induction fuel generalizing s with
  | zero =>
    rw [receiveLoop_succ, if_neg (by omega)]
    rfl
  | succ fuel ih =>
    rw [receiveLoop_succ (fuel + 1), receiveLoop_succ fuel]
    split
    · split
      · rename_i hlt bs hbs
        obtain ⟨hne, _⟩ := readAnswerOf_data hbs
        have hpos : 0 < bs.length := List.length_pos_iff.2 hne
        refine ih _ ?_
        simp only [State.received_keeps, State.received_sets]
        omega
      all_goals rfl
    · rfl

/-- R158 to R161: everything the receive loop can do from RECEIVING with both lines LOW. -/
theorem receiveLoop_spec (fuel : Nat) (s : State) (hseq : s.seq = .receiving) (hde : s.de = .low)
    (hre : s.re = .low) (hcnt : s.rxCnt ≤ s.expLen) (hwf : Memory.wf s.rxBuf = true) :
    (receiveLoop fuel s).state.rest = s.rest ∧
    (receiveLoop fuel s).state.writeAns = s.writeAns ∧ (receiveLoop fuel s).state.txIdx = s.txIdx ∧
    Memory.wf (receiveLoop fuel s).state.rxBuf = true ∧
    (∀ a, (receiveLoop fuel s).state.rxCnt ≤ a →
      Memory.read (receiveLoop fuel s).state.rxBuf a = Memory.read s.rxBuf a) ∧
    (∀ e ∈ (receiveLoop fuel s).state.rxBuf, e.1 < s.expLen ∨ e ∈ s.rxBuf) ∧
    (receiveLoop fuel s).state.rxCnt ≤ s.expLen ∧
    (∃ new, (receiveLoop fuel s).state.trace = s.trace ++ new ∧ writtenBytes new = [] ∧
      Memory.load (receiveLoop fuel s).state.rxBuf 0 (receiveLoop fuel s).state.rxCnt =
        Memory.load s.rxBuf 0 s.rxCnt ++ deliveredBytes new ∧
      ∀ e ∈ new, e.life = s.life ∧ e.linesSafe = true ∧ e.inTable = true) ∧
    (receiveLoop fuel s).state.de = .low ∧ (receiveLoop fuel s).state.re = .low ∧
    (∀ t, receiveLoop fuel s = .running t →
      t.seq = .receiving ∧ t.status = s.status ∧ t.errExp = s.errExp ∧ t.errAct = s.errAct ∧
      t.resValid = s.resValid) ∧
    (∀ t, receiveLoop fuel s = .raised t →
      t.seq = .receiveMode ∧ t.status = .transportError ∧ t.errExp = s.expLen ∧ t.errAct = t.rxCnt ∧
      t.resValid = .nothing) := by
  induction fuel generalizing s with
  | zero =>
    refine ⟨rfl, rfl, rfl, hwf, fun a _ => rfl, fun e he => .inr he, hcnt,
      ⟨[], by simp [receiveLoop], rfl, by simp [receiveLoop, deliveredBytes],
        by simp⟩, hde, hre, ?_, ?_⟩
    · intro t h
      obtain rfl : s = t := by simpa [receiveLoop] using h
      exact ⟨hseq, rfl, rfl, rfl, rfl⟩
    · intro t h; simp [receiveLoop] at h
  | succ fuel ih =>
    rw [receiveLoop_succ]
    split
    case isFalse =>
      refine ⟨rfl, rfl, rfl, hwf, fun a _ => rfl, fun e he => .inr he, hcnt,
        ⟨[], by simp, rfl, by simp [deliveredBytes], by simp⟩, hde, hre, ?_, ?_⟩
      · intro t h
        obtain rfl : s = t := by simpa using h
        exact ⟨hseq, rfl, rfl, rfl, rfl⟩
      · intro t h; cases h
    case isTrue hlt =>
      have hrest : (State.didRead (s.expLen - s.rxCnt) s).rest = s.rest := by
        simp only [State.rest, State.didRead_keeps]
      split
      case h_1 bs hbs =>
        obtain ⟨hne, hlen⟩ := readAnswerOf_data hbs
        have := ih (s.received bs) (by simpa using hseq) (by simpa using hde) (by simpa using hre)
          (by simp only [State.received_sets, State.received_keeps]; omega)
          (by simpa using Memory.store_wf _ bs hwf)
        simp only [State.received_rest, State.received_keeps, State.received_sets] at this
        obtain ⟨h1, h2, h3, h4, h5, h5', h6, ⟨new, hn, hw, hl, he⟩, h7, h8, hr, hx⟩ := this
        refine ⟨h1, h2, h3, h4, ?_, ?_, h6,
          ⟨[⟨.read (s.expLen - s.rxCnt) (.data bs), .receiving, .low, .low, s.life⟩,
            ⟨.delay .readPacing, .receiving, .low, .low, s.life⟩] ++ new, ?_, ?_, ?_, ?_⟩, h7, h8, hr, hx⟩
        · intro a ha
          have hmore := congrArg List.length hl
          simp only [Memory.load_length, List.length_append] at hmore
          rw [h5 a ha, Memory.read_store_outside (.inr (by omega))]
        · intro e he
          rcases h5' e he with h | h
          · exact .inl h
          · rcases Memory.mem_store h with h | h
            · left; omega
            · exact .inr h
        · rw [hn, hseq, hde, hre, hbs, List.append_assoc]
        · rw [writtenBytes_append, hw]; rfl
        · rw [hl, deliveredBytes_append, Memory.load_append, Nat.zero_add, Memory.load_store _ _ hwf,
            List.append_assoc]
          congr 1
          · exact Memory.load_congr fun i _ hi => Memory.read_store_outside (.inl (by omega))
          · simp [deliveredBytes]
        · intro e hmem
          simp only [List.cons_append, List.nil_append, List.mem_cons] at hmem
          rcases hmem with rfl | rfl | hmem
          · exact ⟨rfl, rfl, rfl⟩
          · exact ⟨rfl, rfl, rfl⟩
          · exact he e hmem
      case h_4 hans =>
        simp only [Flow.raised_state, State.raise_keeps, State.goto_keeps,
          State.didRead_keeps, State.didRead_sets, hde, hre, true_and]
        refine ⟨?_, hwf, fun _ _ => trivial, fun e he => .inr he, hcnt,
          ⟨[⟨.read (s.expLen - s.rxCnt) .readError, .receiving, .low, .low, s.life⟩], ?_, rfl, ?_, ?_⟩, ?_, ?_⟩
        · rw [← hrest]; simp only [State.rest, State.raise_keeps, State.goto_keeps]
        · rw [hans, hseq]
        · simp [deliveredBytes]
        · intro e hmem
          obtain rfl := List.mem_singleton.1 hmem
          exact ⟨rfl, rfl, rfl⟩
        · intro t h; cases h
        · intro t h
          cases h
          simp
      all_goals
        rename_i hans
        simp only [Flow.running_state, State.didRead_keeps, State.didRead_sets, hde, hre, true_and]
        refine ⟨hrest, hwf, fun _ _ => trivial, fun e he => .inr he, hcnt,
          ⟨[⟨.read (s.expLen - s.rxCnt) (s.readAnswer (s.expLen - s.rxCnt)), .receiving, .low, .low, s.life⟩],
            ?_, rfl, ?_, ?_⟩, ?_, ?_⟩
        · rw [hseq]
        · simp [deliveredBytes, hans]
        · intro e hmem
          obtain rfl := List.mem_singleton.1 hmem
          exact ⟨rfl, rfl, rfl⟩
        · intro t h
          cases h
          simp [hseq]
        · intro t h; cases h

/-- R158, R159: where the next reads deliver `chunks` that fit, the loop takes them one by one and goes on. -/
theorem receiveLoop_delivered (chunks : List (List Byte)) (fuel : Nat) (s : State) (more : List Arrival)
    (hq : s.rxQueue = []) (hr : s.readAns = arrivals chunks ++ more) (hne : ∀ c ∈ chunks, c ≠ [])
    (hfit : s.rxCnt + chunks.flatten.length ≤ s.expLen) :
    ∃ t, receiveLoop (fuel + chunks.length) s = receiveLoop fuel t ∧ t.rest = s.rest ∧ t.seq = s.seq ∧
      t.de = s.de ∧ t.re = s.re ∧ t.rxQueue = [] ∧ t.readAns = more ∧ t.status = s.status ∧
      t.errExp = s.errExp ∧ t.errAct = s.errAct ∧ t.resValid = s.resValid ∧ t.expLen = s.expLen ∧
      t.rxCnt = s.rxCnt + chunks.flatten.length ∧ t.events = s.events ++ rxEvents (s.expLen - s.rxCnt) chunks := by
  induction chunks generalizing s with
  | nil => exact ⟨s, by simp, rfl, rfl, rfl, rfl, hq, by simpa [arrivals] using hr, rfl, rfl, rfl, rfl, rfl, by simp,
      by simp [rxEvents]⟩
  | cons c rest ih =>
    have hc : c ≠ [] := hne c (by simp)
    have hpos : 0 < c.length := List.length_pos_iff.2 hc
    simp only [List.flatten_cons, List.length_append] at hfit
    have harr : s.arrival = .bytes c c.length := by simp [State.arrival, hr, arrivals]
    obtain ⟨hans, hqa⟩ := readAnswerOf_arrived (n := s.expLen - s.rxCnt) hc (by omega)
    have hread : s.readAnswer (s.expLen - s.rxCnt) = .data c := by rw [State.readAnswer, hq, harr, hans]
    obtain ⟨t, h1, h2, h3, h4, h5, h6, h7, h8, h9, h10, h11, h12, h13, h14⟩ := ih (s.received c)
      (by rw [(State.received_sets c s).2.2.2.2.1, hq, harr, hqa])
      (by simp [hr, arrivals]) (fun d hd => hne d (by simp [hd]))
      (by simp only [State.received_sets, State.received_keeps]; omega)
    simp only [State.received_rest, State.received_keeps, State.received_sets] at h2 h3 h4 h5 h8 h9 h10 h11 h12 h13 h14
    refine ⟨t, ?_, h2, h3, h4, h5, h6, h7, h8, h9, h10, h11, h12, ?_, ?_⟩
    · rw [List.length_cons, ← Nat.add_assoc, receiveLoop_succ, if_pos (by omega), hread]
      exact h1
    · rw [h13]; simp; omega
    · rw [h14]
      simp only [State.events, State.received_sets, List.map_append, List.map_cons, List.map_nil, hread, rxEvents,
        List.append_assoc]
      rw [show s.expLen - (s.rxCnt + c.length) = s.expLen - s.rxCnt - c.length by omega]

/-! `Transact` whole. -/

/-- The state the transmit loop starts from. -/
def State.transmitStart (s : State) : State := { State.enterTransmit s with txIdx := 0 }

/-- R147: `Transact` in its three parts. -/
theorem transact_eq (s : State) : transact s =
    (transmitBytes s.txLen s.transmitStart).andThen fun u =>
      (receiveLoop u.expLen (State.enterReceive (State.delay .postFrame u))).andThen checkLength := by
  have hl : (State.enterTransmit s).txLen = s.txLen := by simp [enterTransmit_eq]
  unfold transact transmitFrame
  rw [hl]
  show ((transmitBytes s.txLen s.transmitStart).andThen _).andThen _ = _
  cases transmitBytes s.txLen s.transmitStart <;> rfl

theorem State.transmitStart_rest (s : State) : s.transmitStart.rest = s.rest := by
  simp only [State.transmitStart, enterTransmit_eq, State.rest]

/-- The receive loop writes nothing of the rest, whatever the buffers hold. -/
theorem receiveLoop_rest (fuel : Nat) (s : State) : (receiveLoop fuel s).state.rest = s.rest := by
  induction fuel generalizing s with
  | zero => rfl
  | succ fuel ih =>
    have hread : (State.didRead (s.expLen - s.rxCnt) s).rest = s.rest := by simp only [State.rest, State.didRead_keeps]
    rw [receiveLoop_succ]
    split
    · split
      · rw [ih, State.received_rest]
      · exact hread
      · exact hread
      · rw [Flow.raised_state, ← hread]
        simp only [State.rest, State.raise_keeps, State.goto_keeps]
    · rfl

theorem checkLength_rest (s : State) : (checkLength s).state.rest = s.rest := by
  have hgo : (State.goto .receiveMode s).rest = s.rest := by simp only [State.rest, State.goto_keeps]
  unfold checkLength
  dsimp only
  split
  · rw [Flow.raised_state, ← hgo]; simp only [State.rest, State.raise_keeps]
  · exact hgo

/-- `Transact` writes nothing of the rest, whatever the buffers hold. -/
theorem transact_rest (s : State) : (transact s).state.rest = s.rest := by
  obtain ⟨f1, f2, f3⟩ : s.transmitStart.seq = .transmitting ∧ s.transmitStart.de = .high ∧ s.transmitStart.re = .high := by
    simp [State.transmitStart, enterTransmit_eq]
  have h1 := (transmitBytes_spec s.txLen s.transmitStart f1 f2 f3).1
  rw [State.transmitStart_rest] at h1
  rw [transact_eq]
  cases hu : transmitBytes s.txLen s.transmitStart with
  | raised u => rw [hu, Flow.raised_state] at h1; rw [Flow.raised_andThen, Flow.raised_state, h1]
  | running u =>
    rw [hu, Flow.running_state] at h1
    have hv : (State.enterReceive (State.delay .postFrame u)).rest = s.rest := by
      rw [← h1]; simp only [enterReceive_eq, State.rest, State.delay_keeps]
    have h2 := receiveLoop_rest u.expLen (State.enterReceive (State.delay .postFrame u))
    rw [hv] at h2
    rw [Flow.running_andThen]
    generalize receiveLoop u.expLen (State.enterReceive (State.delay .postFrame u)) = f at h2 ⊢
    cases f with
    | raised w => rw [Flow.raised_andThen]; exact h2
    | running w => rw [Flow.running_andThen, checkLength_rest]; exact h2

/-- A state that agrees with `s` in the rest has the fields `Transact` never writes. -/
theorem State.rest_fields {s t : State} (h : t.rest = s.rest) :
    t.life = s.life ∧ t.expLen = s.expLen ∧ t.txBuf = s.txBuf ∧ t.txLen = s.txLen ∧ t.params = s.params ∧
    t.reqSlave = s.reqSlave ∧ t.reqFc = s.reqFc ∧ t.crc = s.crc ∧ t.answersLeft = s.answersLeft := by
  have := congrArg (fun u : State => (u.life, u.expLen, u.txBuf, u.txLen, u.params, u.reqSlave, u.reqFc, u.crc,
    u.answersLeft)) h
  simpa [State.rest] using this

/-- The fields the transmit loop starts from. -/
theorem State.transmitStart_fields (s : State) :
    s.transmitStart.rxBuf = s.rxBuf ∧ s.transmitStart.rxCnt = s.rxCnt ∧ s.transmitStart.rxQueue = s.rxQueue ∧
    s.transmitStart.readAns = s.readAns ∧ s.transmitStart.writeAns = s.writeAns ∧
    s.transmitStart.txBuf = s.txBuf ∧ s.transmitStart.txIdx = 0 ∧ s.transmitStart.params = s.params ∧
    s.transmitStart.life = s.life ∧ s.transmitStart.status = s.status ∧ s.transmitStart.errExp = s.errExp ∧
    s.transmitStart.errAct = s.errAct ∧ s.transmitStart.resValid = s.resValid ∧
    s.transmitStart.seq = .transmitting ∧ s.transmitStart.de = .high ∧ s.transmitStart.re = .high := by
  simp [State.transmitStart, enterTransmit_eq]

theorem State.transmitStart_trace (s : State) :
    ∃ new, s.transmitStart.trace = s.trace ++ new ∧ writtenBytes new = [] ∧ deliveredBytes new = [] ∧
      ∀ e ∈ new, e.life = s.life ∧ e.linesSafe = true ∧ e.inTable = true := by
  simp only [State.transmitStart, enterTransmit_eq]
  refine ⟨_, rfl, rfl, rfl, fun e he => ?_⟩
  simp only [List.mem_cons, List.not_mem_nil, or_false] at he
  rcases he with rfl | rfl | rfl | rfl <;> simp [TraceEntry.linesSafe, TraceEntry.inTable]

/-- What a trace of events of `Transact` looks like. -/
def Orderly (life : Life) (new : List TraceEntry) : Prop :=
  ∀ e ∈ new, e.life = life ∧ e.linesSafe = true ∧ e.inTable = true

theorem Orderly.append {life : Life} {xs ys : List TraceEntry} (hx : Orderly life xs) (hy : Orderly life ys) :
    Orderly life (xs ++ ys) := by
  intro e he
  rcases List.mem_append.1 he with h | h
  · exact hx e h
  · exact hy e h

/-- The three errors `Transact` raises from `s`, in the state `t` it leaves (R155, R161, R163). -/
def TransactRaised (s t : State) : Prop :=
  t.resValid = .nothing ∧
    ((t.status = .transportError ∧ t.errExp = 1 ∧ t.errAct = 0 ∧
        t.de = (if s.params.txAbortRestoresRx then .low else .high) ∧
        t.re = (if s.params.txAbortRestoresRx then .low else .high) ∧
        t.rxBuf = s.rxBuf ∧ t.rxCnt = s.rxCnt ∧ t.rxQueue = s.rxQueue ∧ t.readAns = s.readAns) ∨
     (t.status = .transportError ∧ t.errExp = s.expLen ∧ t.errAct = t.rxCnt ∧ t.de = .low ∧ t.re = .low) ∨
     (t.status = .timeoutError ∧ t.errExp = s.expLen ∧ t.errAct = t.rxCnt ∧ t.rxCnt < s.expLen ∧
        t.de = .low ∧ t.re = .low))

/-- Everything `Transact` can do from `s`, where `f` is how it ends (R145, R147). -/
structure TransactCan (s : State) (f : Flow) : Prop where
  rest : f.state.rest = s.rest
  wf : Memory.wf f.state.rxBuf = true
  listed : ∀ e ∈ f.state.rxBuf, e.1 < s.expLen ∨ e ∈ s.rxBuf
  seq : f.state.seq = .receiveMode
  trace : ∃ new, f.state.trace = s.trace ++ new ∧ Orderly s.life new ∧
    writtenBytes new <+: Memory.load s.txBuf 0 s.txLen ∧ (deliveredBytes new).length ≤ s.expLen ∧
    (∀ a, (deliveredBytes new).length ≤ a → Memory.read f.state.rxBuf a = Memory.read s.rxBuf a) ∧
    ∀ t, f = .running t →
      writtenBytes new = Memory.load s.txBuf 0 s.txLen ∧ Memory.load t.rxBuf 0 s.expLen = deliveredBytes new
  done : ∀ t, f = .running t → t.de = .low ∧ t.re = .low ∧ t.rxCnt = s.expLen ∧ t.status = s.status ∧
    t.errExp = s.errExp ∧ t.errAct = s.errAct ∧ t.resValid = s.resValid
  failed : ∀ t, f = .raised t → TransactRaised s t

/-- The case of an aborted transmission (R155). -/
theorem transactCan_aborted {s u : State} (hwf : Memory.wf s.rxBuf = true)
    (hloop : transmitBytes s.txLen s.transmitStart = .raised u) : TransactCan s (.raised u) := by
  obtain ⟨f1, f2, f3, f4, _, f6, f7, f8, f9, _, _, _, _, f14, f15, f16⟩ := State.transmitStart_fields s
  obtain ⟨h1, h2, h3, h4, h5, ⟨new, hn, hd, hp, _, he⟩, _, hx⟩ := transmitBytes_spec s.txLen s.transmitStart f14 f15 f16
  obtain ⟨new0, htr0, hw0, hd0, he0⟩ := State.transmitStart_trace s
  obtain ⟨x1, x2, x3, x4, x5, x6, x7⟩ := hx u hloop
  rw [hloop, Flow.raised_state] at h1 h2 h3 h4 h5 hn
  rw [f1] at h2
  rw [f2] at h3
  rw [f3] at h4
  rw [f4] at h5
  rw [f6, f7] at hp
  rw [f8] at x6 x7
  rw [f9] at he
  rw [State.transmitStart_rest] at h1
  refine ⟨h1, by rw [Flow.raised_state, h2]; exact hwf, fun e he => .inr (by rw [← h2]; exact he), x1,
    ⟨new0 ++ new, ?_, Orderly.append he0 he, ?_, ?_, fun _ _ => by rw [Flow.raised_state, h2],
      fun _ h => by simp at h⟩, fun _ h => by simp at h, ?_⟩
  · rw [Flow.raised_state, hn, htr0, List.append_assoc]
  · rw [writtenBytes_append, hw0]; exact hp
  · rw [deliveredBytes_append, hd0, hd]; exact Nat.zero_le _
  · intro t h
    rw [← Flow.raised.inj h]
    exact ⟨x5, .inl ⟨x2, x3, x4, x6, x7, h2, h3, h4, h5⟩⟩

/-- What stands when the receive loop begins. -/
theorem enterReceive_trace (u : State) (h1 : u.seq = .transmitting) (h2 : u.de = .high) (h3 : u.re = .high) :
    ∃ new, (State.enterReceive (State.delay .postFrame u)).trace = u.trace ++ new ∧ writtenBytes new = [] ∧
      deliveredBytes new = [] ∧ Orderly u.life new := by
  simp only [enterReceive_eq, State.delay_sets, State.delay_keeps, h1, h2, h3, List.append_assoc]
  refine ⟨_, rfl, rfl, rfl, fun e he => ?_⟩
  simp only [List.cons_append, List.nil_append, List.mem_cons, List.not_mem_nil, or_false] at he
  rcases he with rfl | rfl | rfl | rfl | rfl | rfl <;> simp [TraceEntry.linesSafe, TraceEntry.inTable]

theorem enterReceive_rest (u : State) : (State.enterReceive (State.delay .postFrame u)).rest = u.rest := by
  simp only [enterReceive_eq, State.rest, State.delay_keeps]

theorem enterReceive_fields (u : State) :
    (State.enterReceive (State.delay .postFrame u)).expLen = u.expLen ∧
    (State.enterReceive (State.delay .postFrame u)).life = u.life ∧
    (State.enterReceive (State.delay .postFrame u)).rxBuf = u.rxBuf ∧
    (State.enterReceive (State.delay .postFrame u)).rxQueue = u.rxQueue ∧
    (State.enterReceive (State.delay .postFrame u)).readAns = u.readAns ∧
    (State.enterReceive (State.delay .postFrame u)).status = u.status ∧
    (State.enterReceive (State.delay .postFrame u)).errExp = u.errExp ∧
    (State.enterReceive (State.delay .postFrame u)).errAct = u.errAct ∧
    (State.enterReceive (State.delay .postFrame u)).resValid = u.resValid ∧
    (State.enterReceive (State.delay .postFrame u)).rxCnt = 0 ∧
    (State.enterReceive (State.delay .postFrame u)).seq = .receiving ∧
    (State.enterReceive (State.delay .postFrame u)).de = .low ∧
    (State.enterReceive (State.delay .postFrame u)).re = .low := by
  simp [enterReceive_eq]

/-- The length check (R162, R163) after a receive loop that ended in `v`. -/
theorem transactCan_checked {s v : State} {new : List TraceEntry} (k1 : v.rest = s.rest)
    (k4 : Memory.wf v.rxBuf = true)
    (k5 : ∀ a, v.rxCnt ≤ a → Memory.read v.rxBuf a = Memory.read s.rxBuf a)
    (k5' : ∀ e ∈ v.rxBuf, e.1 < s.expLen ∨ e ∈ s.rxBuf) (k6 : v.rxCnt ≤ s.expLen)
    (htr : v.trace = s.trace ++ new) (hall : Orderly s.life new)
    (hw : writtenBytes new = Memory.load s.txBuf 0 s.txLen)
    (hl : Memory.load v.rxBuf 0 v.rxCnt = deliveredBytes new)
    (k7 : v.de = .low) (k8 : v.re = .low)
    (hs : v.status = s.status ∧ v.errExp = s.errExp ∧ v.errAct = s.errAct ∧ v.resValid = s.resValid) :
    TransactCan s (checkLength v) := by
  have gexp : v.expLen = s.expLen := (State.rest_fields k1).2.1
  have hgo : (State.goto .receiveMode v).rest = s.rest := by
    rw [← k1]; simp only [State.rest, State.goto_keeps]
  have hlen : v.rxCnt = (deliveredBytes new).length := by rw [← hl, Memory.load_length]
  rw [hlen] at k5
  unfold checkLength
  simp only [State.goto_keeps, gexp]
  split
  · rename_i hshort
    refine ⟨?_, k4, k5', rfl, ⟨new, htr, hall, ⟨[], by rw [List.append_nil, hw]⟩, hlen ▸ k6, k5,
      fun _ h => by simp at h⟩, fun _ h => by simp at h, ?_⟩
    · rw [← hgo]; simp only [State.rest, Flow.raised_state, State.raise_keeps]
    · intro t h
      rw [← Flow.raised.inj h]
      exact ⟨rfl, .inr (.inr ⟨rfl, rfl, rfl, hshort, k7, k8⟩)⟩
  · rename_i hfull
    have hcnt : v.rxCnt = s.expLen := Nat.le_antisymm k6 (Nat.le_of_not_lt hfull)
    refine ⟨hgo, k4, k5', rfl, ⟨new, htr, hall, ⟨[], by rw [List.append_nil, hw]⟩, hlen ▸ k6, k5, ?_⟩, ?_, fun _ h => by simp at h⟩
    · intro t h
      rw [← Flow.running.inj h]
      exact ⟨hw, by simp only [State.goto_keeps]; rw [← hcnt, hl]⟩
    · intro t h
      rw [← Flow.running.inj h]
      simp only [State.goto_keeps]
      exact ⟨k7, k8, hcnt, hs⟩

/-- R145, R147: everything `Transact` can do, from any state. -/
theorem transact_spec (s : State) (hwf : Memory.wf s.rxBuf = true) : TransactCan s (transact s) := by
  rw [transact_eq]
  cases hloop : transmitBytes s.txLen s.transmitStart with
  | raised u => exact transactCan_aborted hwf hloop
  | running u =>
    obtain ⟨f1, _, _, _, _, f6, f7, f8, f9, f10, f11, f12, f13, f14, f15, f16⟩ := State.transmitStart_fields s
    obtain ⟨h1, h2, _, _, _, ⟨new, hn, hd, _, hw, he⟩, hr, _⟩ :=
      transmitBytes_spec s.txLen s.transmitStart f14 f15 f16
    obtain ⟨new0, htr0, hw0, hd0, he0⟩ := State.transmitStart_trace s
    obtain ⟨r1, r2, r3, _, r5, r6, r7, r8⟩ := hr u hloop
    have hw := hw u hloop
    rw [hloop, Flow.running_state] at h1 h2 hn
    rw [f1] at h2
    rw [f6, f7] at hw
    rw [f9] at he
    rw [f10] at r5
    rw [f11] at r6
    rw [f12] at r7
    rw [f13] at r8
    rw [State.transmitStart_rest] at h1
    obtain ⟨g1, g2, _⟩ := State.rest_fields h1
    obtain ⟨e1, e2, e3, _, _, e6, e7, e8, e9, e10, e11, e12, e13⟩ := enterReceive_fields u
    obtain ⟨new1, htr1, hw1, hd1, he1⟩ := enterReceive_trace u r1 r2 r3
    have hrest := enterReceive_rest u
    rw [g2] at e1
    rw [g1] at e2 he1
    rw [h2] at e3
    rw [r5] at e6
    rw [r6] at e7
    rw [r7] at e8
    rw [r8] at e9
    rw [h1] at hrest
    simp only [Flow.running_andThen, g2]
    generalize State.enterReceive (State.delay .postFrame u) = v at *
    obtain ⟨k1, _, _, k4, k5, k5', k6, ⟨new2, hn2, hw2, hl2, he2⟩, k7, k8, kr, kx⟩ :=
      receiveLoop_spec s.expLen v e11 e12 e13 (by rw [e10]; exact Nat.zero_le _) (by rw [e3]; exact hwf)
    rw [hrest] at k1
    rw [e1] at k5' k6
    rw [e3] at k5 k5'
    rw [e10] at hl2
    rw [e2] at he2
    have htr : (receiveLoop s.expLen v).state.trace = s.trace ++ (new0 ++ new ++ new1 ++ new2) := by
      rw [hn2, htr1, hn, htr0]; simp only [List.append_assoc]
    have hall : Orderly s.life (new0 ++ new ++ new1 ++ new2) :=
      Orderly.append (Orderly.append (Orderly.append he0 he) he1) he2
    have hwall : writtenBytes (new0 ++ new ++ new1 ++ new2) = Memory.load s.txBuf 0 s.txLen := by
      simp only [writtenBytes_append, hw0, hw, hw1, hw2, List.nil_append, List.append_nil]
    have hdall : deliveredBytes (new0 ++ new ++ new1 ++ new2) = deliveredBytes new2 := by
      simp only [deliveredBytes_append, hd0, hd, hd1, List.nil_append]
    have hl2' : Memory.load (receiveLoop s.expLen v).state.rxBuf 0 (receiveLoop s.expLen v).state.rxCnt =
        deliveredBytes new2 := hl2
    have hlen : (receiveLoop s.expLen v).state.rxCnt = (deliveredBytes new2).length := by
      rw [← hl2', Memory.load_length]
    cases hrl : receiveLoop s.expLen v with
    | raised w =>
      rw [hrl, Flow.raised_state] at k1 k4 k5 k5' k6 k7 k8 htr hlen
      obtain ⟨x1, x2, x3, x4, x5⟩ := kx w hrl
      rw [e1] at x3
      rw [hlen] at k5 k6
      rw [← hdall] at k5 k6
      refine ⟨k1, k4, k5', x1, ⟨_, htr, hall, ⟨[], by rw [List.append_nil, hwall]⟩, k6, k5, fun _ h => by simp at h⟩, fun _ h => by simp at h, ?_⟩
      intro t h
      rw [← Flow.raised.inj h]
      exact ⟨x5, .inr (.inl ⟨x2, x3, x4, k7, k8⟩)⟩
    | running w =>
      rw [hrl, Flow.running_state] at k1 k4 k5 k5' k6 k7 k8 htr hl2'
      rw [← hdall] at hl2'
      obtain ⟨_, y2, y3, y4, y5⟩ := kr w hrl
      refine transactCan_checked k1 k4 k5 k5' k6 htr hall hwall hl2' k7 k8 ?_
      rw [y2, y3, y4, y5]
      exact ⟨e6, e7, e8, e9⟩

end Sys2Proof.Machine
end

