-- ==== Sys2Proof/Laws/Bus.lean ====
section
/-! SUPPORT. Laws/Bus.lean: the eight bus operations in one shape: prepare the request, `Transact`, judge the
response (43_read_ops.md R175, 44_write_ops.md R185); what each part can do, said once. -/

namespace Sys2Proof.Machine

/-- What a bus operation writes before its first event. -/
def prepared (s : State) : Instr → State
  | .readCoils slave start count => State.readRequest 0x01#8 slave start count s
  | .readDiscreteInputs slave start count => State.readRequest 0x02#8 slave start count s
  | .readHoldingRegisters slave start count => State.readRequest 0x03#8 slave start count s
  | .readInputRegisters slave start count => State.readRequest 0x04#8 slave start count s
  | .writeCoil slave addr value => State.writeRequest 0x05#8 slave (body4 slave 0x05#8 addr (coilWord value))
      { s with reqAddr := addr, reqValue := coilWord value }
  | .writeRegister slave addr value => State.writeRequest 0x06#8 slave (body4 slave 0x06#8 addr value)
      { s with reqAddr := addr, reqValue := value }
  | .writeMultipleCoils slave start values => State.writeRequest 0x0F#8 slave (bodyWMC slave start values)
      { s with reqAddr := start, reqCount := BitVec.ofNat 16 values.length, reqBits := values }
  | .writeMultipleRegisters slave start values => State.writeRequest 0x10#8 slave (bodyWMR slave start values)
      { s with reqAddr := start, reqCount := BitVec.ofNat 16 values.length, reqRegs := values }
  | .construct _ _ _ _ => s
  | .close => s
  | .crcReset => s
  | .crcUpdate _ => s

/-- The successful end of a bus operation. -/
def decoded (t : State) (rsp : List Byte) : Instr → State
  | .readCoils _ _ count => State.decodeRead 0x01#8 count rsp t
  | .readDiscreteInputs _ _ count => State.decodeRead 0x02#8 count rsp t
  | .readHoldingRegisters _ _ count => State.decodeRead 0x03#8 count rsp t
  | .readInputRegisters _ _ count => State.decodeRead 0x04#8 count rsp t
  | .writeCoil _ _ _ => State.succeed .nothing t
  | .writeRegister _ _ _ => State.succeed .nothing t
  | .writeMultipleCoils _ _ _ => State.succeed .nothing t
  | .writeMultipleRegisters _ _ _ => State.succeed .nothing t
  | .construct _ _ _ _ => t
  | .close => t
  | .crcReset => t
  | .crcUpdate _ => t

/-- What a bus operation does with a complete response. -/
def judged (p : Params) (i : Instr) (t : State) : Flow :=
  (validate t.response i.slaveByte i.functionCode t).andThen fun u =>
    (if i.echoes p then echoCheck t.response u else .running u).andThen fun v => .running (decoded v t.response i)

/-- R175, R185: every bus operation on an open instance is its request, `Transact`, and its judgement. -/
theorem exec_bus {i : Instr} {s : State} (hbus : i.isBusOp = true) (hwf : i.WellFormed) (hopen : s.life = .opened) :
    exec i s = finish s ((transact (prepared s i)).andThen (judged s.params i)).state := by
  cases i with
  | readCoils slave start count =>
    simp only [exec, execReadCoils, execRead, if_pos hopen]; rfl
  | readDiscreteInputs slave start count =>
    simp only [exec, execReadDiscreteInputs, execRead, if_pos hopen]; rfl
  | readHoldingRegisters slave start count =>
    simp only [exec, execReadHoldingRegisters, execRead, if_pos hopen]; rfl
  | readInputRegisters slave start count =>
    simp only [exec, execReadInputRegisters, execRead, if_pos hopen]; rfl
  | writeCoil slave addr value =>
    simp only [exec, execWriteCoil, execWrite, if_pos hopen]; rfl
  | writeRegister slave addr value =>
    simp only [exec, execWriteRegister, execWrite, if_pos hopen]; rfl
  | writeMultipleCoils slave start values =>
    have h : values.length ≤ Config.maxCoilsWrite := by simpa [Instr.WellFormed, Instr.wellFormed] using hwf
    simp only [exec, execWriteMultipleCoils, execWrite, if_pos hopen, if_pos h]; rfl
  | writeMultipleRegisters slave start values =>
    have h : values.length ≤ Config.maxRegsWrite := by simpa [Instr.WellFormed, Instr.wellFormed] using hwf
    simp only [exec, execWriteMultipleRegisters, execWrite, if_pos hopen, if_pos h]; rfl
  | construct => cases hbus
  | close => cases hbus
  | crcReset => cases hbus
  | crcUpdate => cases hbus

/-! The request. -/

/-- What stands before the first event: the descriptor's slave and function code, the frame, its length, the
expected length of the response, and the CRC of the body. -/
theorem prepared_sets {i : Instr} (s : State) (hbus : i.isBusOp = true) :
    (prepared s i).reqSlave = i.slaveByte ∧ (prepared s i).reqFc = i.functionCode ∧
    (prepared s i).txBuf = Memory.store s.txBuf 0 (requestFrame i) ∧
    (prepared s i).txLen = (requestFrame i).length ∧ (prepared s i).expLen = i.responseLength ∧
    (prepared s i).crc = crc16 (encode i) := by
  cases i with
  | construct => cases hbus
  | close => cases hbus
  | crcReset => cases hbus
  | crcUpdate => cases hbus
  | _ => exact ⟨rfl, rfl, rfl, rfl, rfl, rfl⟩

theorem prepared_keeps (s : State) (i : Instr) :
    (prepared s i).life = s.life ∧ (prepared s i).serOpen = s.serOpen ∧ (prepared s i).gpioOpen = s.gpioOpen ∧
    (prepared s i).cfgPort = s.cfgPort ∧ (prepared s i).cfgBaud = s.cfgBaud ∧ (prepared s i).cfgDeId = s.cfgDeId ∧
    (prepared s i).cfgReId = s.cfgReId ∧ (prepared s i).de = s.de ∧ (prepared s i).re = s.re ∧
    (prepared s i).seq = s.seq ∧ (prepared s i).txIdx = s.txIdx ∧ (prepared s i).rxBuf = s.rxBuf ∧
    (prepared s i).rxCnt = s.rxCnt ∧ (prepared s i).status = s.status ∧ (prepared s i).errExp = s.errExp ∧
    (prepared s i).errAct = s.errAct ∧ (prepared s i).resBits = s.resBits ∧ (prepared s i).resRegs = s.resRegs ∧
    (prepared s i).resValid = s.resValid ∧ (prepared s i).params = s.params ∧
    (prepared s i).rxQueue = s.rxQueue ∧ (prepared s i).openAns = s.openAns ∧
    (prepared s i).flushAns = s.flushAns ∧ (prepared s i).gpioAns = s.gpioAns ∧
    (prepared s i).configAns = s.configAns ∧ (prepared s i).writeAns = s.writeAns ∧
    (prepared s i).readAns = s.readAns ∧ (prepared s i).free = s.free ∧
    (prepared s i).answersLeft = s.answersLeft ∧ (prepared s i).trace = s.trace ∧
    (prepared s i).pending = s.pending ∧ (prepared s i).control = s.control := by
  cases i <;> simp only [prepared, State.readRequest, State.writeRequest, State.buildFrame, State.crcOver, and_self]

theorem responseLength_bounds {i : Instr} (hbus : i.isBusOp = true) :
    5 ≤ i.responseLength ∧ i.responseLength ≤ Config.rxBufCap := by
  cases i with
  | construct => cases hbus
  | close => cases hbus
  | crcReset => cases hbus
  | crcUpdate => cases hbus
  | readCoils _ _ count => have := count.isLt; simp only [Instr.responseLength, Config.rxBufCap]; omega
  | readDiscreteInputs _ _ count => have := count.isLt; simp only [Instr.responseLength, Config.rxBufCap]; omega
  | readHoldingRegisters _ _ count => have := count.isLt; simp only [Instr.responseLength, Config.rxBufCap]; omega
  | readInputRegisters _ _ count => have := count.isLt; simp only [Instr.responseLength, Config.rxBufCap]; omega
  | _ => simp only [Instr.responseLength, Config.rxBufCap]; omega

/-- R92: the bounds of TXLEN. -/
theorem requestFrame_bounds {i : Instr} (hbus : i.isBusOp = true) (hwf : i.WellFormed) :
    8 ≤ (requestFrame i).length ∧ (requestFrame i).length ≤ Config.txBufCap := by
  cases i with
  | construct => cases hbus
  | close => cases hbus
  | crcReset => cases hbus
  | crcUpdate => cases hbus
  | writeMultipleCoils _ _ values =>
    have h : values.length ≤ Config.maxCoilsWrite := by simpa [Instr.WellFormed, Instr.wellFormed] using hwf
    simp only [Config.maxCoilsWrite] at h
    simp only [requestFrame, appendCrc_length, encode, bodyWMC_length, ceil8, Config.txBufCap]
    omega
  | writeMultipleRegisters _ _ values =>
    have h : values.length ≤ Config.maxRegsWrite := by simpa [Instr.WellFormed, Instr.wellFormed] using hwf
    simp only [Config.maxRegsWrite] at h
    simp only [requestFrame, appendCrc_length, encode, bodyWMR_length, Config.txBufCap]
    omega
  | _ => simp only [requestFrame, appendCrc_length, encode, body4_length, Config.txBufCap]; omega

/-- The frame stands whole in TXBUF before the first event (R146). -/
theorem prepared_frame {i : Instr} {s : State} (hbus : i.isBusOp = true) (hwf : Memory.wf s.txBuf = true) :
    Memory.load (prepared s i).txBuf 0 (prepared s i).txLen = requestFrame i := by
  obtain ⟨_, _, h1, h2, _⟩ := prepared_sets s hbus
  rw [h1, h2, Memory.load_store 0 _ hwf]

/-! The judgement. -/

/-- The state without what judging a response may write. -/
def State.ungraded (s : State) : State :=
  { s with crc := 0#16, status := .ok, errExp := 0, errAct := 0, resBits := [], resRegs := [], resValid := .nothing }

/-- R130, R131, R116: everything `Validate` can do. -/
theorem validate_cases (rsp : List Byte) (slave fc : Byte) (s : State) :
    (byteAt rsp 0 ≠ slave ∧
      validate rsp slave fc s = .raised (s.raise .protocolMismatchError slave.toNat (byteAt rsp 0).toNat)) ∨
    (byteAt rsp 0 = slave ∧ byteAt rsp 1 ≠ fc ∧
      validate rsp slave fc s = .raised (s.raise .protocolMismatchError fc.toNat (byteAt rsp 1).toNat)) ∨
    (byteAt rsp 0 = slave ∧ byteAt rsp 1 = fc ∧ receivedCrc rsp ≠ computedCrc rsp ∧
      validate rsp slave fc s = .raised (State.raise .crcError (computedCrc rsp).toNat (receivedCrc rsp).toNat
        { s with crc := computedCrc rsp })) ∨
    (byteAt rsp 0 = slave ∧ byteAt rsp 1 = fc ∧ receivedCrc rsp = computedCrc rsp ∧
      validate rsp slave fc s = .running { s with crc := computedCrc rsp }) := by
  by_cases h0 : byteAt rsp 0 = slave
  · by_cases h1 : byteAt rsp 1 = fc
    · by_cases hc : receivedCrc rsp = computedCrc rsp
      · refine .inr (.inr (.inr ⟨h0, h1, hc, ?_⟩))
        rw [validate, if_neg (by simpa using h0), if_neg (by simpa using h1), checkCrc]
        exact if_pos hc
      · refine .inr (.inr (.inl ⟨h0, h1, hc, ?_⟩))
        rw [validate, if_neg (by simpa using h0), if_neg (by simpa using h1), checkCrc]
        exact if_neg hc
    · exact .inr (.inl ⟨h0, h1, by rw [validate, if_neg (by simpa using h0), if_pos h1]⟩)
  · exact .inl ⟨h0, by rw [validate, if_pos h0]⟩

/-- R135: the first difference among the listed offsets. -/
theorem firstDiff_none {a b : List Byte} {offs : List Nat} :
    firstDiff a b offs = none ↔ ∀ i ∈ offs, byteAt a i = byteAt b i := by
  induction offs with
  | nil => simp [firstDiff]
  | cons i rest ih =>
    rw [firstDiff]
    split
    · rename_i h; simp [ih, h]
    · rename_i h; simp [h]

/-- R135: everything `EchoCheck` can do. -/
theorem echoCheck_cases (rsp : List Byte) (s : State) :
    ((∀ i < 6, Memory.read s.txBuf i = byteAt rsp i) ∧ echoCheck rsp s = .running s) ∨
    (∃ i, i < 6 ∧ Memory.read s.txBuf i ≠ byteAt rsp i ∧
      (∀ j < i, Memory.read s.txBuf j = byteAt rsp j) ∧
      echoCheck rsp s = .raised
        (s.raise .protocolMismatchError (Memory.read s.txBuf i).toNat (byteAt rsp i).toNat)) := by
  have hbyte : ∀ i < 6, byteAt (Memory.load s.txBuf 0 6) i = Memory.read s.txBuf i := by
    intro i hi
    simp only [byteAt, List.getD_eq_getElem?_getD]
    rw [List.getElem?_eq_getElem (by simpa using hi), Memory.load_getElem]
    simp
  have hstep : ∀ k n, k + n = 6 → (∀ j < k, Memory.read s.txBuf j = byteAt rsp j) →
      firstDiff (Memory.load s.txBuf 0 6) rsp (List.range' k n) = none ∧
        (∀ i < 6, Memory.read s.txBuf i = byteAt rsp i) ∨
      ∃ i, i < 6 ∧ Memory.read s.txBuf i ≠ byteAt rsp i ∧ (∀ j < i, Memory.read s.txBuf j = byteAt rsp j) ∧
        firstDiff (Memory.load s.txBuf 0 6) rsp (List.range' k n) = some i := by
    intro k n
    induction n generalizing k with
    | zero =>
      intro hk hall
      exact .inl ⟨rfl, fun i hi => hall i (by omega)⟩
    | succ n ih =>
      intro hk hall
      by_cases heq : Memory.read s.txBuf k = byteAt rsp k
      · have := ih (k + 1) (by omega) (by
          intro j hj
          by_cases h : j = k
          · exact h ▸ heq
          · exact hall j (by omega))
        simpa only [List.range'_succ, firstDiff, hbyte k (by omega), heq, if_true] using this
      · refine .inr ⟨k, by omega, heq, hall, ?_⟩
        rw [List.range'_succ, firstDiff, hbyte k (by omega), if_neg heq]
  unfold echoCheck
  rw [List.range_eq_range']
  rcases hstep 0 6 rfl (fun j hj => by omega) with ⟨h, hall⟩ | ⟨i, hi, hne, hall, h⟩
  · exact .inl ⟨hall, by simp only [h]⟩
  · exact .inr ⟨i, hi, hne, hall, by simp only [h, hbyte i hi]⟩

@[simp] theorem ungraded_raise (k : Status) (a b : Nat) (s : State) : (s.raise k a b).ungraded = s.ungraded := by
  simp only [State.ungraded, State.raise]

@[simp] theorem ungraded_crc (c : Word) (s : State) : State.ungraded { s with crc := c } = s.ungraded := by
  simp only [State.ungraded]

@[simp] theorem ungraded_decoded (s : State) (rsp : List Byte) (i : Instr) : (decoded s rsp i).ungraded = s.ungraded := by
  cases i <;> rfl

@[simp] theorem decoded_status {i : Instr} (s : State) (rsp : List Byte) (hbus : i.isBusOp = true) :
    (decoded s rsp i).status = .ok ∧ (decoded s rsp i).resValid = i.resultKind := by
  cases i with
  | construct => cases hbus
  | close => cases hbus
  | crcReset => cases hbus
  | crcUpdate => cases hbus
  | _ => exact ⟨rfl, rfl⟩

@[simp] theorem decoded_keeps (s : State) (rsp : List Byte) (i : Instr) :
    (decoded s rsp i).errExp = s.errExp ∧ (decoded s rsp i).errAct = s.errAct ∧ (decoded s rsp i).crc = s.crc := by
  cases i <;> exact ⟨rfl, rfl, rfl⟩

/-- The four errors of a complete response `rsp` to `i` (R130, R135), in the state `t` they leave, and what
success needs; `u` is the state `Transact` left. -/
def Graded (p : Params) (i : Instr) (u : State) (rsp : List Byte) (f : Flow) : Prop :=
  (byteAt rsp 0 ≠ i.slaveByte ∧
    f = .raised (u.raise .protocolMismatchError i.slaveByte.toNat (byteAt rsp 0).toNat)) ∨
  (byteAt rsp 0 = i.slaveByte ∧ byteAt rsp 1 ≠ i.functionCode ∧
    f = .raised (u.raise .protocolMismatchError i.functionCode.toNat (byteAt rsp 1).toNat)) ∨
  (byteAt rsp 0 = i.slaveByte ∧ byteAt rsp 1 = i.functionCode ∧ receivedCrc rsp ≠ computedCrc rsp ∧
    f = .raised (State.raise .crcError (computedCrc rsp).toNat (receivedCrc rsp).toNat
      { u with crc := computedCrc rsp })) ∨
  (byteAt rsp 0 = i.slaveByte ∧ byteAt rsp 1 = i.functionCode ∧ receivedCrc rsp = computedCrc rsp ∧
    i.echoes p = true ∧ ∃ k, k < 6 ∧ Memory.read u.txBuf k ≠ byteAt rsp k ∧
      (∀ j < k, Memory.read u.txBuf j = byteAt rsp j) ∧
      f = .raised (State.raise .protocolMismatchError (Memory.read u.txBuf k).toNat (byteAt rsp k).toNat
        { u with crc := computedCrc rsp })) ∨
  (byteAt rsp 0 = i.slaveByte ∧ byteAt rsp 1 = i.functionCode ∧ receivedCrc rsp = computedCrc rsp ∧
    (i.echoes p = true → ∀ k < 6, Memory.read u.txBuf k = byteAt rsp k) ∧
    f = .running (decoded { u with crc := computedCrc rsp } rsp i))

/-- R130, R131, R135: everything judging a response can do. -/
theorem judged_cases (p : Params) (i : Instr) (u : State) : Graded p i u u.response (judged p i u) := by
  unfold judged Graded
  generalize u.response = rsp
  rcases validate_cases rsp i.slaveByte i.functionCode u with ⟨h0, h⟩ | ⟨h0, h1, h⟩ | ⟨h0, h1, hc, h⟩ | ⟨h0, h1, hc, h⟩
  · exact .inl ⟨h0, by rw [h, Flow.raised_andThen]⟩
  · exact .inr (.inl ⟨h0, h1, by rw [h, Flow.raised_andThen]⟩)
  · exact .inr (.inr (.inl ⟨h0, h1, hc, by rw [h, Flow.raised_andThen]⟩))
  · rw [h, Flow.running_andThen]
    by_cases he : i.echoes p = true
    · rw [if_pos he]
      rcases echoCheck_cases rsp { u with crc := computedCrc rsp } with ⟨hall, hf⟩ | ⟨k, hk, hne, hall, hf⟩
      · exact .inr (.inr (.inr (.inr ⟨h0, h1, hc, fun _ => hall, by rw [hf, Flow.running_andThen]⟩)))
      · exact .inr (.inr (.inr (.inl ⟨h0, h1, hc, he, k, hk, hne, hall, by rw [hf, Flow.raised_andThen]⟩)))
    · rw [if_neg he]
      exact .inr (.inr (.inr (.inr ⟨h0, h1, hc, fun h => absurd h he, by rw [Flow.running_andThen]⟩)))

theorem judged_ungraded (p : Params) (i : Instr) (u : State) : (judged p i u).state.ungraded = u.ungraded := by
  rcases judged_cases p i u with ⟨_, h⟩ | ⟨_, _, h⟩ | ⟨_, _, _, h⟩ | ⟨_, _, _, _, k, _, _, _, h⟩ | ⟨_, _, _, _, h⟩ <;>
    rw [h] <;> simp

/-- Fields of two states that agree but for what judging writes. -/
theorem ungraded_fields {s t : State} (h : t.ungraded = s.ungraded) :
    t.rest.ungraded = s.rest.ungraded ∧ t.trace = s.trace ∧ t.rxBuf = s.rxBuf ∧ t.rxCnt = s.rxCnt ∧
    t.rxQueue = s.rxQueue ∧ t.seq = s.seq ∧ t.de = s.de ∧ t.re = s.re ∧ t.txBuf = s.txBuf := by
  have h1 := congrArg State.trace h
  have h2 := congrArg State.rxBuf h
  have h3 := congrArg State.rxCnt h
  have h4 := congrArg State.rxQueue h
  have h5 := congrArg State.seq h
  have h6 := congrArg State.de h
  have h7 := congrArg State.re h
  have h8 := congrArg State.txBuf h
  refine ⟨?_, h1, h2, h3, h4, h5, h6, h7, h8⟩
  have : ∀ x : State, x.rest.ungraded = x.ungraded.rest.ungraded := fun x => by simp only [State.ungraded, State.rest]
  rw [this t, this s, h]

/-- The fields neither `Transact` nor the judgement writes. -/
theorem untouched_fields {s t : State} (h : t.rest.ungraded = s.rest.ungraded) :
    t.life = s.life ∧ t.serOpen = s.serOpen ∧ t.gpioOpen = s.gpioOpen ∧ t.cfgPort = s.cfgPort ∧
    t.cfgBaud = s.cfgBaud ∧ t.cfgDeId = s.cfgDeId ∧ t.cfgReId = s.cfgReId ∧ t.reqSlave = s.reqSlave ∧
    t.reqFc = s.reqFc ∧ t.reqAddr = s.reqAddr ∧ t.reqCount = s.reqCount ∧ t.reqValue = s.reqValue ∧
    t.reqBits = s.reqBits ∧ t.reqRegs = s.reqRegs ∧ t.txBuf = s.txBuf ∧ t.txLen = s.txLen ∧
    t.expLen = s.expLen ∧ t.params = s.params ∧ t.openAns = s.openAns ∧ t.flushAns = s.flushAns ∧
    t.gpioAns = s.gpioAns ∧ t.configAns = s.configAns ∧ t.answersLeft = s.answersLeft ∧
    t.pending = s.pending ∧ t.control = s.control := by
  have h0 := congrArg State.life h
  have h1 := congrArg State.serOpen h
  have h2 := congrArg State.gpioOpen h
  have h3 := congrArg State.cfgPort h
  have h4 := congrArg State.cfgBaud h
  have h5 := congrArg State.cfgDeId h
  have h6 := congrArg State.cfgReId h
  have h7 := congrArg State.reqSlave h
  have h8 := congrArg State.reqFc h
  have h9 := congrArg State.reqAddr h
  have h10 := congrArg State.reqCount h
  have h11 := congrArg State.reqValue h
  have h12 := congrArg State.reqBits h
  have h13 := congrArg State.reqRegs h
  have h14 := congrArg State.txBuf h
  have h15 := congrArg State.txLen h
  have h16 := congrArg State.expLen h
  have h17 := congrArg State.params h
  have h18 := congrArg State.openAns h
  have h19 := congrArg State.flushAns h
  have h20 := congrArg State.gpioAns h
  have h21 := congrArg State.configAns h
  have h22 := congrArg State.answersLeft h
  have h23 := congrArg State.pending h
  have h24 := congrArg State.control h
  exact ⟨h0, h1, h2, h3, h4, h5, h6, h7, h8, h9, h10, h11, h12, h13, h14, h15, h16, h17, h18, h19, h20, h21, h22, h23,
    h24⟩

/-- Everything a bus operation `i` begun in `s` can do, `f` being how it ends: what `Transact` does (the first
five fields), and either an error of `Transact` or a judged response. -/
structure BusCan (s : State) (i : Instr) (f : Flow) : Prop where
  rest : f.state.rest.ungraded = (prepared s i).rest.ungraded
  wf : Memory.wf f.state.rxBuf = true
  listed : ∀ e ∈ f.state.rxBuf, e.1 < i.responseLength ∨ e ∈ s.rxBuf
  seq : f.state.seq = .receiveMode
  trace : ∃ new, f.state.trace = s.trace ++ new ∧ Orderly s.life new ∧ writtenBytes new <+: requestFrame i ∧
    (deliveredBytes new).length ≤ i.responseLength ∧
    (∀ a, (deliveredBytes new).length ≤ a → Memory.read f.state.rxBuf a = Memory.read s.rxBuf a) ∧
    ((∃ t, f = .raised t ∧ transact (prepared s i) = .raised t ∧ TransactRaised (prepared s i) t ∧
        t.resBits = s.resBits ∧ t.resRegs = s.resRegs ∧ t.crc = crc16 (encode i)) ∨
     (∃ u, transact (prepared s i) = .running u ∧ Graded s.params i u (deliveredBytes new) f ∧
        f = judged s.params i u ∧ writtenBytes new = requestFrame i ∧
        (deliveredBytes new).length = i.responseLength ∧
        Memory.load f.state.rxBuf 0 i.responseLength = deliveredBytes new ∧
        u.de = .low ∧ u.re = .low ∧ u.rxCnt = i.responseLength ∧ u.resBits = s.resBits ∧ u.resRegs = s.resRegs ∧
        u.txBuf = Memory.store s.txBuf 0 (requestFrame i) ∧ u.errExp = s.errExp ∧ u.errAct = s.errAct ∧
        u.crc = crc16 (encode i)))

/-- R175, R185: everything a bus operation can do. -/
theorem bus_spec {s : State} {i : Instr} (hbus : i.isBusOp = true) (htx : Memory.wf s.txBuf = true)
    (hrx : Memory.wf s.rxBuf = true) :
    BusCan s i ((transact (prepared s i)).andThen (judged s.params i)) := by
  obtain ⟨_, _, p3, p4, p5, p6⟩ := prepared_sets s hbus
  have pframe := prepared_frame (i := i) hbus htx
  obtain ⟨kl, _, _, _, _, _, _, _, _, _, _, krx, _, _, kee, kea, krb, krr, _, _, _, _, _, _, _, _, _, _, _, ktr, _⟩ :=
    prepared_keeps s i
  have can := transact_spec (prepared s i) (by rw [krx]; exact hrx)
  obtain ⟨c1, c2, c3, c4, ⟨new, n1, n2, n3, n4, n5, n7⟩, cdone, cfail⟩ := can
  rw [p5] at c3 n4
  rw [krx] at c3 n5
  rw [ktr] at n1
  rw [kl] at n2
  rw [pframe] at n3 n7
  have restfields : ∀ t : State, t.rest = (prepared s i).rest →
      t.resBits = s.resBits ∧ t.resRegs = s.resRegs ∧ t.crc = crc16 (encode i) := by
    intro t h
    have h1 := congrArg State.resBits h
    have h2 := congrArg State.resRegs h
    have h3 := congrArg State.crc h
    exact ⟨h1.trans krb, h2.trans krr, h3.trans p6⟩
  cases hf : transact (prepared s i) with
  | raised t =>
    rw [hf, Flow.raised_state] at c1 c2 c3 c4 n1 n5
    have hraised := cfail t hf
    obtain ⟨r1, r2, r3⟩ := restfields t c1
    exact ⟨by rw [Flow.raised_andThen, Flow.raised_state, c1], c2, c3, c4,
      ⟨new, n1, n2, n3, n4, n5, .inl ⟨t, rfl, hf, hraised, r1, r2, r3⟩⟩⟩
  | running u =>
    rw [hf, Flow.running_state] at c1 c2 c3 c4 n1 n5
    obtain ⟨d1, d2, d3, d4, d5, d6, d7⟩ := cdone u hf
    obtain ⟨hw, hl⟩ := n7 u hf
    rw [p5] at hl d3
    obtain ⟨r1, r2, r3⟩ := restfields u c1
    have hexp : u.expLen = i.responseLength := (State.rest_fields c1).2.1.trans p5
    have hrsp : u.response = deliveredBytes new := by rw [State.response, hexp, hl]
    have hgraded := judged_cases s.params i u
    rw [hrsp] at hgraded
    obtain ⟨g1, g2, g3, g4, g5, g6, g7, g8, g9⟩ := ungraded_fields (judged_ungraded s.params i u)
    have hlen : (deliveredBytes new).length = i.responseLength := by rw [← hl, Memory.load_length]
    rw [Flow.running_andThen]
    refine ⟨by rw [g1, c1], by rw [g3]; exact c2, fun e he => c3 e (by rw [← g3]; exact he), by rw [g6, c4],
      ⟨new, by rw [g2, n1], n2, n3, n4, fun a ha => by rw [g3]; exact n5 a ha,
        .inr ⟨u, hf, hgraded, rfl, hw, hlen, by rw [g3, hl], d1, d2, d3, r1, r2, ?_, d5.trans kee, d6.trans kea,
          r3⟩⟩⟩
    exact (State.rest_fields c1).2.2.1.trans p3

/-! From an outcome of exec back to the parts. -/

/-- A bus operation that ended was well formed and its instance open (R98). -/
theorem exec_bus_open {i : Instr} {s t : State} (hbus : i.isBusOp = true) (h : exec i s = .next t) :
    s.life = .opened ∧ i.WellFormed := by
  cases i with
  | construct => cases hbus
  | close => cases hbus
  | crcReset => cases hbus
  | crcUpdate => cases hbus
  | readCoils slave start count =>
    by_cases ho : s.life = .opened
    · exact ⟨ho, rfl⟩
    · simp only [exec, execReadCoils, execRead, if_neg ho] at h; cases h
  | readDiscreteInputs slave start count =>
    by_cases ho : s.life = .opened
    · exact ⟨ho, rfl⟩
    · simp only [exec, execReadDiscreteInputs, execRead, if_neg ho] at h; cases h
  | readHoldingRegisters slave start count =>
    by_cases ho : s.life = .opened
    · exact ⟨ho, rfl⟩
    · simp only [exec, execReadHoldingRegisters, execRead, if_neg ho] at h; cases h
  | readInputRegisters slave start count =>
    by_cases ho : s.life = .opened
    · exact ⟨ho, rfl⟩
    · simp only [exec, execReadInputRegisters, execRead, if_neg ho] at h; cases h
  | writeCoil slave addr value =>
    by_cases ho : s.life = .opened
    · exact ⟨ho, rfl⟩
    · simp only [exec, execWriteCoil, execWrite, if_neg ho] at h; cases h
  | writeRegister slave addr value =>
    by_cases ho : s.life = .opened
    · exact ⟨ho, rfl⟩
    · simp only [exec, execWriteRegister, execWrite, if_neg ho] at h; cases h
  | writeMultipleCoils slave start values =>
    by_cases hn : values.length ≤ Config.maxCoilsWrite
    · by_cases ho : s.life = .opened
      · exact ⟨ho, decide_eq_true hn⟩
      · simp only [exec, execWriteMultipleCoils, execWrite, if_neg ho, if_pos hn] at h; cases h
    · simp only [exec, execWriteMultipleCoils, if_neg hn] at h; cases h
  | writeMultipleRegisters slave start values =>
    by_cases hn : values.length ≤ Config.maxRegsWrite
    · by_cases ho : s.life = .opened
      · exact ⟨ho, decide_eq_true hn⟩
      · simp only [exec, execWriteMultipleRegisters, execWrite, if_neg ho, if_pos hn] at h; cases h
    · simp only [exec, execWriteMultipleRegisters, if_neg hn] at h; cases h

/-- What a bus operation's flow leaves alone, whatever the buffers hold. -/
theorem flow_rest (s : State) (i : Instr) :
    ((transact (prepared s i)).andThen (judged s.params i)).state.rest.ungraded = (prepared s i).rest.ungraded := by
  have h := transact_rest (prepared s i)
  cases hf : transact (prepared s i) with
  | raised t => rw [hf, Flow.raised_state] at h; rw [Flow.raised_andThen, Flow.raised_state, h]
  | running u =>
    rw [hf, Flow.running_state] at h
    rw [Flow.running_andThen, (ungraded_fields (judged_ungraded s.params i u)).1, h]

/-- R161: the one error of the receive loop, whatever the buffers hold. -/
theorem receiveLoop_raised {fuel : Nat} {s t : State} (h : receiveLoop fuel s = .raised t) :
    t.status = .transportError ∧ t.resValid = .nothing := by
  induction fuel generalizing s with
  | zero => cases h
  | succ fuel ih =>
    rw [receiveLoop_succ] at h
    split at h
    · split at h
      · exact ih h
      · cases h
      · cases h
      · rw [← Flow.raised.inj h]; exact ⟨rfl, rfl⟩
    · cases h

/-- R155, R161, R163: the kinds of error `Transact` raises, whatever the buffers hold. -/
theorem transact_raised {s t : State} (h : transact s = .raised t) :
    (t.status = .transportError ∨ t.status = .timeoutError) ∧ t.resValid = .nothing := by
  rw [transact_eq] at h
  rcases Flow.andThen_eq_raised.1 h with h | ⟨u, _, h⟩
  · obtain ⟨_, _, _, _, _, _, _, _, _, _, _, _, _, f14, f15, f16⟩ := State.transmitStart_fields s
    obtain ⟨_, _, _, _, _, _, _, hx⟩ := transmitBytes_spec s.txLen s.transmitStart f14 f15 f16
    exact ⟨.inl (hx t h).2.1, (hx t h).2.2.2.2.1⟩
  · rcases Flow.andThen_eq_raised.1 h with h | ⟨v, _, h⟩
    · exact ⟨.inl (receiveLoop_raised h).1, (receiveLoop_raised h).2⟩
    · unfold checkLength at h
      dsimp only at h
      split at h
      · rw [← Flow.raised.inj h]; exact ⟨.inr rfl, rfl⟩
      · cases h

/-- R130: a judged response ends in success with the operation's own result, or in one of two errors with none. -/
theorem graded_ends {p : Params} {i : Instr} {u : State} {rsp : List Byte} {f : Flow} (hbus : i.isBusOp = true)
    (h : Graded p i u rsp f) :
    (f.state.status = .ok ∧ f.state.resValid = i.resultKind) ∨
    ((f.state.status = .protocolMismatchError ∨ f.state.status = .crcError) ∧ f.state.resValid = .nothing ∧
      f.state.resBits = u.resBits ∧ f.state.resRegs = u.resRegs) := by
  rcases h with ⟨_, h⟩ | ⟨_, _, h⟩ | ⟨_, _, _, h⟩ | ⟨_, _, _, _, k, _, _, _, h⟩ | ⟨_, _, _, _, h⟩ <;> rw [h]
  · exact .inr ⟨.inl rfl, rfl, rfl, rfl⟩
  · exact .inr ⟨.inl rfl, rfl, rfl, rfl⟩
  · exact .inr ⟨.inr rfl, rfl, rfl, rfl⟩
  · exact .inr ⟨.inl rfl, rfl, rfl, rfl⟩
  · exact .inl (decoded_status _ _ hbus)

/-- R212, R213: the result kinds of a bus operation, and which result is valid, whatever the buffers hold. -/
theorem flow_status (s : State) {i : Instr} (hbus : i.isBusOp = true) :
    (((transact (prepared s i)).andThen (judged s.params i)).state.status = .ok ∧
      ((transact (prepared s i)).andThen (judged s.params i)).state.resValid = i.resultKind) ∨
    ((((transact (prepared s i)).andThen (judged s.params i)).state.status = .transportError ∨
      ((transact (prepared s i)).andThen (judged s.params i)).state.status = .timeoutError ∨
      ((transact (prepared s i)).andThen (judged s.params i)).state.status = .protocolMismatchError ∨
      ((transact (prepared s i)).andThen (judged s.params i)).state.status = .crcError) ∧
      ((transact (prepared s i)).andThen (judged s.params i)).state.resValid = .nothing) := by
  cases hf : transact (prepared s i) with
  | raised t =>
    rw [Flow.raised_andThen, Flow.raised_state]
    obtain ⟨h, hv⟩ := transact_raised hf
    rcases h with h | h
    · exact .inr ⟨.inl h, hv⟩
    · exact .inr ⟨.inr (.inl h), hv⟩
  | running u =>
    rw [Flow.running_andThen]
    rcases graded_ends hbus (judged_cases s.params i u) with h | ⟨h | h, hv, _⟩
    · exact .inl h
    · exact .inr ⟨.inr (.inr (.inl h)), hv⟩
    · exact .inr ⟨.inr (.inr (.inr h)), hv⟩

theorem flow_answersLeft (s : State) (i : Instr) :
    ((transact (prepared s i)).andThen (judged s.params i)).state.answersLeft = s.answersLeft := by
  obtain ⟨_, _, _, _, _, _, _, _, _, _, _, _, _, _, _, _, _, _, _, _, _, _, _, _, _, _, _, _, hans, _⟩ := prepared_keeps s i
  rw [← hans]
  have h := congrArg State.answersLeft (flow_rest s i)
  exact h

/-- The state a bus operation ends in: what its flow ends in, with the number of calls still answered (log 5). -/
theorem exec_bus_next {i : Instr} {s t : State} (hbus : i.isBusOp = true) (h : exec i s = .next t) :
    ∃ a, t = ((transact (prepared s i)).andThen (judged s.params i)).state.leaving a ∧
      (s.answersLeft = none → a = none) := by
  obtain ⟨ho, hw⟩ := exec_bus_open hbus h
  rw [exec_bus hbus hw ho] at h
  rcases finish_next h with ⟨_, h2⟩ | ⟨k, h1, _, h3⟩
  · exact ⟨s.answersLeft, by rw [h2, ← flow_answersLeft s i]; rfl, fun h => h⟩
  · exact ⟨_, h3, fun hn => by rw [hn] at h1; cases h1⟩

/-- Everything a bus operation that ends can do. -/
theorem exec_bus_can {s t : State} {i : Instr} (hbus : i.isBusOp = true) (hk : s.BuffersOk) (h : exec i s = .next t) :
    ∃ f a new, BusCan s i f ∧ t = f.state.leaving a ∧ newEntries s t = new ∧ t.trace = s.trace ++ new ∧
      s.life = .opened ∧ i.WellFormed := by
  obtain ⟨a, ha, _⟩ := exec_bus_next hbus h
  obtain ⟨ho, hw⟩ := exec_bus_open hbus h
  have can := bus_spec hbus hk.tx hk.rx
  obtain ⟨new, n1, _⟩ := can.trace
  have ht : t.trace = s.trace ++ new := by rw [ha]; exact n1
  exact ⟨_, a, new, can, ha, newEntries_eq ht, ht, ho, hw⟩

/-- Where every call is answered a ready bus operation ends in what its flow ends in. -/
theorem exec_ready {i : Instr} {s : State} (h : s.Ready i) :
    exec i s = .next ((transact (prepared s i)).andThen (judged s.params i)).state := by
  rw [exec_bus h.bus h.wellFormed h.opened, finish_none h.answered]

end Sys2Proof.Machine
end

