-- ==== Sys2Proof/Laws/Exchange.lean ====
section
/-! SUPPORT. Laws/Exchange.lean: what `Transact` does in an environment whose answers are known: every byte
accepted and the response delivered in given chunks (42_turnaround.md R152, R159, R163, R166). -/

namespace Sys2Proof.Machine

/-- The bytes a `Data` answer carries. -/
def Event.carried : Event → List Byte
  | .read _ (.data bs) => bs
  | _ => []

theorem deliveredBytes_events (new : List TraceEntry) :
    deliveredBytes new = (new.map (·.event)).flatMap Event.carried := by
  induction new with
  | nil => rfl
  | cons e rest ih =>
    rw [deliveredBytes, List.map_cons, List.flatMap_cons, ← ih]
    cases e.event with
    | read n r => cases r <;> rfl
    | _ => rfl

theorem carried_txEvents (frame : List Byte) : (txEvents frame).flatMap Event.carried = [] := by
  have h : (sending frame).flatMap Event.carried = [] := by
    induction frame with
    | nil => rfl
    | cons b rest ih => rw [sending, List.flatMap_cons, List.flatMap_append, ← sending, ih]; rfl
  simp only [txEvents, List.flatMap_append, h]
  rfl

theorem carried_rxEvents (n : Nat) (chunks : List (List Byte)) :
    (rxEvents n chunks).flatMap Event.carried = chunks.flatten := by
  induction chunks generalizing n with
  | nil => rfl
  | cons c rest ih => rw [rxEvents, List.flatMap_append, ih]; simp [Event.carried]

/-- R152: where every byte of the frame is accepted, `Transact` comes to its receive loop, with the events of
step 1 to the first read behind it. -/
theorem transact_sent {s : State} (hacc : s.accepts s.txLen) :
    ∃ v, transact s = (receiveLoop s.expLen v).andThen checkLength ∧ v.rest = s.rest ∧ v.seq = .receiving ∧
      v.de = .low ∧ v.re = .low ∧ v.rxCnt = 0 ∧ v.rxBuf = s.rxBuf ∧ v.rxQueue = s.rxQueue ∧
      v.readAns = s.readAns ∧ v.expLen = s.expLen ∧ v.status = s.status ∧ v.errExp = s.errExp ∧
      v.errAct = s.errAct ∧ v.resValid = s.resValid ∧
      v.events = s.events ++ txEvents (Memory.load s.txBuf 0 s.txLen) := by
  obtain ⟨more, hmore⟩ := hacc
  obtain ⟨f1, f2, f3, f4, f5, f6, f7, f8, f9, f10, f11, f12, f13, f14, f15, f16⟩ := State.transmitStart_fields s
  obtain ⟨u, hu, _, hev⟩ := transmitBytes_accepted s.txLen s.transmitStart more (by rw [f5, hmore]) f14 f15 f16
  obtain ⟨h1, h2, _, h4, h5, _, hr, _⟩ := transmitBytes_spec s.txLen s.transmitStart f14 f15 f16
  obtain ⟨r1, r2, r3, _, r5, r6, r7, r8⟩ := hr u hu
  rw [hu, Flow.running_state] at h1 h2 h4 h5
  rw [State.transmitStart_rest] at h1
  obtain ⟨e1, e2, e3, e4, e5, e6, e7, e8, e9, e10, e11, e12, e13⟩ := enterReceive_fields u
  have hexp : u.expLen = s.expLen := (State.rest_fields h1).2.1
  refine ⟨State.enterReceive (State.delay .postFrame u), ?_, (enterReceive_rest u).trans h1, e11, e12, e13, e10,
    e3.trans (h2.trans f1), e4.trans (h4.trans f3), e5.trans (h5.trans f4), e1.trans hexp, e6.trans (r5.trans f10),
    e7.trans (r6.trans f11), e8.trans (r7.trans f12), e9.trans (r8.trans f13), ?_⟩
  · rw [transact_eq, hu, Flow.running_andThen, hexp]
  · rw [f6, f7] at hev
    have hstart : s.transmitStart.events = s.events ++
        [.setRE .high, .delay .lineSettle, .setDE .high, .delay .lineSettle] := by
      simp [State.transmitStart, enterTransmit_eq, State.events]
    have hrecv : (State.enterReceive (State.delay .postFrame u)).events = u.events ++
        [.delay .postFrame, .setDE .low, .delay .lineSettle, .setRE .low, .delay .lineSettle, .delay .preReceive] := by
      simp [enterReceive_eq, State.events]
    rw [hrecv, hev, hstart, txEvents, toTransmit, toReceive, sending]
    simp only [List.append_assoc, List.cons_append, List.nil_append]

/-- R159, R166: where the frame is accepted and the response comes whole, in any chunks, `Transact` succeeds, with
exactly the events of R166, and RXBUF holds the concatenation of the chunks. -/
theorem transact_delivered {s : State} {chunks : List (List Byte)} (hwf : Memory.wf s.rxBuf = true)
    (hacc : s.accepts s.txLen) (hdel : s.delivers chunks) (hlen : chunks.flatten.length = s.expLen) :
    ∃ u, transact s = .running u ∧ u.rxQueue = [] ∧
      u.events = s.events ++ (txEvents (Memory.load s.txBuf 0 s.txLen) ++ rxEvents s.expLen chunks) ∧
      Memory.load u.rxBuf 0 s.expLen = chunks.flatten := by
  obtain ⟨hq, hne, more, hreads⟩ := hdel
  obtain ⟨v, hv, hrest, _, _, _, v0, v1, v2, v3, v4, _, _, _, _, vev⟩ := transact_sent hacc
  have hcount : chunks.length ≤ s.expLen := by
    rw [← hlen]
    clear hlen hreads
    induction chunks with
    | nil => exact Nat.zero_le _
    | cons c rest ih =>
      have hc : 0 < c.length := List.length_pos_iff.2 (hne c (by simp))
      have := ih fun d hd => hne d (by simp [hd])
      simp only [List.length_cons, List.flatten_cons, List.length_append]
      omega
  obtain ⟨t, h1, _, _, _, _, h6, _, _, _, _, _, h12, h13, h14⟩ :=
    receiveLoop_delivered chunks (s.expLen - chunks.length) v more (by rw [v2, hq]) (by rw [v3, hreads]) hne
      (by rw [v0, v4, hlen]; omega)
  rw [Nat.sub_add_cancel hcount] at h1
  have hfull : ¬ t.rxCnt < t.expLen := by rw [h13, h12, v0, v4, hlen]; omega
  have hstop : receiveLoop (s.expLen - chunks.length) t = .running t := by
    cases s.expLen - chunks.length with
    | zero => rfl
    | succ n => rw [receiveLoop_succ, if_neg hfull]
  have htr : transact s = .running (State.goto .receiveMode t) := by
    rw [hv, h1, hstop, Flow.running_andThen]
    unfold checkLength
    simp only [State.goto_keeps, if_neg hfull]
  have hev : (State.goto .receiveMode t).events = s.events ++
      (txEvents (Memory.load s.txBuf 0 s.txLen) ++ rxEvents s.expLen chunks) := by
    have : (State.goto .receiveMode t).events = t.events := by simp only [State.events, State.goto_keeps]
    rw [this, h14, vev, v0, v4, List.append_assoc, Nat.sub_zero]
  refine ⟨_, htr, by simp only [State.goto_keeps]; exact h6, hev, ?_⟩
  have can := transact_spec s hwf
  rw [htr] at can
  obtain ⟨new, n1, _, _, _, _, n7⟩ := can.trace
  rw [Flow.running_state] at n1
  rw [(n7 _ rfl).2, deliveredBytes_events]
  have hnew : new.map (·.event) = txEvents (Memory.load s.txBuf 0 s.txLen) ++ rxEvents s.expLen chunks := by
    rw [State.events, State.events, n1, List.map_append] at hev
    exact List.append_cancel_left hev
  rw [hnew, List.flatMap_append, carried_txEvents, carried_rxEvents, List.nil_append]

/-- R163: where the frame is accepted and the reads end, by `Zero` or end-of-stream, before the response is
complete, `Transact` raises TimeoutError with the two lengths. -/
theorem transact_short {s : State} {chunks : List (List Byte)} {a : Arrival} {more : List Arrival}
    (hacc : s.accepts s.txLen) (hq : s.rxQueue = []) (hne : ∀ c ∈ chunks, c ≠ [])
    (hreads : s.readAns = arrivals chunks ++ a :: more) (ha : a = .zero ∨ a = .eos)
    (hlen : chunks.flatten.length < s.expLen) :
    ∃ u r, transact s = .raised u ∧ u.status = .timeoutError ∧ u.errExp = s.expLen ∧
      u.errAct = chunks.flatten.length ∧ u.rxCnt = chunks.flatten.length ∧ u.resValid = .nothing ∧
      u.de = .low ∧ u.re = .low ∧ u.seq = .receiveMode ∧ u.rest = s.rest ∧ (r = .zero ∨ r = .eos) ∧
      u.events = s.events ++ (txEvents (Memory.load s.txBuf 0 s.txLen) ++ rxEvents s.expLen chunks ++
        [.read (s.expLen - chunks.flatten.length) r]) := by
  obtain ⟨v, hv, hrest, vseq, vde, vre, v0, v1, v2, v3, v4, _, _, _, _, vev⟩ := transact_sent hacc
  have hcount : chunks.length < s.expLen := by
    refine Nat.lt_of_le_of_lt ?_ hlen
    clear hlen hreads
    induction chunks with
    | nil => exact Nat.zero_le _
    | cons c rest ih =>
      have hc : 0 < c.length := List.length_pos_iff.2 (hne c (by simp))
      have := ih fun d hd => hne d (by simp [hd])
      simp only [List.length_cons, List.flatten_cons, List.length_append]
      omega
  obtain ⟨t, h1, h2, h3, h4, h5, h6, h7, h8, h9, h10, h11, h12, h13, h14⟩ :=
    receiveLoop_delivered chunks (s.expLen - chunks.length) v (a :: more) (by rw [v2, hq]) (by rw [v3, hreads]) hne
      (by rw [v0, v4]; omega)
  rw [Nat.sub_add_cancel (Nat.le_of_lt hcount)] at h1
  have hshort : t.rxCnt < t.expLen := by rw [h13, h12, v0, v4]; omega
  have hans : ∃ r, t.readAnswer (t.expLen - t.rxCnt) = r ∧ (r = .zero ∨ r = .eos) := by
    rcases ha with rfl | rfl
    · exact ⟨.zero, by simp [State.readAnswer, State.arrival, h7, readAnswerOf], .inl rfl⟩
    · exact ⟨.eos, by simp [State.readAnswer, State.arrival, h7, readAnswerOf], .inr rfl⟩
  obtain ⟨r, hr, hz⟩ := hans
  have hstop : receiveLoop (s.expLen - chunks.length) t = .running (State.didRead (t.expLen - t.rxCnt) t) := by
    obtain ⟨n, hn⟩ : ∃ n, s.expLen - chunks.length = n + 1 := ⟨s.expLen - chunks.length - 1, by omega⟩
    rw [hn, receiveLoop_succ, if_pos hshort, hr]
    rcases hz with rfl | rfl <;> rfl
  have hrx : t.rxCnt = chunks.flatten.length := by rw [h13, v0, Nat.zero_add]
  have hex : t.expLen = s.expLen := h12.trans v4
  refine ⟨(State.goto .receiveMode (State.didRead (t.expLen - t.rxCnt) t)).raise .timeoutError t.expLen t.rxCnt, r,
    ?_, rfl, hex, hrx, hrx, rfl, h4.trans vde, h5.trans vre, rfl, ?_, hz, ?_⟩
  · rw [hv, h1, hstop, Flow.running_andThen]
    unfold checkLength
    simp only [State.goto_keeps, State.didRead_keeps, if_pos hshort]
  · rw [← hrest, ← h2]
    simp only [State.rest, State.raise_keeps, State.goto_keeps, State.didRead_keeps]
  · rw [hex, hrx] at hr
    simp only [State.events, State.raise_keeps, State.goto_keeps, State.didRead_sets, List.map_append, List.map_cons,
      List.map_nil, hex, hrx]
    have : t.trace.map (·.event) = t.events := rfl
    rw [this, h14, vev, v0, v4, Nat.sub_zero]
    simp only [List.append_assoc, hr]
    rfl

/-- R161: as `transact_short`, but for a read error. -/
theorem transact_readError {s : State} {chunks : List (List Byte)} {more : List Arrival}
    (hacc : s.accepts s.txLen) (hq : s.rxQueue = []) (hne : ∀ c ∈ chunks, c ≠ [])
    (hreads : s.readAns = arrivals chunks ++ .readError :: more) (hlen : chunks.flatten.length < s.expLen) :
    ∃ u, transact s = .raised u ∧ u.status = .transportError ∧ u.errExp = s.expLen ∧
      u.errAct = chunks.flatten.length ∧ u.rxCnt = chunks.flatten.length ∧ u.resValid = .nothing ∧
      u.de = .low ∧ u.re = .low ∧ u.seq = .receiveMode ∧ u.rest = s.rest := by
  obtain ⟨v, hv, hrest, vseq, vde, vre, v0, v1, v2, v3, v4, _, _, _, _, vev⟩ := transact_sent hacc
  have hcount : chunks.length < s.expLen := by
    refine Nat.lt_of_le_of_lt ?_ hlen
    clear hlen hreads
    induction chunks with
    | nil => exact Nat.zero_le _
    | cons c rest ih =>
      have hc : 0 < c.length := List.length_pos_iff.2 (hne c (by simp))
      have := ih fun d hd => hne d (by simp [hd])
      simp only [List.length_cons, List.flatten_cons, List.length_append]
      omega
  obtain ⟨t, h1, h2, h3, h4, h5, h6, h7, h8, h9, h10, h11, h12, h13, h14⟩ :=
    receiveLoop_delivered chunks (s.expLen - chunks.length) v (.readError :: more) (by rw [v2, hq]) (by rw [v3, hreads])
      hne (by rw [v0, v4]; omega)
  rw [Nat.sub_add_cancel (Nat.le_of_lt hcount)] at h1
  have hshort : t.rxCnt < t.expLen := by rw [h13, h12, v0, v4]; omega
  have hr : t.readAnswer (t.expLen - t.rxCnt) = .readError := by
    simp [State.readAnswer, State.arrival, h7, readAnswerOf]
  have hstop : receiveLoop (s.expLen - chunks.length) t = .raised
      ((State.goto .receiveMode (State.didRead (t.expLen - t.rxCnt) t)).raise .transportError t.expLen t.rxCnt) := by
    obtain ⟨n, hn⟩ : ∃ n, s.expLen - chunks.length = n + 1 := ⟨s.expLen - chunks.length - 1, by omega⟩
    rw [hn, receiveLoop_succ, if_pos hshort, hr]
  have hrx : t.rxCnt = chunks.flatten.length := by rw [h13, v0, Nat.zero_add]
  have hex : t.expLen = s.expLen := h12.trans v4
  refine ⟨(State.goto .receiveMode (State.didRead (t.expLen - t.rxCnt) t)).raise .transportError t.expLen t.rxCnt,
    by rw [hv, h1, hstop, Flow.raised_andThen], rfl, hex, hrx, hrx, rfl, h4.trans vde, h5.trans vre, rfl, ?_⟩
  rw [← hrest, ← h2]
  simp only [State.rest, State.raise_keeps, State.goto_keeps, State.didRead_keeps]

/-- R155: where the first `k` writes are accepted and the next is not, the transmit loop sends those bytes and ends
by the abort, with its events. -/
theorem transmitBytes_aborted (k left : Nat) (s : State) (a : WriteAnswer) (more : List WriteAnswer)
    (h : s.writeAns = List.replicate k .accepted1 ++ a :: more) (hk : k < left) (ha : a ≠ .accepted1)
    (hseq : s.seq = .transmitting) (hde : s.de = .high) (hre : s.re = .high) :
    ∃ t, transmitBytes left s = .raised t ∧ t.events = s.events ++ (sending (Memory.load s.txBuf s.txIdx k) ++
      [Event.write (Memory.read s.txBuf (s.txIdx + k)) a] ++ (if s.params.txAbortRestoresRx then toReceive else [])) := by
  induction k generalizing left s with
  | zero =>
    obtain ⟨n, rfl⟩ : ∃ n, left = n + 1 := ⟨left - 1, by omega⟩
    have hans : s.writeAnswer = a := by simp [State.writeAnswer, h]
    rw [transmitBytes_succ, if_neg (by rw [hans]; exact ha)]
    refine ⟨_, rfl, ?_⟩
    cases hp : s.params.txAbortRestoresRx <;>
      simp [State.txAbort, hp, State.events, linesToReceive_eq, hans, sending, Memory.load, toReceive]
  | succ k ih =>
    obtain ⟨n, rfl⟩ : ∃ n, left = n + 1 := ⟨left - 1, by omega⟩
    have hacc : s.writeAnswer = .accepted1 := by simp [State.writeAnswer, h, List.replicate_succ]
    obtain ⟨t, h1, h2⟩ := ih n s.sentByte (by simp [h, List.replicate_succ]) (by omega)
      (by simpa using hseq) (by simpa using hde) (by simpa using hre)
    refine ⟨t, by rw [transmitBytes_succ, if_pos hacc, h1], ?_⟩
    rw [h2]
    simp only [State.sentByte_keeps, State.sentByte_sets, State.events, List.map_append, List.map_cons, List.map_nil,
      sending, Memory.load, List.flatMap_cons, hacc, List.append_assoc, List.cons_append, List.nil_append]
    rw [Nat.add_assoc, Nat.add_comm 1 k]

/-- R175, R185, R166: a bus operation whose frame is accepted and whose complete response comes as `chunks` ends in
the judgement of their concatenation. -/
theorem exec_exchanges {s : State} {i : Instr} {chunks : List (List Byte)} (h : s.Exchanges i chunks) :
    ∃ u, exec i s = .next (judged s.params i u).state ∧ u.response = chunks.flatten ∧ u.rest = (prepared s i).rest ∧
      u.seq = .receiveMode ∧ u.de = .low ∧ u.re = .low ∧ u.rxCnt = i.responseLength ∧ u.rxQueue = [] ∧
      Memory.load u.rxBuf 0 i.responseLength = chunks.flatten ∧ Memory.load u.txBuf 0 u.txLen = requestFrame i ∧
      u.errExp = s.errExp ∧ u.errAct = s.errAct ∧
      u.events = s.events ++ (txEvents (requestFrame i) ++ rxEvents i.responseLength chunks) := by
  have hbus := h.ready.bus
  obtain ⟨_, _, p3, p4, p5, p6⟩ := prepared_sets s hbus
  have pframe := prepared_frame (i := i) hbus h.ready.buffers.tx
  have prx : (prepared s i).rxBuf = s.rxBuf := by cases i <;> rfl
  have pq : (prepared s i).rxQueue = s.rxQueue := by cases i <;> rfl
  have pw : (prepared s i).writeAns = s.writeAns := by cases i <;> rfl
  have pr : (prepared s i).readAns = s.readAns := by cases i <;> rfl
  have pt : (prepared s i).trace = s.trace := by cases i <;> rfl
  have pe : (prepared s i).errExp = s.errExp := by cases i <;> rfl
  have pa : (prepared s i).errAct = s.errAct := by cases i <;> rfl
  have hacc : (prepared s i).accepts (prepared s i).txLen := by
    unfold State.accepts
    rw [pw, p4]
    exact h.accepts
  have hdel : (prepared s i).delivers chunks := by
    unfold State.delivers
    rw [pq, pr]
    exact h.delivers
  obtain ⟨u, hu, uq, uev, uload⟩ :=
    transact_delivered (by rw [prx]; exact h.ready.buffers.rx) hacc hdel (by rw [p5]; exact h.complete)
  have can := transact_spec (prepared s i) (by rw [prx]; exact h.ready.buffers.rx)
  rw [hu] at can
  obtain ⟨d1, d2, d3, d4, d5, d6, d7⟩ := can.done u rfl
  have c1 := can.rest
  rw [Flow.running_state] at c1
  have hexp : u.expLen = i.responseLength := (State.rest_fields c1).2.1.trans p5
  rw [p5] at uload d3
  have htx : Memory.load u.txBuf 0 u.txLen = requestFrame i := by
    rw [(State.rest_fields c1).2.2.1, (State.rest_fields c1).2.2.2.1, pframe]
  refine ⟨u, ?_, by rw [State.response, hexp, uload], c1, can.seq, d1, d2, d3, uq, uload, htx, d5.trans pe,
    d6.trans pa, ?_⟩
  · rw [exec_ready h.ready, hu, Flow.running_andThen]
  · rw [uev, pframe, p5, State.events, pt]
    rfl

end Sys2Proof.Machine
end

