-- ==== Sys2Proof/Laws/Lifecycle.lean ====
section
/-! SUPPORT. Laws/Lifecycle.lean: everything CONSTRUCT and CLOSE can do (45_lifecycle.md), said once. -/

namespace Sys2Proof.Machine

/-- The state without what CONSTRUCT and CLOSE may write. -/
def State.lifeless (s : State) : State :=
  { s with
    life := .closed, serOpen := false, gpioOpen := false, cfgPort := 0, cfgBaud := 0, cfgDeId := 0, cfgReId := 0,
    de := .low, re := .low, seq := .receiveMode, status := .ok, errExp := 0, errAct := 0, resValid := .nothing,
    rxQueue := [], openAns := [], flushAns := [], gpioAns := [], configAns := [], free := 0, trace := [] }

/-- An event with the state as it stands in `s`. -/
def State.entry (s : State) (e : Event) : TraceEntry := ⟨e, s.seq, s.de, s.re, s.life⟩

theorem map_entry_event (s : State) (evs : List Event) : (evs.map s.entry).map (·.event) = evs := by
  rw [List.map_map]
  exact List.map_id evs

/-- What every failed CONSTRUCT leaves (R202, R214, R222), begun in `s` on a closed instance, with error kind `k`
after the events `evs`. -/
structure ConstructFailed (s : State) (k : Status) (evs : List Event) (t : State) : Prop where
  kept : t.lifeless = s.lifeless
  status : t.status = k
  life : t.life = .closed
  seq : t.seq = .receiveMode
  errExp : t.errExp = 0
  errAct : t.errAct = 0
  resValid : t.resValid = .nothing
  trace : t.trace = s.trace ++ evs.map s.entry

/-- What a successful CONSTRUCT leaves (R201). -/
structure ConstructDone (port baud deId reId : Nat) (s t : State) : Prop where
  kept : t.lifeless = s.lifeless
  status : t.status = .ok
  life : t.life = .opened
  held : t.serOpen = true ∧ t.gpioOpen = true
  lines : t.de = .low ∧ t.re = .low
  seq : t.seq = .receiveMode
  config : t.cfgPort = port ∧ t.cfgBaud = baud ∧ t.cfgDeId = deId ∧ t.cfgReId = reId
  queue : t.rxQueue = []
  resValid : t.resValid = .nothing
  context : t.errExp = s.errExp ∧ t.errAct = s.errAct
  trace : t.trace = s.trace ++ ([Event.openStream port baud .ok, Event.flush .ok, Event.openGpio .ok,
    Event.configOutput deId .ok, Event.configOutput reId .ok].map s.entry ++
    [⟨.setDE .low, s.seq, .low, s.re, s.life⟩, ⟨.setRE .low, s.seq, .low, .low, s.life⟩])

/-! Each call with its answer named. -/

theorem openedStream_eq {port baud : Nat} {s : State} {r : Answer} (h : s.openAnswer = r) :
    State.openedStream port baud s = { s with
      openAns := s.openAns.tail, free := s.free + 1, trace := s.trace ++ [s.entry (.openStream port baud r)] } := by
  subst h; rfl

theorem flushed_eq {s : State} {r : Answer} (h : s.flushAnswer = r) : State.flushed s = { s with
      flushAns := s.flushAns.tail, free := s.free + 1, rxQueue := flushedQueue r s.rxQueue,
      trace := s.trace ++ [s.entry (.flush r)] } := by
  subst h; rfl

theorem openedGpio_eq {s : State} {r : Answer} (h : s.gpioAnswer = r) : State.openedGpio s = { s with
      gpioAns := s.gpioAns.tail, free := s.free + 1, trace := s.trace ++ [s.entry (.openGpio r)] } := by
  subst h; rfl

theorem configured_eq {id : Nat} {s : State} {r : Answer} (h : s.configAnswer = r) : State.configured id s = { s with
      configAns := s.configAns.tail, free := s.free + 1, trace := s.trace ++ [s.entry (.configOutput id r)] } := by
  subst h; rfl

/-- R202: what the unwinding of a state that holds the serial connection leaves. -/
theorem unwind_eq {s : State} {g : Bool} (h : s.serOpen = true) (hg : s.gpioOpen = g) : State.unwind s = { s with
      life := .closed, serOpen := false, gpioOpen := false,
      trace := s.trace ++ ((if g then [Event.closeGpio] else []) ++ [Event.closeStream]).map s.entry } := by
  cases g <;>
    simp [State.unwind, State.releaseStream, State.releaseGpio, State.closeStream, State.closeGpio, State.emit, hg, h,
      State.entry]

/-- R201, R202: everything the body of CONSTRUCT can do on a closed instance, with the events of each case; in a
state no run reaches an instance is closed and yet holds the digital I/O subsystem, hence the two `if`s. -/
theorem constructOp_cases (port baud deId reId : Nat) (s : State) (hlife : s.life = .closed) :
    (∃ t, constructOp port baud deId reId s = .running t ∧ ConstructDone port baud deId reId s t) ∨
    (∃ t, constructOp port baud deId reId s = .raised t ∧
      ConstructFailed s .transportError [Event.openStream port baud .failed] t ∧
      t.serOpen = s.serOpen ∧ t.gpioOpen = s.gpioOpen) ∨
    (∃ t, constructOp port baud deId reId s = .raised t ∧ t.serOpen = false ∧ t.gpioOpen = false ∧
      (ConstructFailed s .transportError ([Event.openStream port baud .ok, Event.flush .failed] ++
          ((if s.gpioOpen then [Event.closeGpio] else []) ++ [Event.closeStream])) t ∨
       ConstructFailed s .setupError ([Event.openStream port baud .ok, Event.flush .ok, Event.openGpio .failed] ++
          ((if s.gpioOpen then [Event.closeGpio] else []) ++ [Event.closeStream])) t ∨
       ConstructFailed s .setupError [Event.openStream port baud .ok, Event.flush .ok, Event.openGpio .ok,
          Event.configOutput deId .failed, Event.closeGpio, Event.closeStream] t ∨
       ConstructFailed s .setupError [Event.openStream port baud .ok, Event.flush .ok, Event.openGpio .ok,
          Event.configOutput deId .ok, Event.configOutput reId .failed, Event.closeGpio, Event.closeStream] t)) := by
  generalize hc : ({ s with cfgPort := port, cfgBaud := baud, cfgDeId := deId, cfgReId := reId } : State) = c
  have hop : constructOp port baud deId reId s = (acquireStream port baud c).andThen fun s =>
      (flushStream s).andThen fun s => (acquireGpio s).andThen fun s => (configureLine deId s).andThen fun s =>
      (configureLine reId s).andThen fun s => .running (State.constructed s) := by rw [← hc]; rfl
  rw [hop]
  cases h1 : c.openAnswer with
  | failed =>
    have e1 : acquireStream port baud c = .raised (State.constructFailed .transportError (State.openedStream port baud c)) := by
      unfold acquireStream; rw [h1]
    rw [e1, openedStream_eq h1, Flow.raised_andThen]
    subst hc
    exact .inr (.inl ⟨_, rfl, ⟨rfl, rfl, hlife, rfl, rfl, rfl, rfl, rfl⟩, rfl, rfl⟩)
  | ok =>
    have e1 : acquireStream port baud c = .running { State.openedStream port baud c with serOpen := true } := by
      unfold acquireStream; rw [h1]
    rw [e1, openedStream_eq h1, Flow.running_andThen]
    generalize hd : ({ c with
        trace := c.trace ++ [c.entry (.openStream port baud .ok)],
        serOpen := true, openAns := c.openAns.tail, free := c.free + 1 } : State) = d
    have ds : d.serOpen = true := by rw [← hd]
    have dg : d.gpioOpen = s.gpioOpen := by rw [← hd, ← hc]
    cases h2 : d.flushAnswer with
    | failed =>
      have e2 : flushStream d = .raised (State.constructFailed .transportError (State.unwind (State.flushed d))) := by
        unfold flushStream; rw [h2]
      rw [e2, unwind_eq (s := State.flushed d) ds dg, flushed_eq h2, Flow.raised_andThen]
      subst hd hc
      refine .inr (.inr ⟨_, rfl, rfl, rfl, .inl ⟨rfl, rfl, rfl, rfl, rfl, rfl, rfl, ?_⟩⟩)
      simp [State.constructFailed, State.raise, State.goto, State.linesReleased, State.entry, List.append_assoc]
    | ok =>
      have e2 : flushStream d = .running (State.flushed d) := by unfold flushStream; rw [h2]
      rw [e2, flushed_eq h2, Flow.running_andThen]
      generalize hx : ({ d with
          trace := d.trace ++ [d.entry (.flush .ok)],
          flushAns := d.flushAns.tail, free := d.free + 1, rxQueue := flushedQueue .ok d.rxQueue } : State) = x
      have xs : x.serOpen = true := by rw [← hx]; exact ds
      have xg : x.gpioOpen = s.gpioOpen := by rw [← hx]; exact dg
      cases h3 : x.gpioAnswer with
      | failed =>
        have e3 : acquireGpio x = .raised (State.constructFailed .setupError (State.unwind (State.openedGpio x))) := by
          unfold acquireGpio; rw [h3]
        rw [e3, unwind_eq (s := State.openedGpio x) xs xg, openedGpio_eq h3, Flow.raised_andThen]
        subst hx hd hc
        refine .inr (.inr ⟨_, rfl, rfl, rfl, .inr (.inl ⟨rfl, rfl, rfl, rfl, rfl, rfl, rfl, ?_⟩)⟩)
        simp [State.constructFailed, State.raise, State.goto, State.linesReleased, State.entry, List.append_assoc]
      | ok =>
        have e3 : acquireGpio x = .running { State.openedGpio x with gpioOpen := true } := by
          unfold acquireGpio; rw [h3]
        rw [e3, openedGpio_eq h3, Flow.running_andThen]
        generalize hy : ({ x with
            trace := x.trace ++ [x.entry (.openGpio .ok)],
            gpioOpen := true, gpioAns := x.gpioAns.tail, free := x.free + 1 } : State) = y
        have ys : y.serOpen = true := by rw [← hy]; exact xs
        have yg : y.gpioOpen = true := by rw [← hy]
        cases h4 : y.configAnswer with
        | failed =>
          have e4 : configureLine deId y =
              .raised (State.constructFailed .setupError (State.unwind (State.configured deId y))) := by
            unfold configureLine; rw [h4]
          rw [e4, unwind_eq (s := State.configured deId y) ys yg, configured_eq h4, Flow.raised_andThen]
          subst hy hx hd hc
          refine .inr (.inr ⟨_, rfl, rfl, rfl, .inr (.inr (.inl ⟨rfl, rfl, rfl, rfl, rfl, rfl, rfl, ?_⟩))⟩)
          simp [State.constructFailed, State.raise, State.goto, State.linesReleased, State.entry, List.append_assoc]
        | ok =>
          have e4 : configureLine deId y = .running (State.configured deId y) := by unfold configureLine; rw [h4]
          rw [e4, configured_eq h4, Flow.running_andThen]
          generalize hz : ({ y with
              trace := y.trace ++ [y.entry (.configOutput deId .ok)],
              configAns := y.configAns.tail, free := y.free + 1 } : State) = z
          have zs : z.serOpen = true := by rw [← hz]; exact ys
          have zg : z.gpioOpen = true := by rw [← hz]; exact yg
          cases h5 : z.configAnswer with
          | failed =>
            have e5 : configureLine reId z =
                .raised (State.constructFailed .setupError (State.unwind (State.configured reId z))) := by
              unfold configureLine; rw [h5]
            rw [e5, unwind_eq (s := State.configured reId z) zs zg, configured_eq h5, Flow.raised_andThen]
            subst hz hy hx hd hc
            refine .inr (.inr ⟨_, rfl, rfl, rfl, .inr (.inr (.inr ⟨rfl, rfl, rfl, rfl, rfl, rfl, rfl, ?_⟩))⟩)
            simp [State.constructFailed, State.raise, State.goto, State.linesReleased, State.entry, List.append_assoc]
          | ok =>
            have e5 : configureLine reId z = .running (State.configured reId z) := by unfold configureLine; rw [h5]
            rw [e5, configured_eq h5, Flow.running_andThen]
            subst hz hy hx hd hc
            refine .inl ⟨_, rfl, ⟨rfl, rfl, rfl, ⟨rfl, rfl⟩, ⟨rfl, rfl⟩, rfl, ⟨rfl, rfl, rfl, rfl⟩, rfl, rfl,
              ⟨rfl, rfl⟩, ?_⟩⟩
            simp [State.constructed, State.succeed, State.goto, State.setRE, State.setDE, State.emit, State.entry,
              List.append_assoc]

/-- CONSTRUCT runs on a closed instance alone (R204), and ends in what its body ends in. -/
theorem exec_construct_next {s t : State} {port baud deId reId : Nat}
    (h : exec (.construct port baud deId reId) s = .next t) :
    s.life = .closed ∧ ∃ a, t = (constructOp port baud deId reId s).state.leaving a := by
  simp only [exec, execConstruct] at h
  split at h
  · rename_i hc
    obtain ⟨a, ha, _⟩ := finish_leaving h
    exact ⟨hc, a, ha⟩
  · cases h

theorem exec_construct_ready {s : State} (port baud deId reId : Nat) (hc : s.life = .closed)
    (ha : s.answersLeft = none) :
    exec (.construct port baud deId reId) s = .next (constructOp port baud deId reId s).state := by
  simp only [exec, execConstruct, if_pos hc, finish_none ha]

/-- The body of CONSTRUCT by its final state: a failure with its kind and events, or a success. -/
theorem constructOp_state (port baud deId reId : Nat) (s : State) (hlife : s.life = .closed) :
    ConstructDone port baud deId reId s (constructOp port baud deId reId s).state ∨
    ∃ k evs, ConstructFailed s k evs (constructOp port baud deId reId s).state ∧ evs.length ≤ 7 ∧
      (k = .transportError ∨ k = .setupError) ∧
      (s.serOpen = false → (constructOp port baud deId reId s).state.serOpen = false) ∧
      (s.gpioOpen = false → (constructOp port baud deId reId s).state.gpioOpen = false) := by
  rcases constructOp_cases port baud deId reId s hlife with ⟨t, h, hd⟩ | ⟨t, h, hf, h1, h2⟩ | ⟨t, h, h1, h2, hf⟩
  · rw [h]; exact .inl hd
  · rw [h]; exact .inr ⟨_, _, hf, by simp, .inl rfl, fun h => h1.trans h, fun h => h2.trans h⟩
  · rw [h]
    rcases hf with hf | hf | hf | hf
    · exact .inr ⟨_, _, hf, by cases s.gpioOpen <;> simp, .inl rfl, fun _ => h1, fun _ => h2⟩
    · exact .inr ⟨_, _, hf, by cases s.gpioOpen <;> simp, .inr rfl, fun _ => h1, fun _ => h2⟩
    · exact .inr ⟨_, _, hf, by simp, .inr rfl, fun _ => h1, fun _ => h2⟩
    · exact .inr ⟨_, _, hf, by simp, .inr rfl, fun _ => h1, fun _ => h2⟩

/-- R203: everything CLOSE does, the lines' free values aside (log 12). -/
theorem exec_close_eq (s : State) : exec .close s = .next { s with
      life := .closed, serOpen := false, gpioOpen := false, status := .ok, resValid := .nothing,
      de := Config.freeLevel s.free, re := Config.freeLevel (s.free + 1), free := s.free + 2,
      trace := s.trace ++ ((if s.serOpen then [Event.closeStream] else []) ++
        (if s.gpioOpen then [Event.closeGpio] else [])).map s.entry } := by
  cases h1 : s.serOpen <;> cases h2 : s.gpioOpen <;>
    simp [exec, execClose, State.releaseStream, State.releaseGpio, State.closeStream, State.closeGpio, State.emit,
      State.linesReleased, State.succeed, State.entry, h1, h2]

end Sys2Proof.Machine
end

