-- ==== Sys2Proof/Laws/Trace.lean ====
section
/-! SUPPORT. Laws/Trace.lean: the shape of the trace of `Transact` and of a bus operation (42_turnaround.md R147,
R151 to R161), whatever the buffers hold and whatever is answered. -/

namespace Sys2Proof.Machine

/-- R151: the entries of the way into transmit mode, begun with DE at `de`. -/
def transmitEntries (de : Level) (life : Life) : List TraceEntry :=
  [⟨.setRE .high, .switchingToTransmit, de, .high, life⟩,
   ⟨.delay .lineSettle, .switchingToTransmit, de, .high, life⟩,
   ⟨.setDE .high, .switchingToTransmit, .high, .high, life⟩,
   ⟨.delay .lineSettle, .switchingToTransmit, .high, .high, life⟩]

/-- R156: the entries of the way into receive mode, begun with RE HIGH. -/
def receiveEntries (life : Life) : List TraceEntry :=
  [⟨.setDE .low, .switchingToReceive, .low, .high, life⟩,
   ⟨.delay .lineSettle, .switchingToReceive, .low, .high, life⟩,
   ⟨.setRE .low, .switchingToReceive, .low, .low, life⟩,
   ⟨.delay .lineSettle, .switchingToReceive, .low, .low, life⟩]

/-- R155: the entries of an aborted transmission. -/
theorem txAbort_trace {s : State} (hre : s.re = .high) : (State.txAbort s).trace = s.trace ++
    (if s.params.txAbortRestoresRx then receiveEntries s.life else []) := by
  unfold State.txAbort
  split
  · simp only [linesToReceive_eq, State.goto, receiveEntries, hre]
  · simp [State.goto]

/-- R152 to R155: the trace of the transmit loop. -/
theorem transmitBytes_trace (left : Nat) (s : State) (hseq : s.seq = .transmitting) (hde : s.de = .high)
    (hre : s.re = .high) :
    (∃ t sent, transmitBytes left s = .running t ∧ t.trace = s.trace ++ sent ∧ sent.length = 2 * left ∧
      (∀ e ∈ sent, e.seq = .transmitting) ∧ noRetry sent = true) ∨
    (∃ t sent, transmitBytes left s = .raised t ∧
      t.trace = s.trace ++ (sent ++ (if s.params.txAbortRestoresRx then receiveEntries s.life else [])) ∧
      sent ≠ [] ∧ sent.length < 2 * left ∧ (∀ e ∈ sent, e.seq = .transmitting) ∧ noRetry sent = true) := by
  induction left generalizing s with
  | zero => exact .inl ⟨s, [], rfl, by simp, rfl, by simp, rfl⟩
  | succ left ih =>
    rw [transmitBytes_succ]
    split
    · rename_i hacc
      have := ih s.sentByte (by simpa using hseq) (by simpa using hde) (by simpa using hre)
      simp only [State.sentByte_keeps, State.sentByte_sets, List.append_assoc] at this
      rcases this with ⟨t, sent, h1, h2, h3, h4, h6⟩ | ⟨t, sent, h1, h2, _, h4, h5, h6⟩
      · refine .inl ⟨t, _, h1, h2, by simp only [List.length_append, List.length_cons, List.length_nil]; omega, ?_,
          by simpa [noRetry, hacc] using h6⟩
        intro e he
        rcases List.mem_append.1 he with he | he
        · simp only [List.mem_cons, List.not_mem_nil, or_false] at he
          rcases he with rfl | rfl <;> exact hseq
        · exact h4 e he
      · refine .inr ⟨t, _, h1, by rw [h2]; exact congrArg _ (List.append_assoc _ _ _).symm, by simp,
          by simp only [List.length_append, List.length_cons, List.length_nil]; omega, ?_,
          by simpa [noRetry, hacc] using h6⟩
        intro e he
        rcases List.mem_append.1 he with he | he
        · simp only [List.mem_cons, List.not_mem_nil, or_false] at he
          rcases he with rfl | rfl <;> exact hseq
        · exact h5 e he
    · have := txAbort_trace (s := State.wrote (Memory.read s.txBuf s.txIdx) s) (by simpa using hre)
      simp only [State.wrote_keeps, State.wrote_sets, List.append_assoc] at this
      refine .inr ⟨_, [⟨.write (Memory.read s.txBuf s.txIdx) s.writeAnswer, s.seq, s.de, s.re, s.life⟩], rfl, this,
        by simp, by simp only [List.length_cons, List.length_nil]; omega, ?_, by simp [noRetry, writtenBytes]⟩
      intro e he
      obtain rfl := List.mem_singleton.1 he
      exact hseq

/-- R158 to R161: the trace of the receive loop: reads, each with a pacing delay behind it but for a last one. -/
theorem receiveLoop_trace (fuel : Nat) (s : State) : ∃ new, (receiveLoop fuel s).state.trace = s.trace ++ new ∧
    new.length ≤ 2 * (s.expLen - s.rxCnt) ∧
    (∀ e ∈ new, e.seq = s.seq ∧ (e.event = .delay .readPacing ∨ ∃ n r, e.event = .read n r)) ∧
    (0 < fuel → s.rxCnt < s.expLen → ∃ e rest, new = e :: rest ∧ ∃ r, e.event = .read (s.expLen - s.rxCnt) r) := by
  induction fuel generalizing s with
  | zero => exact ⟨[], by simp [receiveLoop], by simp, by simp, by simp⟩
  | succ fuel ih =>
    rw [receiveLoop_succ]
    split
    case isFalse h => exact ⟨[], by simp, by simp, by simp, fun _ h' => absurd h' h⟩
    case isTrue hlt =>
      have stop : ∀ t : State, t.trace = (State.didRead (s.expLen - s.rxCnt) s).trace →
          ∃ new, t.trace = s.trace ++ new ∧ new.length ≤ 2 * (s.expLen - s.rxCnt) ∧
          (∀ e ∈ new, e.seq = s.seq ∧ (e.event = .delay .readPacing ∨ ∃ n r, e.event = .read n r)) ∧
          (0 < fuel + 1 → s.rxCnt < s.expLen →
            ∃ e rest, new = e :: rest ∧ ∃ r, e.event = .read (s.expLen - s.rxCnt) r) := by
        intro t ht
        rw [ht]
        simp only [State.didRead_sets]
        refine ⟨_, rfl, by simp only [List.length_cons, List.length_nil]; omega, ?_,
          fun _ _ => ⟨_, _, rfl, _, rfl⟩⟩
        intro e he
        obtain rfl := List.mem_singleton.1 he
        exact ⟨rfl, .inr ⟨_, _, rfl⟩⟩
      split
      · rename_i bs hbs
        obtain ⟨hne, _⟩ := readAnswerOf_data hbs
        have hpos : 0 < bs.length := List.length_pos_iff.2 hne
        have := ih (s.received bs)
        simp only [State.received_keeps, State.received_sets, List.append_assoc] at this
        obtain ⟨new, h1, h2, h3, _⟩ := this
        refine ⟨_, h1, by simp only [List.length_append, List.length_cons, List.length_nil]; omega, ?_,
          fun _ _ => ⟨_, _, rfl, _, rfl⟩⟩
        intro e he
        simp only [List.cons_append, List.nil_append, List.mem_cons] at he
        rcases he with rfl | rfl | he
        · exact ⟨rfl, .inr ⟨_, _, rfl⟩⟩
        · exact ⟨rfl, .inl rfl⟩
        · exact h3 e he
      · exact stop _ rfl
      · exact stop _ rfl
      · exact stop _ rfl

/-- R147: the trace of `Transact`: the way into transmit mode, the frame, and then either the abort or the way into
receive mode, the delay before the reads, and the reads. -/
theorem transact_trace (s : State) : ∃ sent tail,
    (transact s).state.trace = s.trace ++ (transmitEntries s.de s.life ++ (sent ++ tail)) ∧
    (∀ e ∈ sent, e.seq = .transmitting) ∧ sent ≠ [] ∧ noRetry sent = true ∧ writtenBytes tail = [] ∧
    ((sent.length < 2 * s.txLen ∧ tail = (if s.params.txAbortRestoresRx then receiveEntries s.life else [])) ∨
     (sent.length = 2 * s.txLen + 1 ∧ ∃ reads,
        tail = receiveEntries s.life ++ ⟨.delay .preReceive, .receiving, .low, .low, s.life⟩ :: reads ∧
        reads.length ≤ 2 * s.expLen ∧
        (∀ e ∈ reads, e.seq = .receiving ∧ (e.event = .delay .readPacing ∨ ∃ n r, e.event = .read n r)) ∧
        (0 < s.expLen → ∃ e rest, reads = e :: rest ∧ ∃ r, e.event = .read s.expLen r))) := by
  obtain ⟨_, _, _, _, _, f6, f7, f8, f9, _, _, _, _, f14, f15, f16⟩ := State.transmitStart_fields s
  have hstart : s.transmitStart.trace = s.trace ++ transmitEntries s.de s.life := by
    simp [State.transmitStart, enterTransmit_eq, transmitEntries]
  rw [transact_eq]
  rcases transmitBytes_trace s.txLen s.transmitStart f14 f15 f16 with
    ⟨u, sent, h1, h2, h3, h4, h6⟩ | ⟨u, sent, h1, h2, h3, h4, h5, h6⟩
  · obtain ⟨hrest, _, _, _, _, _, hr, _⟩ := transmitBytes_spec s.txLen s.transmitStart f14 f15 f16
    obtain ⟨r1, r2, r3, _⟩ := hr u h1
    rw [h1, Flow.running_state, State.transmitStart_rest] at hrest
    obtain ⟨gl, ge, _⟩ := State.rest_fields hrest
    have hrecv : (State.enterReceive (State.delay .postFrame u)).trace =
        u.trace ++ (⟨.delay .postFrame, .transmitting, .high, .high, s.life⟩ ::
          (receiveEntries s.life ++ [⟨.delay .preReceive, .receiving, .low, .low, s.life⟩])) := by
      simp [enterReceive_eq, receiveEntries, r1, r2, r3, gl]
    obtain ⟨e1, _, _, _, _, _, _, _, _, e10, e11, _⟩ := enterReceive_fields u
    obtain ⟨reads, k1, k2, k3, k4⟩ := receiveLoop_trace u.expLen (State.enterReceive (State.delay .postFrame u))
    rw [e1, e10, ge, Nat.sub_zero] at k2
    rw [e1, e10, ge, Nat.sub_zero] at k4
    have htr : ((receiveLoop u.expLen (State.enterReceive (State.delay .postFrame u))).andThen checkLength).state.trace =
        (receiveLoop u.expLen (State.enterReceive (State.delay .postFrame u))).state.trace := by
      cases receiveLoop u.expLen (State.enterReceive (State.delay .postFrame u)) with
      | raised w => rfl
      | running w =>
        rw [Flow.running_andThen]
        unfold checkLength
        dsimp only
        split <;> rfl
    have hreads : writtenBytes reads = [] := by
      clear k1 k2 k4
      induction reads with
      | nil => rfl
      | cons e rest ih =>
        have hrest := ih fun f hf => k3 f (by simp [hf])
        rcases (k3 e (by simp)).2 with h | ⟨n, r, h⟩ <;> simp [writtenBytes, h, hrest]
    refine ⟨sent ++ [⟨.delay .postFrame, .transmitting, .high, .high, s.life⟩], _, ?_, ?_, by simp,
      by rw [noRetry_after _ (by rfl)]; exact h6, by rw [writtenBytes_append, writtenBytes, hreads]; rfl,
      .inr ⟨by simp only [List.length_append, List.length_cons, List.length_nil]; omega, reads, rfl, k2,
        fun e he => ⟨(k3 e he).1.trans e11, (k3 e he).2⟩, fun hp => k4 hp hp⟩⟩
    · rw [h1, Flow.running_andThen, htr, k1, hrecv, h2, hstart]
      simp only [List.append_assoc, List.cons_append, List.nil_append]
    · intro e he
      rcases List.mem_append.1 he with he | he
      · exact h4 e he
      · obtain rfl := List.mem_singleton.1 he
        rfl
  · refine ⟨sent, _, ?_, h5, h3, h6, by split <;> rfl, .inl ⟨h4, rfl⟩⟩
    rw [h1, Flow.raised_andThen, Flow.raised_state, h2, hstart, f8, f9, List.append_assoc]

/-- Judging a response makes no event. -/
theorem flow_trace (s : State) (i : Instr) :
    ((transact (prepared s i)).andThen (judged s.params i)).state.trace = (transact (prepared s i)).state.trace := by
  cases transact (prepared s i) with
  | raised t => rfl
  | running u =>
    rw [Flow.running_andThen]
    exact (ungraded_fields (judged_ungraded s.params i u)).2.1

/-! The receive queue (R54, R247; log 4): which bytes arrive, and where each of them goes. -/

/-- R54: what is queued and arrives during a read is what it answers and what stays queued. -/
theorem readAnswer_conserves (n : Nat) (s : State) (e : TraceEntry) (h : e.event = .read n (s.readAnswer n)) :
    s.rxQueue ++ arrivedBytes [s.arrival] = deliveredBytes [e] ++ queueAfter n s.rxQueue s.arrival := by
  simp only [deliveredBytes, h, State.readAnswer]
  cases s.arrival with
  | bytes arrived most =>
    simp only [readAnswerOf, queueAfter, arrivedBytes, List.append_nil]
    conv_lhs => rw [← List.take_append_drop (min n most) (s.rxQueue ++ arrived)]
    cases (s.rxQueue ++ arrived).take (min n most) <;> simp
  | zero => simp [readAnswerOf, queueAfter, arrivedBytes]
  | eos => simp [readAnswerOf, queueAfter, arrivedBytes]
  | readError => simp [readAnswerOf, queueAfter, arrivedBytes]

theorem readCount_append (xs ys : List TraceEntry) : readCount (xs ++ ys) = readCount xs + readCount ys := by
  induction xs with
  | nil => simp [readCount]
  | cons e rest ih =>
    simp only [List.cons_append, readCount]
    split <;> omega

theorem arrivedBytes_cons (a : Arrival) (rest : List Arrival) :
    arrivedBytes (a :: rest) = arrivedBytes [a] ++ arrivedBytes rest := by
  cases a <;> simp [arrivedBytes]

/-- The transmit loop reads nothing and takes one answer for each byte it writes. -/
theorem transmitBytes_queue (left : Nat) (s : State) : ∃ new, (transmitBytes left s).state.trace = s.trace ++ new ∧
    readCount new = 0 ∧ deliveredBytes new = [] ∧
    (transmitBytes left s).state.rxQueue = s.rxQueue ∧ (transmitBytes left s).state.readAns = s.readAns ∧
    (transmitBytes left s).state.free = s.free + (writtenBytes new).length := by
  induction left generalizing s with
  | zero => exact ⟨[], by simp [transmitBytes], rfl, rfl, rfl, rfl, rfl⟩
  | succ left ih =>
    rw [transmitBytes_succ]
    split
    · obtain ⟨new, h1, h2, h3, h4, h5, h6⟩ := ih s.sentByte
      simp only [State.sentByte_sets, State.sentByte_keeps, List.append_assoc] at h1 h4 h5 h6
      refine ⟨_, h1, ?_, ?_, h4, h5, ?_⟩
      · rw [readCount_append, h2]; rfl
      · rw [deliveredBytes_append, h3]; rfl
      · rw [h6, writtenBytes_append, List.length_append]
        simp only [writtenBytes, List.length_cons, List.length_nil]
        omega
    · unfold State.txAbort
      split <;> simp [linesToReceive_eq, State.goto, readCount, deliveredBytes, writtenBytes]

/-- R158 to R161: every byte that is queued or arrives during the receive loop's reads is delivered, in order, or
stays queued. -/
theorem receiveLoop_queue (fuel : Nat) (s : State) : ∃ new, (receiveLoop fuel s).state.trace = s.trace ++ new ∧
    writtenBytes new = [] ∧
    s.rxQueue ++ arrivedBytes (arrivalsTaken (readCount new) s.readAns s.free) =
      deliveredBytes new ++ (receiveLoop fuel s).state.rxQueue ∧
    (receiveLoop fuel s).state.readAns = s.readAns.drop (readCount new) := by
  induction fuel generalizing s with
  | zero => exact ⟨[], by simp [receiveLoop], rfl,
      by simp [receiveLoop, readCount, arrivalsTaken, arrivedBytes, deliveredBytes], rfl⟩
  | succ fuel ih =>
    rw [receiveLoop_succ]
    split
    case isFalse => exact ⟨[], by simp, rfl, by simp [readCount, arrivalsTaken, arrivedBytes, deliveredBytes], rfl⟩
    case isTrue =>
      have once := readAnswer_conserves (s.expLen - s.rxCnt) s
        ⟨.read (s.expLen - s.rxCnt) (s.readAnswer (s.expLen - s.rxCnt)), s.seq, s.de, s.re, s.life⟩ rfl
      have stop : ∀ t : State, t.trace = (State.didRead (s.expLen - s.rxCnt) s).trace →
          t.rxQueue = (State.didRead (s.expLen - s.rxCnt) s).rxQueue →
          t.readAns = (State.didRead (s.expLen - s.rxCnt) s).readAns →
          ∃ new, t.trace = s.trace ++ new ∧ writtenBytes new = [] ∧
            s.rxQueue ++ arrivedBytes (arrivalsTaken (readCount new) s.readAns s.free) =
              deliveredBytes new ++ t.rxQueue ∧
            t.readAns = s.readAns.drop (readCount new) := by
        intro t h1 h2 h3
        rw [h1, h2, h3]
        simp only [State.didRead_sets]
        exact ⟨_, rfl, rfl, once, by simp [readCount]⟩
      split
      · rename_i bs hbs
        obtain ⟨new, h1, h2, h3, h4⟩ := ih (s.received bs)
        simp only [State.received_sets, List.append_assoc] at h1 h3 h4
        refine ⟨_, h1, by rw [writtenBytes_append, h2]; rfl, ?_, ?_⟩
        · have hr : ∀ a b : TraceEntry, readCount ([a, b] ++ new) = readCount [a, b] + readCount new :=
            fun a b => readCount_append _ _
          rw [hr, deliveredBytes_append, List.append_assoc]
          simp only [readCount, Nat.zero_add, Nat.add_comm 1, arrivalsTaken]
          rw [arrivedBytes_cons, ← List.append_assoc, show s.readAns.headD (Config.freeArrival s.free) = s.arrival from rfl,
            once, List.append_assoc, h3]
          simp [deliveredBytes]
        · rw [h4, readCount_append]
          simp [readCount, Nat.add_comm 1]
      · exact stop _ rfl rfl rfl
      · exact stop _ rfl rfl rfl
      · exact stop _ rfl rfl rfl

/-- R147: as `receiveLoop_queue`, for `Transact`: each byte written has drawn one answer before the reads begin. -/
theorem transact_queue (s : State) : ∃ new, (transact s).state.trace = s.trace ++ new ∧
    s.rxQueue ++ arrivedBytes (arrivalsTaken (readCount new) s.readAns (s.free + (writtenBytes new).length)) =
      deliveredBytes new ++ (transact s).state.rxQueue ∧
    (transact s).state.readAns = s.readAns.drop (readCount new) := by
  obtain ⟨sent, h1, h2, h3, h4, h5, h6⟩ := transmitBytes_queue s.txLen s.transmitStart
  obtain ⟨_, _, f3, f4, _⟩ := State.transmitStart_fields s
  have ffree : s.transmitStart.free = s.free := by simp [State.transmitStart, enterTransmit_eq]
  have hstart : s.transmitStart.trace = s.trace ++ transmitEntries s.de s.life := by
    simp [State.transmitStart, enterTransmit_eq, transmitEntries]
  rw [hstart, List.append_assoc] at h1
  rw [f3] at h4
  rw [f4] at h5
  rw [ffree] at h6
  rw [transact_eq]
  generalize transmitBytes s.txLen s.transmitStart = f at h1 h4 h5 h6 ⊢
  cases f with
  | raised u =>
    rw [Flow.raised_state] at h1 h4 h5
    refine ⟨_, h1, ?_, ?_⟩
    · rw [readCount_append, deliveredBytes_append, h2, h3, Flow.raised_andThen, Flow.raised_state, h4]
      simp [transmitEntries, readCount, deliveredBytes, arrivalsTaken, arrivedBytes]
    · rw [readCount_append, h2, Flow.raised_andThen, Flow.raised_state, h5]
      simp [transmitEntries, readCount]
  | running u =>
    rw [Flow.running_state] at h1 h4 h5 h6
    rw [Flow.running_andThen]
    obtain ⟨reads, k1, k2, k3, k4⟩ := receiveLoop_queue u.expLen (State.enterReceive (State.delay .postFrame u))
    obtain ⟨turn, t1, t2, t3, t4⟩ : ∃ turn, (State.enterReceive (State.delay .postFrame u)).trace = u.trace ++ turn ∧
        writtenBytes turn = [] ∧ deliveredBytes turn = [] ∧ readCount turn = 0 := by
      simp only [enterReceive_eq, State.delay_sets, State.delay_keeps, List.append_assoc]
      exact ⟨_, rfl, rfl, rfl, rfl⟩
    obtain ⟨_, _, _, e4, e5, _⟩ := enterReceive_fields u
    have e6 : (State.enterReceive (State.delay .postFrame u)).free = u.free := by simp [enterReceive_eq]
    rw [t1, h1] at k1
    rw [e4, e5, e6, h4, h5, h6] at k3
    rw [e5, h5] at k4
    have hcheck : ∀ v, (checkLength v).state.trace = v.trace ∧ (checkLength v).state.rxQueue = v.rxQueue ∧
        (checkLength v).state.readAns = v.readAns := by
      intro v
      unfold checkLength
      dsimp only
      split <;> exact ⟨rfl, rfl, rfl⟩
    have hend : ∀ g : Flow, (g.andThen checkLength).state.trace = g.state.trace ∧
        (g.andThen checkLength).state.rxQueue = g.state.rxQueue ∧
        (g.andThen checkLength).state.readAns = g.state.readAns := by
      intro g
      cases g with
      | raised v => exact ⟨rfl, rfl, rfl⟩
      | running v => exact hcheck v
    obtain ⟨g1, g2, g3⟩ := hend (receiveLoop u.expLen (State.enterReceive (State.delay .postFrame u)))
    rw [g1, g2, g3, k1, k4]
    refine ⟨transmitEntries s.de s.life ++ (sent ++ (turn ++ reads)), by simp only [List.append_assoc], ?_, ?_⟩
    all_goals
      have hreads : readCount (transmitEntries s.de s.life ++ (sent ++ (turn ++ reads))) = readCount reads := by
        simp only [readCount_append, h2, t4, transmitEntries, readCount, Nat.zero_add]
      rw [hreads]
    · have hw : writtenBytes (transmitEntries s.de s.life ++ (sent ++ (turn ++ reads))) =
          writtenBytes (transmitEntries s.de s.life ++ sent) := by
        simp only [writtenBytes_append, t2, k2, List.append_nil]
      have hd : deliveredBytes (transmitEntries s.de s.life ++ (sent ++ (turn ++ reads))) = deliveredBytes reads := by
        simp only [deliveredBytes_append, h3, t3, transmitEntries, deliveredBytes, List.nil_append]
      rw [hw, hd, ← k3, writtenBytes_append]
      rfl

/-- R247: the receive queue across a bus operation. -/
theorem exec_bus_queue {s t : State} {i : Instr} (hbus : i.isBusOp = true) (h : exec i s = .next t) :
    s.rxQueue ++ arrivedBytes (arrivalsTaken (readCount (newEntries s t)) s.readAns
        (s.free + (writtenBytes (newEntries s t)).length)) = deliveredBytes (newEntries s t) ++ t.rxQueue ∧
    t.readAns = s.readAns.drop (readCount (newEntries s t)) := by
  obtain ⟨a, rfl, _⟩ := exec_bus_next hbus h
  have kept : (prepared s i).rxQueue = s.rxQueue ∧ (prepared s i).readAns = s.readAns ∧
      (prepared s i).free = s.free ∧ (prepared s i).trace = s.trace := by cases i <;> exact ⟨rfl, rfl, rfl, rfl⟩
  obtain ⟨kq, ka, kf, kt⟩ := kept
  obtain ⟨new, h1, h2, h3⟩ := transact_queue (prepared s i)
  rw [kt] at h1
  rw [kq, ka, kf] at h2
  rw [ka] at h3
  have judges : ((transact (prepared s i)).andThen (judged s.params i)).state.trace =
        (transact (prepared s i)).state.trace ∧
      ((transact (prepared s i)).andThen (judged s.params i)).state.rxQueue =
        (transact (prepared s i)).state.rxQueue ∧
      ((transact (prepared s i)).andThen (judged s.params i)).state.readAns =
        (transact (prepared s i)).state.readAns := by
    cases transact (prepared s i) with
    | raised u => exact ⟨rfl, rfl, rfl⟩
    | running u =>
      have hu := judged_ungraded s.params i u
      have hr := congrArg State.readAns hu
      rw [Flow.running_andThen, Flow.running_state]
      exact ⟨(ungraded_fields hu).2.1, (ungraded_fields hu).2.2.2.2.1, hr⟩
  obtain ⟨j1, j2, j3⟩ := judges
  rw [newEntries_leaving, newEntries_eq (j1.trans h1)]
  exact ⟨by rw [h2, ← j2]; rfl, by rw [← h3, ← j3]; rfl⟩

end Sys2Proof.Machine
end

