-- ==== Sys2Proof/Laws/Leaving.lean ====
section
/-! SUPPORT. Laws/Leaving.lean: no part of a command reads how many calls are still answered (log 5): a command's
flow from a state with another such number is the same flow with that number. -/

namespace Sys2Proof.Machine

/-- A flow with another number of calls still answered. -/
def Flow.leaving (a : Option Nat) : Flow → Flow
  | .running s => .running (s.leaving a)
  | .raised s => .raised (s.leaving a)

@[simp] theorem Flow.leaving_state (a : Option Nat) (f : Flow) : (f.leaving a).state = f.state.leaving a := by
  cases f <;> rfl

theorem Flow.leaving_andThen {a : Option Nat} {f : Flow} {g g' : State → Flow}
    (h : ∀ s, g' (s.leaving a) = (g s).leaving a) : (f.leaving a).andThen g' = (f.andThen g).leaving a := by
  cases f with
  | running s => exact h s
  | raised s => rfl

theorem transmitBytes_leaving (a : Option Nat) (left : Nat) (s : State) :
    transmitBytes left (s.leaving a) = (transmitBytes left s).leaving a := by
  induction left generalizing s with
  | zero => rfl
  | succ left ih =>
    rw [transmitBytes_succ, transmitBytes_succ]
    have hans : (s.leaving a).writeAnswer = s.writeAnswer := rfl
    rw [hans]
    split
    · exact ih s.sentByte
    · cases hp : s.params.txAbortRestoresRx <;> simp only [State.txAbort, State.wrote_keeps, State.leaving_keeps, hp] <;> rfl

theorem receiveLoop_leaving (a : Option Nat) (fuel : Nat) (s : State) :
    receiveLoop fuel (s.leaving a) = (receiveLoop fuel s).leaving a := by
  induction fuel generalizing s with
  | zero => rfl
  | succ fuel ih =>
    rw [receiveLoop_succ, receiveLoop_succ]
    have hans : (s.leaving a).readAnswer ((s.leaving a).expLen - (s.leaving a).rxCnt) =
      s.readAnswer (s.expLen - s.rxCnt) := rfl
    by_cases hlt : s.rxCnt < s.expLen
    · rw [if_pos hlt, if_pos (show (s.leaving a).rxCnt < (s.leaving a).expLen from hlt), hans]
      split
      · rename_i bs _
        exact ih (s.received bs)
      · rfl
      · rfl
      · rfl
    · rw [if_neg hlt, if_neg (show ¬ (s.leaving a).rxCnt < (s.leaving a).expLen from hlt)]
      rfl

theorem transact_leaving (a : Option Nat) (s : State) : transact (s.leaving a) = (transact s).leaving a := by
  rw [transact_eq, transact_eq]
  have h := transmitBytes_leaving a s.txLen s.transmitStart
  have h' : transmitBytes (s.leaving a).txLen (s.leaving a).transmitStart =
      (transmitBytes s.txLen s.transmitStart).leaving a := h
  rw [h']
  refine Flow.leaving_andThen fun u => ?_
  have hr := receiveLoop_leaving a u.expLen (State.enterReceive (State.delay .postFrame u))
  have hr' : receiveLoop (u.leaving a).expLen (State.enterReceive (State.delay .postFrame (u.leaving a))) =
      (receiveLoop u.expLen (State.enterReceive (State.delay .postFrame u))).leaving a := hr
  rw [hr']
  refine Flow.leaving_andThen fun v => ?_
  unfold checkLength
  dsimp only
  by_cases hlt : (State.goto .receiveMode v).rxCnt < (State.goto .receiveMode v).expLen
  · rw [if_pos hlt, if_pos (show (State.goto .receiveMode (v.leaving a)).rxCnt <
      (State.goto .receiveMode (v.leaving a)).expLen from hlt)]
    rfl
  · rw [if_neg hlt, if_neg (show ¬ (State.goto .receiveMode (v.leaving a)).rxCnt <
      (State.goto .receiveMode (v.leaving a)).expLen from hlt)]
    rfl

theorem prepared_leaving (a : Option Nat) (s : State) (i : Instr) : prepared (s.leaving a) i = (prepared s i).leaving a := by
  cases i <;> rfl

theorem judged_leaving (p : Params) (i : Instr) (a : Option Nat) (u : State) :
    judged p i (u.leaving a) = (judged p i u).leaving a := by
  unfold judged
  have hv : validate (u.leaving a).response i.slaveByte i.functionCode (u.leaving a) =
      (validate u.response i.slaveByte i.functionCode u).leaving a := by
    have hrsp : (u.leaving a).response = u.response := rfl
    rw [hrsp]
    unfold validate
    split
    · rfl
    · split
      · rfl
      · unfold checkCrc
        dsimp only
        by_cases hc : receivedCrc u.response = (State.crcOver (List.take (u.response.length - 2) u.response) u).crc
        · rw [if_pos hc, if_pos (show receivedCrc u.response =
            (State.crcOver (List.take (u.response.length - 2) u.response) (u.leaving a)).crc from hc)]
          rfl
        · rw [if_neg hc, if_neg (show ¬ receivedCrc u.response =
            (State.crcOver (List.take (u.response.length - 2) u.response) (u.leaving a)).crc from hc)]
          rfl
  rw [hv]
  refine Flow.leaving_andThen fun v => ?_
  have he : (if i.echoes p then echoCheck (u.leaving a).response (v.leaving a) else .running (v.leaving a)) =
      (if i.echoes p then echoCheck u.response v else .running v).leaving a := by
    split
    · have hrsp : (u.leaving a).response = u.response := rfl
      rw [hrsp]
      unfold echoCheck
      dsimp only
      have hm : Memory.load (v.leaving a).txBuf 0 6 = Memory.load v.txBuf 0 6 := rfl
      rw [hm]
      split <;> rfl
    · rfl
  rw [he]
  refine Flow.leaving_andThen fun w => ?_
  cases i <;> rfl

/-- The flow of a bus operation does not read how many calls are still answered. -/
theorem flow_leaving (a : Option Nat) (s : State) (i : Instr) :
    (transact (prepared (s.leaving a) i)).andThen (judged (s.leaving a).params i) =
      ((transact (prepared s i)).andThen (judged s.params i)).leaving a := by
  rw [prepared_leaving, transact_leaving]
  exact Flow.leaving_andThen fun u => judged_leaving s.params i a u

theorem unwind_leaving (a : Option Nat) (s : State) : State.unwind (s.leaving a) = (State.unwind s).leaving a := by
  cases h1 : s.serOpen <;> cases h2 : s.gpioOpen <;>
    simp [State.unwind, State.releaseStream, State.releaseGpio, State.closeStream, State.closeGpio, State.emit, h1, h2,
      State.leaving]

theorem unwound_leaving (a : Option Nat) (k : Status) (s : State) :
    Flow.raised (State.constructFailed k (State.unwind (s.leaving a))) =
      (Flow.raised (State.constructFailed k (State.unwind s))).leaving a := by
  rw [unwind_leaving]
  rfl

theorem configureLine_leaving (a : Option Nat) (id : Nat) (s : State) :
    configureLine id (s.leaving a) = (configureLine id s).leaving a := by
  unfold configureLine
  have : (s.leaving a).configAnswer = s.configAnswer := rfl
  rw [this]
  cases s.configAnswer with
  | ok => rfl
  | failed => exact unwound_leaving a .setupError (State.configured id s)

theorem acquireGpio_leaving (a : Option Nat) (s : State) : acquireGpio (s.leaving a) = (acquireGpio s).leaving a := by
  unfold acquireGpio
  have : (s.leaving a).gpioAnswer = s.gpioAnswer := rfl
  rw [this]
  cases s.gpioAnswer with
  | ok => rfl
  | failed => exact unwound_leaving a .setupError (State.openedGpio s)

theorem flushStream_leaving (a : Option Nat) (s : State) : flushStream (s.leaving a) = (flushStream s).leaving a := by
  unfold flushStream
  have : (s.leaving a).flushAnswer = s.flushAnswer := rfl
  rw [this]
  cases s.flushAnswer with
  | ok => rfl
  | failed => exact unwound_leaving a .transportError (State.flushed s)

theorem acquireStream_leaving (a : Option Nat) (port baud : Nat) (s : State) :
    acquireStream port baud (s.leaving a) = (acquireStream port baud s).leaving a := by
  unfold acquireStream
  have : (s.leaving a).openAnswer = s.openAnswer := rfl
  rw [this]
  cases s.openAnswer <;> rfl

/-- The body of CONSTRUCT does not read how many calls are still answered. -/
theorem constructOp_leaving (a : Option Nat) (port baud deId reId : Nat) (s : State) :
    constructOp port baud deId reId (s.leaving a) = (constructOp port baud deId reId s).leaving a := by
  have h := acquireStream_leaving a port baud { s with cfgPort := port, cfgBaud := baud, cfgDeId := deId, cfgReId := reId }
  unfold constructOp
  refine Eq.trans (congrArg (fun f : Flow => f.andThen _) h) ?_
  refine Flow.leaving_andThen fun t => ?_
  rw [flushStream_leaving]
  refine Flow.leaving_andThen fun t => ?_
  rw [acquireGpio_leaving]
  refine Flow.leaving_andThen fun t => ?_
  rw [configureLine_leaving]
  refine Flow.leaving_andThen fun t => ?_
  rw [configureLine_leaving]
  exact Flow.leaving_andThen fun t => rfl

end Sys2Proof.Machine
end

