-- ==== Sys2Proof/Laws/PerInstr.lean ====
section
/-! SUPPORT. Laws/PerInstr.lean: the laws said of each instruction as syntax, one lemma per constructor. -/

namespace Sys2Proof.Laws.EncodingBounds

/-- A well-formed instruction has at least its selector's two bytes, no more than the longest instruction
(30_encoding.md R82 to R86, R92; log 7, log 8). -/
def Statement (i : Instr) : Prop :=
  i.WellFormed → 2 ≤ (encode i).length ∧ (encode i).length ≤ longestBytes

theorem readCoils (slave : Byte) (start count : Word) : Statement (.readCoils slave start count) := by
  intro _
  simp only [encode, Machine.body4_length, longestBytes]
  omega

theorem readDiscreteInputs (slave : Byte) (start count : Word) :
    Statement (.readDiscreteInputs slave start count) := by
  intro _
  simp only [encode, Machine.body4_length, longestBytes]
  omega

theorem readHoldingRegisters (slave : Byte) (start count : Word) :
    Statement (.readHoldingRegisters slave start count) := by
  intro _
  simp only [encode, Machine.body4_length, longestBytes]
  omega

theorem readInputRegisters (slave : Byte) (start count : Word) :
    Statement (.readInputRegisters slave start count) := by
  intro _
  simp only [encode, Machine.body4_length, longestBytes]
  omega

theorem writeCoil (slave : Byte) (addr : Word) (value : Bool) : Statement (.writeCoil slave addr value) := by
  intro _
  simp only [encode, Machine.body4_length, longestBytes]
  omega

theorem writeRegister (slave : Byte) (addr value : Word) : Statement (.writeRegister slave addr value) := by
  intro _
  simp only [encode, Machine.body4_length, longestBytes]
  omega

theorem writeMultipleCoils (slave : Byte) (start : Word) (values : List Bool) :
    Statement (.writeMultipleCoils slave start values) := by
  intro hwf
  have h : values.length ≤ Config.maxCoilsWrite := of_decide_eq_true hwf
  simp only [Config.maxCoilsWrite] at h
  simp only [encode, Machine.bodyWMC_length, Machine.ceil8, longestBytes]
  omega

theorem writeMultipleRegisters (slave : Byte) (start : Word) (values : List Word) :
    Statement (.writeMultipleRegisters slave start values) := by
  intro hwf
  have h : values.length ≤ Config.maxRegsWrite := of_decide_eq_true hwf
  simp only [Config.maxRegsWrite] at h
  simp only [encode, Machine.bodyWMR_length, longestBytes]
  omega

theorem construct (port baud deId reId : Nat) : Statement (.construct port baud deId reId) :=
  fun _ => ⟨of_decide_eq_true rfl, of_decide_eq_true rfl⟩

theorem close : Statement .close := fun _ => ⟨of_decide_eq_true rfl, of_decide_eq_true rfl⟩

theorem crcReset : Statement .crcReset := fun _ => ⟨of_decide_eq_true rfl, of_decide_eq_true rfl⟩

theorem crcUpdate (b : Byte) : Statement (.crcUpdate b) := fun _ => ⟨of_decide_eq_true rfl, of_decide_eq_true rfl⟩

end Sys2Proof.Laws.EncodingBounds
end

