-- ==== Sys2Proof/Laws/Step.lean ====
section
/-! SUPPORT. Laws/Step.lean: one step by what the ports hold (log 10, log 22), and a run of several. -/

namespace Sys2Proof.Machine

theorem step_idle {s : State} (hc : s.control = []) (h : s.pending = []) : step s = .next s := by
  simp only [step, fetch, hc, h]

/-- A word that is taken is what is fetched. -/
theorem fetch_takes {s t : State} {port : PortUnit} {word : List Byte} (h : s.takes port word t) :
    fetch s = fetchAt port word t := by
  rcases h with ⟨rest, hc, rfl, rfl⟩ | ⟨hc, rest, hp, rfl, rfl⟩
  · simp only [fetch, hc]
  · simp only [fetch, hc, hp]

/-- Nothing waits, or some word is taken. -/
theorem takes_cases (s : State) : (s.control = [] ∧ s.pending = []) ∨ ∃ port word t, s.takes port word t := by
  cases hc : s.control with
  | cons word rest => exact .inr ⟨_, _, _, .inl ⟨rest, hc, rfl, rfl⟩⟩
  | nil =>
    cases hp : s.pending with
    | nil => exact .inl ⟨rfl, rfl⟩
    | cons word rest => exact .inr ⟨_, _, _, .inr ⟨hc, rest, hp, rfl, rfl⟩⟩

/-- Taking a word leaves everything but the ports. -/
theorem takes_state {s t : State} {port : PortUnit} {word : List Byte} (h : s.takes port word t) :
    t = { s with pending := t.pending, control := t.control } := by
  rcases h with ⟨rest, _, _, rfl⟩ | ⟨_, rest, _, _, rfl⟩ <;> rfl

theorem step_run {s t : State} {port : PortUnit} {word rest : List Byte} {i : Instr} (h : s.takes port word t)
    (hd : decode port word = .instr i rest) : step s = exec i t := by
  simp only [step, fetch_takes h, fetchAt, hd]

theorem step_hold {s t : State} {port : PortUnit} {word rest : List Byte} (h : s.takes port word t)
    (hd : decode port word = .hold rest) : step s = .next t := by
  simp only [step, fetch_takes h, fetchAt, hd]

theorem step_rejected {s t : State} {port : PortUnit} {word : List Byte} {why : Reject} (h : s.takes port word t)
    (hd : decode port word = .rejected why) : step s = .refused (.undecodable why) := by
  simp only [step, fetch_takes h, fetchAt, hd]

/-- Everything a step can be: idle, an instruction, the hold word, or a refused word. -/
theorem step_cases (s : State) :
    (s.control = [] ∧ s.pending = [] ∧ step s = .next s) ∨
    (∃ port word t i rest, s.takes port word t ∧ decode port word = .instr i rest ∧ step s = exec i t) ∨
    (∃ port word t rest, s.takes port word t ∧ decode port word = .hold rest ∧ step s = .next t) ∨
    (∃ port word t why, s.takes port word t ∧ decode port word = .rejected why ∧
      step s = .refused (.undecodable why)) := by
  rcases takes_cases s with ⟨hc, hp⟩ | ⟨port, word, t, h⟩
  · exact .inl ⟨hc, hp, step_idle hc hp⟩
  · cases hd : decode port word with
    | instr i rest => exact .inr (.inl ⟨port, word, t, i, rest, h, hd, step_run h hd⟩)
    | hold rest => exact .inr (.inr (.inl ⟨port, word, t, rest, h, hd, step_hold h hd⟩))
    | rejected why => exact .inr (.inr (.inr ⟨port, word, t, why, h, hd, step_rejected h hd⟩))

/-- A run of one step more, on any machine the host can read. -/
theorem core_run_succ (M : Host.Core) (k : Nat) (s t : M.State) (h : M.step s = .next t) :
    M.run (k + 1) s = M.run k t := by
  rw [Host.Core.run, h]

theorem run_succ {k : Nat} {s t : State} (h : step s = .next t) :
    Sys2Proof.core.run (k + 1) s = Sys2Proof.core.run k t := core_run_succ Sys2Proof.core k s t h

end Sys2Proof.Machine
end

