-- ==== Sys2Proof/Tests/Slice0.lean ====
section
/-! SUPPORT. Tests/Slice0.lean: the model's own tests, each of one step or one word, with results from the tables of
95_test_vectors.md or from the rule its comment names; and a witness for each statement with hypotheses. -/

namespace Sys2Proof.Tests

open Sys2Proof.Machine

-- One theorem after the other: in parallel their kernel evaluations ask for more threads than the sandbox has.
set_option Elab.async false

/-- What an observation gives of a next state. -/
def after {α : Type} (f : State → α) : Host.Outcome State Fault Refusal → Option α
  | .next t => some (f t)
  | .fault _ => none
  | .refused _ => none

/-- The refusal of an outcome. -/
def refusal : Host.Outcome State Fault Refusal → Option Refusal
  | .next _ => none
  | .fault _ => none
  | .refused r => some r

/-- The fault of an outcome. -/
def fault : Host.Outcome State Fault Refusal → Option Fault
  | .next _ => none
  | .fault f => some f
  | .refused _ => none

/-- An open instance (R201). -/
def opened : State := { State.reset with life := .opened, serOpen := true, gpioOpen := true }

/-- An open instance whose next `n` writes are accepted and whose next reads find `reads`. -/
def replying (n : Nat) (reads : List Arrival) : State :=
  { opened with writeAns := List.replicate n .accepted1, readAns := reads }

/-- A closed instance whose collaborators answer so. -/
def answering (o f g : Answer) (c : List Answer) : State :=
  { State.reset with openAns := [o], flushAns := [f], gpioAns := [g], configAns := c }

/-! WellFormed: an ill-formed term for each check, which the check refuses, beside the largest well-formed one. -/

/-- R192. -/
theorem test_wf_coils_refused :
    (Instr.writeMultipleCoils 0x01#8 0#16 (List.replicate 2041 true)).wellFormed = false :=
  by decide +kernel

/-- R192. -/
theorem test_wf_coils_limit :
    (Instr.writeMultipleCoils 0x01#8 0#16 (List.replicate 2040 true)).wellFormed = true :=
  by decide +kernel

/-- R195. -/
theorem test_wf_regs_refused :
    (Instr.writeMultipleRegisters 0x01#8 0#16 (List.replicate 128 0#16)).wellFormed = false :=
  by decide +kernel

/-- R195. -/
theorem test_wf_regs_limit :
    (Instr.writeMultipleRegisters 0x01#8 0#16 (List.replicate 127 0#16)).wellFormed = true :=
  by decide +kernel

/-- Log 16. -/
theorem test_wf_construct_port_refused : (Instr.construct (2 ^ 32) 1 1 1).wellFormed = false := by decide +kernel

/-- Log 16. -/
theorem test_wf_construct_baud_refused : (Instr.construct 1 (2 ^ 32) 1 1).wellFormed = false := by decide +kernel

/-- Log 16. -/
theorem test_wf_construct_deId_refused : (Instr.construct 1 1 (2 ^ 32) 1).wellFormed = false := by decide +kernel

/-- Log 16. -/
theorem test_wf_construct_reId_refused : (Instr.construct 1 1 1 (2 ^ 32)).wellFormed = false := by decide +kernel

/-- Log 16. -/
theorem test_wf_construct_limit :
    (Instr.construct (2 ^ 32 - 1) (2 ^ 32 - 1) (2 ^ 32 - 1) (2 ^ 32 - 1)).wellFormed = true :=
  by decide +kernel

/-! Decoding: one word per constructor, its fields written out from 30_encoding.md. -/

/-- R84, V-COD-10. -/
theorem test_decode_readCoils :
    decode .command [0b00000001#8, 0b00000001#8, 0b00000000#8, 0b00010011#8, 0b00000000#8, 0b00010011#8] = .instr (.readCoils 0x01#8 0x0013#16 19#16) [] :=
  by decide +kernel

/-- R84, V-COD-11. -/
theorem test_decode_readDiscreteInputs :
    decode .command [0b00000001#8, 0b00000010#8, 0b00000000#8, 0b11000100#8, 0b00000000#8, 0b00010110#8] = .instr (.readDiscreteInputs 0x01#8 0x00C4#16 22#16) [] :=
  by decide +kernel

/-- R84, V-COD-12. -/
theorem test_decode_readHoldingRegisters :
    decode .command [0b00010001#8, 0b00000011#8, 0b00000000#8, 0b01101011#8, 0b00000000#8, 0b00000011#8] = .instr (.readHoldingRegisters 0x11#8 0x006B#16 3#16) [] :=
  by decide +kernel

/-- R84, V-COD-13. -/
theorem test_decode_readInputRegisters :
    decode .command [0b00000001#8, 0b00000100#8, 0b00000000#8, 0b00000000#8, 0b00000000#8, 0b00000011#8] = .instr (.readInputRegisters 0x01#8 0x0000#16 3#16) [] :=
  by decide +kernel

/-- R84, R186, V-COD-14. -/
theorem test_decode_writeCoil :
    decode .command [0b00000001#8, 0b00000101#8, 0b00000000#8, 0b10101100#8, 0b11111111#8, 0b00000000#8] = .instr (.writeCoil 0x01#8 0x00AC#16 true) [] :=
  by decide +kernel

/-- V-COD-15. -/
theorem test_decode_writeCoil_off :
    decode .command [0b00000001#8, 0b00000101#8, 0b00000000#8, 0b10101100#8, 0b00000000#8, 0b00000000#8] = .instr (.writeCoil 0x01#8 0x00AC#16 false) [] :=
  by decide +kernel

/-- R84, V-COD-16. -/
theorem test_decode_writeRegister :
    decode .command [0b00000001#8, 0b00000110#8, 0b00000000#8, 0b00010000#8, 0b00010010#8, 0b00110100#8] = .instr (.writeRegister 0x01#8 0x0010#16 0x1234#16) [] :=
  by decide +kernel

/-- R85, R90, V-COD-17. -/
theorem test_decode_writeMultipleCoils :
    decode .command [0b00000001#8, 0b00001111#8, 0b00000000#8, 0b00010011#8, 0b00000000#8, 0b00001010#8, 0b00000010#8, 0b11001101#8, 0b00000001#8] = .instr (.writeMultipleCoils 0x01#8 0x0013#16 [true, false, true, true, false, false, true, true, true, false]) [] :=
  by decide +kernel

/-- R86, V-COD-18. -/
theorem test_decode_writeMultipleRegisters :
    decode .command [0b00000001#8, 0b00010000#8, 0b00000000#8, 0b00000001#8, 0b00000000#8, 0b00000010#8, 0b00000100#8, 0b00000000#8, 0b00001010#8, 0b00000001#8, 0b00000010#8] = .instr (.writeMultipleRegisters 0x01#8 0x0001#16 [0x000A#16, 0x0102#16]) [] :=
  by decide +kernel

/-- R81: selector 0xF0; the operands' fields are the model's (log 16). -/
theorem test_decode_construct :
    decode .command [0x00#8, 0xF0#8, 0x00#8, 0x00#8, 0x00#8, 0x07#8, 0x00#8, 0x00#8, 0x25#8, 0x80#8, 0x00#8, 0x00#8, 0x00#8, 0x03#8, 0x00#8, 0x00#8, 0x00#8, 0x04#8] = .instr (.construct 7 9600 3 4) [] :=
  by decide +kernel

/-- R81: selector 0xF1. -/
theorem test_decode_close : decode .command [0b00000000#8, 0b11110001#8] = .instr (.close) [] := by decide +kernel

/-- R95: control word 10xxxxxxxx (log 8). -/
theorem test_decode_crcReset :
    decode .crcControl [0b00000010#8, 0b00000000#8] = .instr (.crcReset) [] :=
  by decide +kernel

/-- R95: control word 01dddddddd (log 8). -/
theorem test_decode_crcUpdate :
    decode .crcControl [0b00000001#8, 0b10101011#8] = .instr (.crcUpdate 0xAB#8) [] :=
  by decide +kernel

/-- R81. -/
theorem test_decode_unknown :
    decode .command [0x01#8, 0x07#8, 0x00#8, 0x00#8, 0x00#8, 0x00#8] = .rejected (.unknownSelector 0x07#8) :=
  by decide +kernel

/-- R95. -/
theorem test_decode_illegal_control :
    decode .crcControl [0x03#8, 0x00#8] = .rejected .illegalControlWord :=
  by decide +kernel

/-- R186: no other coil word. -/
theorem test_decode_bad_coil_word :
    decode .command [0x01#8, 0x05#8, 0x00#8, 0xAC#8, 0x00#8, 0x01#8] = .rejected (.badCoilWord 0x0001#16) :=
  by decide +kernel

/-- R90. -/
theorem test_decode_bad_byte_count :
    decode .command [0x01#8, 0x0F#8, 0x00#8, 0x13#8, 0x00#8, 0x0A#8, 0x03#8, 0xCD#8, 0x01#8, 0x00#8] = .rejected .badByteCount :=
  by decide +kernel

/-- D24. -/
theorem test_decode_bad_padding :
    decode .command [0x01#8, 0x0F#8, 0x00#8, 0x13#8, 0x00#8, 0x0A#8, 0x02#8, 0xCD#8, 0x05#8] = .rejected .badPadding :=
  by decide +kernel

/-! One step of each instruction, the expected results from 95_test_vectors.md. -/

/-- V-COD-40. -/
theorem test_readCoils :
    after (fun t => (t.status, t.resValid, t.resBits))
      (exec (.readCoils 0x01#8 0x0013#16 19#16)
        (replying 8 [.bytes [0x01#8, 0x01#8, 0x03#8, 0xCD#8, 0x6B#8, 0x05#8, 0x42#8, 0x82#8] 8])) =
      some (.ok, .bits, [true, false, true, true, false, false, true, true, true, true, false, true, false, true, true, false, true, false, true]) := by
  decide +kernel

/-- V-COD-41. -/
theorem test_readCoils_short_count :
    after (fun t => (t.status, t.resValid, t.resBits))
      (exec (.readCoils 0x01#8 0x0013#16 19#16)
        (replying 8 [.bytes [0x01#8, 0x01#8, 0x02#8, 0xCD#8, 0x6B#8, 0x05#8, 0x43#8, 0x7E#8] 8])) =
      some (.ok, .bits, [true, false, true, true, false, false, true, true, true, true, false, true, false, true, true, false, false, false, false]) := by
  decide +kernel

/-- V-COD-42. -/
theorem test_readDiscreteInputs :
    after (fun t => (t.status, t.resValid, t.resBits))
      (exec (.readDiscreteInputs 0x01#8 0x00C4#16 22#16)
        (replying 8 [.bytes [0x01#8, 0x02#8, 0x03#8, 0xAC#8, 0xDB#8, 0x35#8, 0x22#8, 0x88#8] 8])) =
      some (.ok, .bits, [false, false, true, true, false, true, false, true, true, true, false, true, true, false, true, true, true, false, true, false, true, true]) := by
  decide +kernel

/-- V-RD-1. -/
theorem test_readHoldingRegisters :
    after (fun t => (t.status, t.resValid, t.resRegs, t.trace.length))
      (exec (.readHoldingRegisters 0x01#8 0x0000#16 10#16)
        (replying 8 [.bytes [0x01#8, 0x03#8, 0x14#8, 0x00#8, 0x01#8, 0x00#8, 0x02#8, 0x00#8, 0x03#8] 9, .bytes [0x00#8, 0x04#8, 0x00#8, 0x05#8, 0x00#8, 0x06#8, 0x00#8, 0x07#8, 0x00#8, 0x08#8, 0x00#8, 0x09#8, 0x00#8, 0x0A#8, 0x8F#8, 0x16#8] 16])) =
      some (.ok, .regs, [1, 2, 3, 4, 5, 6, 7, 8, 9, 10], 30) := by
  decide +kernel

/-- V-RD-2. -/
theorem test_readHoldingRegisters_longest :
    after (fun t => (t.status, t.errExp, t.errAct))
      (exec (.readHoldingRegisters 0xFF#8 0xFFFF#16 0xFFFF#16)
        (replying 8 [.zero])) =
      some (.timeoutError, 0x20003, 0) := by
  decide +kernel

/-- V-COD-33. -/
theorem test_readInputRegisters_short_count :
    after (fun t => (t.status, t.resValid, t.resRegs, t.trace.length))
      (exec (.readInputRegisters 0x01#8 0x0000#16 3#16)
        (replying 8 [.bytes [0x01#8, 0x04#8, 0x03#8, 0x00#8, 0x0A#8, 0x00#8, 0x0B#8, 0x00#8, 0x0C#8, 0xDC#8, 0x55#8] 11])) =
      some (.ok, .regs, [10, 0, 0], 28) := by
  decide +kernel

/-- V-ERR-1. -/
theorem test_readInputRegisters_crc :
    after (fun t => (t.status, t.errExp, t.errAct))
      (exec (.readInputRegisters 0x01#8 0x0000#16 3#16)
        (replying 8 [.bytes [0x01#8, 0x04#8, 0x06#8, 0x00#8, 0x0A#8, 0x00#8, 0x0B#8, 0x00#8, 0x0C#8, 0x89#8, 0x54#8] 11])) =
      some (.crcError, 0x5589, 0x5489) := by
  decide +kernel

/-- V-WR-1. -/
theorem test_writeCoil :
    after (fun t => (t.status, t.resValid))
      (exec (.writeCoil 0x01#8 0x00AC#16 true)
        (replying 8 [.bytes [0x01#8, 0x05#8, 0x00#8, 0xAC#8, 0xFF#8, 0x00#8, 0x4C#8, 0x1B#8] 8])) =
      some (.ok, .nothing) := by
  decide +kernel

/-- V-WR-3. -/
theorem test_writeCoil_echo :
    after (fun t => (t.status, t.errExp, t.errAct))
      (exec (.writeCoil 0x01#8 0x00AC#16 true)
        (replying 8 [.bytes [0x01#8, 0x05#8, 0x00#8, 0xAC#8, 0x00#8, 0x00#8, 0x0D#8, 0xEB#8] 8])) =
      some (.protocolMismatchError, 0xFF, 0x00) := by
  decide +kernel

/-- V-WR-6. -/
theorem test_writeRegister_echo :
    after (fun t => (t.status, t.errExp, t.errAct))
      (exec (.writeRegister 0x01#8 0x0010#16 0x1234#16)
        { replying 8 [.bytes [0x01#8, 0x06#8, 0x00#8, 0x10#8, 0x12#8, 0x35#8, 0x44#8, 0xB8#8] 8] with params := { echoCheckFc06 := true, txAbortRestoresRx := true } }) =
      some (.protocolMismatchError, 0x34, 0x35) := by
  decide +kernel

/-- V-TRN-7. -/
theorem test_writeRegister_abort :
    after (fun t => (t.status, t.trace.map (·.event), t.seq, t.de, t.re))
      (exec (.writeRegister 0x01#8 0x0010#16 0x1234#16)
        { replying 0 [] with writeAns := [.accepted1, .accepted1, .accepted0] }) =
      some (.transportError,
        [Event.setRE .high, Event.delay .lineSettle, Event.setDE .high, Event.delay .lineSettle,
         Event.write 0x01#8 .accepted1, Event.delay .interByte, Event.write 0x06#8 .accepted1,
         Event.delay .interByte, Event.write 0x00#8 .accepted0, Event.setDE .low, Event.delay .lineSettle,
         Event.setRE .low, Event.delay .lineSettle], .receiveMode, .low, .low) := by
  decide +kernel

/-- V-WR-8, V-TRN-9. -/
theorem test_writeMultipleCoils :
    after (fun t => (t.status, t.trace.length))
      (exec (.writeMultipleCoils 0x01#8 0x0013#16 [true, false, true, true, false, false, true, true, true, false])
        (replying 11 [.bytes [0x01#8, 0x0F#8, 0xDE#8, 0xAD#8, 0xBE#8, 0xEF#8, 0xCE#8, 0x2E#8] 8])) =
      some (.ok, 34) := by
  decide +kernel

/-- V-WR-9, V-TRN-9. -/
theorem test_writeMultipleRegisters :
    after (fun t => (t.status, t.trace.length))
      (exec (.writeMultipleRegisters 0x01#8 0x0001#16 [0x000A#16, 0x0102#16])
        (replying 13 [.bytes [0x01#8, 0x10#8, 0x00#8, 0x01#8, 0x00#8, 0x02#8, 0x10#8, 0x08#8] 8])) =
      some (.ok, 38) := by
  decide +kernel

/-- V-LIF-1. -/
theorem test_construct :
    after (fun t => (t.status, t.life, t.serOpen, t.gpioOpen, t.trace.map (·.event)))
      (exec (.construct 7 9600 3 4) (answering .ok .ok .ok [.ok, .ok])) =
      some (.ok, .opened, true, true, [Event.openStream 7 9600 .ok, Event.flush .ok, Event.openGpio .ok,
        Event.configOutput 3 .ok, Event.configOutput 4 .ok, Event.setDE .low, Event.setRE .low]) := by
  decide +kernel

/-- V-LIF-5. -/
theorem test_construct_unwinds :
    after (fun t => (t.status, t.life, t.serOpen, t.gpioOpen, t.trace.map (·.event)))
      (exec (.construct 7 9600 3 4) (answering .ok .ok .ok [.ok, .failed])) =
      some (.setupError, .closed, false, false, [Event.openStream 7 9600 .ok, Event.flush .ok,
        Event.openGpio .ok, Event.configOutput 3 .ok, Event.configOutput 4 .failed, Event.closeGpio, Event.closeStream]) := by
  decide +kernel

/-- V-LIF-6. -/
theorem test_close :
    after (fun t => (t.status, t.life, t.serOpen, t.gpioOpen, t.trace.map (·.event))) (exec .close opened) =
      some (.ok, .closed, false, false, [Event.closeStream, Event.closeGpio]) := by
  decide +kernel

/-- V-LIF-7. -/
theorem test_close_again :
    after (fun t => (t.status, t.life, t.trace)) (exec .close State.reset) = some (.ok, .closed, []) := by
  decide +kernel

/-- R111. -/
theorem test_crcReset :
    after (·.crc) (exec .crcReset { State.reset with crc := 0x1234#16 }) = some 0xFFFF#16 :=
  by decide +kernel

/-- R112. -/
theorem test_crcUpdate :
    after (·.crc) (exec (.crcUpdate 0x01#8) { State.reset with crc := 0xFFFF#16 }) = some 0x807E#16 :=
  by decide +kernel

/-- R114. -/
theorem test_crc16 : crc16 [0x01#8, 0x03#8, 0x00#8, 0x00#8, 0x00#8, 0x0A#8] = 0xCDC5#16 := by decide +kernel

/-! For every statement with hypotheses, a state and operands that meet them together, each clause at a boundary value. -/
/-- A bus operation runs on such an instance. -/
theorem ready {i : Instr} (n : Nat) (reads : List Arrival) (hbus : i.isBusOp = true) (hwf : i.WellFormed) :
    (replying n reads).Ready i :=
  ⟨hbus, hwf, rfl, rfl, ⟨rfl, rfl⟩⟩

theorem accepts (n : Nat) (reads : List Arrival) : (replying n reads).accepts n := ⟨[], by simp [replying]⟩

/-- Where its frame is accepted and its response comes as `chunks`, it exchanges them. -/
theorem exchanges {i : Instr} {n : Nat} {chunks : List (List Byte)} (hbus : i.isBusOp = true) (hwf : i.WellFormed)
    (hn : (requestFrame i).length = n) (hne : ∀ c ∈ chunks, c ≠ []) (hlen : chunks.flatten.length = i.responseLength) :
    (replying n (arrivals chunks)).Exchanges i chunks :=
  ⟨ready n _ hbus hwf, hn ▸ accepts n _, ⟨rfl, hne, [], by simp [replying]⟩, hlen⟩

/-- The coil values of the largest write. -/
def manyCoils : Instr := .writeMultipleCoils 0x01#8 0x0000#16 (List.replicate 2040 true)

/-- The register values of the largest write. -/
def manyRegs : Instr := .writeMultipleRegisters 0x01#8 0x0000#16 (List.replicate 127 0xFFFF#16)

theorem test_witness_DecodeEncodeAgree :
    manyCoils.WellFormed ∧ manyRegs.WellFormed ∧
    (Instr.construct (2 ^ 32 - 1) 0 0 (2 ^ 32 - 1)).WellFormed ∧ (Instr.readCoils 0xFF#8 0xFFFF#16 0xFFFF#16).WellFormed :=
  by decide +kernel

theorem test_witness_DecodedIsEncoded :
    decode .command [0x00#8, 0xF1#8, 0x07#8] = .instr .close [0x07#8] ∧
    decode .crcControl [0x02#8, 0xFF#8] = .instr .crcReset [] :=
  by decide +kernel

theorem test_witness_UnselectedWordsRefused :
    (0x00#8 ∉ [0x01#8, 0x02#8, 0x03#8, 0x04#8, 0x05#8, 0x06#8, 0x0F#8, 0x10#8, 0xF0#8, 0xF1#8] ∧
      0xF2#8 ∉ [0x01#8, 0x02#8, 0x03#8, 0x04#8, 0x05#8, 0x06#8, 0x0F#8, 0x10#8, 0xF0#8, 0xF1#8]) ∧
    (∃ s : State, s.control = [] ∧ s.pending = [[0x01#8, 0x00#8]]) ∧
    (∃ s : State, s.control = [] ∧ s.pending = [[0x01#8, 0xF2#8]]) ∧
    (∃ s : State, s.control = [[0x03#8, 0x00#8]]) ∧ ∃ s : State, s.control = [[0x00#8, 0xFF#8]] :=
  ⟨by decide, ⟨{ State.reset with pending := [[0x01#8, 0x00#8]] }, rfl, rfl⟩,
    ⟨{ State.reset with pending := [[0x01#8, 0xF2#8]] }, rfl, rfl⟩,
    ⟨{ State.reset with control := [[0x03#8, 0x00#8]] }, rfl⟩, ⟨{ State.reset with control := [[0x00#8, 0xFF#8]] }, rfl⟩⟩

/-- Each clause of StepRunsDecoded, and a word at either port; the control port is looked at first (log 22). -/
theorem test_witness_StepRunsDecoded :
    (State.reset.control = [] ∧ State.reset.pending = []) ∧
    (({ State.reset with pending := [[0x00#8, 0xF1#8]] } : State).takes .command [0x00#8, 0xF1#8] State.reset ∧
      decode .command [0x00#8, 0xF1#8] = .instr .close []) ∧
    (({ State.reset with control := [[0x02#8, 0x00#8]], pending := [[0x00#8, 0xF1#8]] } : State).takes .crcControl
        [0x02#8, 0x00#8] { State.reset with pending := [[0x00#8, 0xF1#8]] } ∧
      decode .crcControl [0x02#8, 0x00#8] = .instr .crcReset []) ∧
    (({ State.reset with control := [[0x00#8, 0x00#8]] } : State).takes .crcControl [0x00#8, 0x00#8] State.reset ∧
      decode .crcControl [0x00#8, 0x00#8] = .hold []) ∧
    (({ State.reset with pending := [[0x00#8]] } : State).takes .command [0x00#8] State.reset ∧
      decode .command [0x00#8] = .rejected .truncated) :=
  ⟨⟨rfl, rfl⟩, ⟨.inr ⟨rfl, [], rfl, rfl, rfl⟩, by decide +kernel⟩, ⟨.inl ⟨[], rfl, rfl, rfl⟩, by decide +kernel⟩,
    ⟨.inl ⟨[], rfl, rfl, rfl⟩, by decide +kernel⟩, ⟨.inr ⟨rfl, [], rfl, rfl, rfl⟩, by decide +kernel⟩⟩

/-- R120: the generator's control words are nothing at the host's port. -/
theorem test_host_no_generator :
    refusal (step { State.reset with pending := [[0x02#8, 0x00#8]] }) = some (.undecodable (.unknownSelector 0x00#8)) := by
  decide +kernel

/-- For both clauses of HostCannotReachGenerator: a step with no command, and one with a bus operation. -/
theorem test_witness_HostCannotReachGenerator :
    decode .command [0x01#8, 0x01#8, 0x00#8, 0x00#8, 0x00#8, 0x00#8] = .instr (.readCoils 0x01#8 0x0000#16 0x0000#16) [] ∧
    (State.reset.control = [] ∧ ∃ t, step State.reset = .next t) ∧
    opened.control = [] ∧
    after (·.crc) (step { replying 8 [.zero] with pending := [[0x01#8, 0x01#8, 0x00#8, 0x00#8, 0x00#8, 0x00#8]] }) =
      some (crc16 [0x01#8, 0x01#8, 0x00#8, 0x00#8, 0x00#8, 0x00#8]) :=
  ⟨by decide +kernel, ⟨rfl, _, rfl⟩, rfl, by decide +kernel⟩

/-- The second case of GeneratorRuns (V-COD-43): the run over the response is the last. -/
theorem test_witness_GeneratorRuns :
    after (·.crc) (exec (.readCoils 0x01#8 0x0000#16 0x0000#16)
      (replying 8 (arrivals [[0x01#8, 0x01#8, 0x00#8, 0x21#8, 0x90#8]]))) = some 0x9021#16 := by
  decide +kernel

theorem test_witness_CrcUpdateResult : ({ State.reset with crc := 0xFFFF#16 } : State).crc = 0xFFFF#16 := rfl

theorem test_witness_Crc16IsTheFold :
    (∃ s : State, s.control = [0x02#8, 0x00#8] :: (([] : List Byte).map (fun b => [0x01#8, b]) ++ [])) ∧
    ∃ s : State, s.control = [0x02#8, 0x00#8] :: ([0xFF#8].map (fun b => [0x01#8, b]) ++ []) :=
  ⟨⟨{ State.reset with control := [[0x02#8, 0x00#8]] }, rfl⟩,
    ⟨{ State.reset with control := [[0x02#8, 0x00#8], [0x01#8, 0xFF#8]] }, rfl⟩⟩

theorem test_witness_CrcResidue :
    2 ≤ ([0xFF#8, 0xFF#8] : List Byte).length ∧ receivedCrc [0xFF#8, 0xFF#8] = computedCrc [0xFF#8, 0xFF#8] :=
  by decide +kernel

theorem test_witness_CrcAffine : ([0x01#8, 0x03#8] : List Byte).length = ([0x80#8, 0x00#8] : List Byte).length := rfl

/-- V-COD-43, its last bit and its last byte. -/
theorem test_witness_SingleBitErrorsDetected :
    5 ≤ ([0x01#8, 0x01#8, 0x00#8, 0x21#8, 0x90#8] : List Byte).length ∧ 4 < ([0x01#8, 0x01#8, 0x00#8, 0x21#8, 0x90#8] : List Byte).length ∧ 7 < 8 ∧
    receivedCrc [0x01#8, 0x01#8, 0x00#8, 0x21#8, 0x90#8] = computedCrc [0x01#8, 0x01#8, 0x00#8, 0x21#8, 0x90#8] :=
  by decide +kernel

/-- The last flip that is a ProtocolMismatchError, the first that is a CrcError, and the last bit of the response. -/
theorem test_witness_FlippedResponseBit :
    Accepted (.readCoils 0x01#8 0x0000#16 0x0000#16) [0x01#8, 0x01#8, 0x00#8, 0x21#8, 0x90#8] ∧
    (replying 8 (arrivals [[0x01#8, 0x81#8, 0x00#8, 0x21#8, 0x90#8]])).Exchanges (.readCoils 0x01#8 0x0000#16 0x0000#16)
      [[0x01#8, 0x81#8, 0x00#8, 0x21#8, 0x90#8]] ∧
    [[0x01#8, 0x81#8, 0x00#8, 0x21#8, 0x90#8]].flatten =
      [0x01#8, 0x01#8, 0x00#8, 0x21#8, 0x90#8].set 1 (byteAt [0x01#8, 0x01#8, 0x00#8, 0x21#8, 0x90#8] 1 ^^^ (1#8 <<< 7)) ∧
    (replying 8 (arrivals [[0x01#8, 0x01#8, 0x01#8, 0x21#8, 0x90#8]])).Exchanges (.readCoils 0x01#8 0x0000#16 0x0000#16)
      [[0x01#8, 0x01#8, 0x01#8, 0x21#8, 0x90#8]] ∧
    [[0x01#8, 0x01#8, 0x01#8, 0x21#8, 0x90#8]].flatten =
      [0x01#8, 0x01#8, 0x00#8, 0x21#8, 0x90#8].set 2 (byteAt [0x01#8, 0x01#8, 0x00#8, 0x21#8, 0x90#8] 2 ^^^ (1#8 <<< 0)) ∧
    (replying 8 (arrivals [[0x01#8, 0x01#8, 0x00#8, 0x21#8, 0x10#8]])).Exchanges (.readCoils 0x01#8 0x0000#16 0x0000#16)
      [[0x01#8, 0x01#8, 0x00#8, 0x21#8, 0x10#8]] ∧
    [[0x01#8, 0x01#8, 0x00#8, 0x21#8, 0x10#8]].flatten =
      [0x01#8, 0x01#8, 0x00#8, 0x21#8, 0x90#8].set 4 (byteAt [0x01#8, 0x01#8, 0x00#8, 0x21#8, 0x90#8] 4 ^^^ (1#8 <<< 7)) :=
  ⟨⟨by decide +kernel, by decide +kernel, by decide +kernel⟩, exchanges rfl rfl (by decide +kernel) (by decide +kernel) (by decide +kernel), by decide +kernel,
    exchanges rfl rfl (by decide +kernel) (by decide +kernel) (by decide +kernel), by decide +kernel,
    exchanges rfl rfl (by decide +kernel) (by decide +kernel) (by decide +kernel), by decide +kernel⟩

theorem test_witness_RequestFrames :
    (List.replicate 2040 true).length ≤ 2040 ∧ 8 * 255 - 1 < 8 * 255 ∧ (List.replicate 127 (0xFFFF#16 : Word)).length ≤ 127 ∧
    (Instr.writeRegister 0x01#8 0x0010#16 0x1234#16, 0x06#8) ∈
      [(Instr.readCoils 0x01#8 0x0010#16 0x1234#16, 0x01#8), (Instr.writeRegister 0x01#8 0x0010#16 0x1234#16, 0x06#8)] :=
  by decide +kernel

/-- V-COD-4. -/
theorem test_witness_PackUnpackRoundTrip :
    (List.replicate 9 true).length ≤ 2040 ∧ (byteAt [0x01#8, 0x01#8, 0x02#8, 0xFF#8, 0x01#8] 2).toNat = ((List.replicate 9 true).length + 7) / 8 ∧
    ([0x01#8, 0x01#8, 0x02#8, 0xFF#8, 0x01#8].drop 3).take (((List.replicate 9 true).length + 7) / 8) = packBits (List.replicate 9 true) :=
  by decide +kernel

theorem test_witness_CommandsAlwaysEnd :
    (replying 0 []).Ready manyCoils ∧ State.reset.life = .closed ∧ State.reset.answersLeft = none :=
  ⟨ready 0 [] rfl (by decide +kernel), rfl, rfl⟩

/-- A run that comes to receive. -/
theorem test_witness_TurnaroundOrder :
    (Instr.readCoils 0x01#8 0x0000#16 0x0000#16).isBusOp = true ∧
    after (fun t => (newEntries (replying 8 []) t).any (fun e => decide (e.seq = .receiving)))
      (exec (.readCoils 0x01#8 0x0000#16 0x0000#16) (replying 8 [.zero])) = some true :=
  by decide +kernel

theorem test_witness_FrameIsSentWhole :
    (replying 264 []).Ready manyCoils ∧ (replying 264 []).accepts (requestFrame manyCoils).length :=
  by
  have h : (requestFrame manyCoils).length = 264 := by decide +kernel
  rw [h]
  exact ⟨ready 264 [] rfl (by decide +kernel), accepts 264 []⟩

theorem test_witness_AtMostOneFrame :
    State.reset.BuffersOk ∧ (∃ t, exec .close State.reset = .next t) ∧
    opened.BuffersOk ∧ ∃ t, exec (.readCoils 0x01#8 0x0000#16 0x0000#16) opened = .next t :=
  ⟨⟨rfl, rfl⟩, ⟨_, rfl⟩, ⟨rfl, rfl⟩, ⟨_, exec_ready (ready 0 [] rfl rfl)⟩⟩

theorem test_witness_TransmitAbort :
    (∃ s : State, s.Ready (.readCoils 0x01#8 0x0000#16 0x0000#16) ∧ s.params.txAbortRestoresRx = true ∧
      s.writeAns = List.replicate 0 .accepted1 ++ .writeError :: []) ∧
    (∃ s : State, s.Ready (.readCoils 0x01#8 0x0000#16 0x0000#16) ∧ s.params.txAbortRestoresRx = false ∧
      s.writeAns = List.replicate 7 .accepted1 ++ .accepted0 :: []) ∧
    7 < (requestFrame (.readCoils 0x01#8 0x0000#16 0x0000#16)).length :=
  ⟨⟨{ opened with writeAns := [.writeError] }, ⟨rfl, rfl, rfl, rfl, ⟨rfl, rfl⟩⟩, rfl, rfl⟩,
    ⟨{ opened with
        writeAns := List.replicate 7 .accepted1 ++ [.accepted0]
        params := { echoCheckFc06 := false, txAbortRestoresRx := false } },
      ⟨rfl, rfl, rfl, rfl, ⟨rfl, rfl⟩⟩, rfl, rfl⟩, by decide +kernel⟩

/-- No byte at all, and one byte short. -/
theorem test_witness_ShortResponse :
    (replying 8 [.zero]).Ready (.readCoils 0x01#8 0x0000#16 0x0000#16) ∧
    (replying 8 [.zero]).accepts (requestFrame (.readCoils 0x01#8 0x0000#16 0x0000#16)).length ∧
    (replying 8 (arrivals [[0x01#8, 0x01#8, 0x00#8, 0x21#8]] ++ [.eos])).Ready (.readCoils 0x01#8 0x0000#16 0x0000#16) ∧
    ([[0x01#8, 0x01#8, 0x00#8, 0x21#8]] : List (List Byte)).flatten.length < (Instr.readCoils 0x01#8 0x0000#16 0x0000#16).responseLength :=
  ⟨ready _ _ rfl rfl, accepts 8 _, ready _ _ rfl rfl, by decide +kernel⟩

theorem test_witness_ReadErrorEnds :
    (replying 8 (arrivals [[0x01#8, 0x01#8, 0x00#8, 0x21#8]] ++ [.readError])).Ready (.readCoils 0x01#8 0x0000#16 0x0000#16) ∧
    (replying 8 (arrivals [[0x01#8, 0x01#8, 0x00#8, 0x21#8]] ++ [.readError])).accepts (requestFrame (.readCoils 0x01#8 0x0000#16 0x0000#16)).length ∧
    ([[0x01#8, 0x01#8, 0x00#8, 0x21#8]] : List (List Byte)).flatten.length < (Instr.readCoils 0x01#8 0x0000#16 0x0000#16).responseLength :=
  ⟨ready _ _ rfl rfl, accepts 8 _, by decide +kernel⟩

/-- V-COD-43 in three reads. -/
theorem test_witness_SuccessfulExchangeTrace :
    (replying 8 (arrivals [[0x01#8], [0x01#8, 0x00#8], [0x21#8, 0x90#8]])).Exchanges (.readCoils 0x01#8 0x0000#16 0x0000#16)
      [[0x01#8], [0x01#8, 0x00#8], [0x21#8, 0x90#8]] :=
  exchanges rfl rfl (by decide +kernel) (by decide +kernel) (by decide +kernel)

/-- V-ERR-6. -/
theorem test_witness_ResponseJudged_slave :
    (replying 8 (arrivals [[0x02#8, 0x03#8, 0x06#8, 0x00#8, 0x0A#8, 0x00#8, 0x0B#8, 0x00#8, 0x0C#8, 0x00#8, 0x00#8]])).Exchanges (.readInputRegisters 0x01#8 0x0000#16 0x0003#16)
      [[0x02#8, 0x03#8, 0x06#8, 0x00#8, 0x0A#8, 0x00#8, 0x0B#8, 0x00#8, 0x0C#8, 0x00#8, 0x00#8]] ∧
    byteAt [0x02#8, 0x03#8, 0x06#8, 0x00#8, 0x0A#8, 0x00#8, 0x0B#8, 0x00#8, 0x0C#8, 0x00#8, 0x00#8] 0 ≠ (Instr.readInputRegisters 0x01#8 0x0000#16 0x0003#16).slaveByte :=
  ⟨exchanges rfl rfl (by decide +kernel) (by decide +kernel) (by decide +kernel), by decide +kernel⟩

/-- V-ERR-7. -/
theorem test_witness_ResponseJudged_code :
    (replying 8 (arrivals [[0x01#8, 0x03#8, 0x06#8, 0x00#8, 0x0A#8, 0x00#8, 0x0B#8, 0x00#8, 0x0C#8, 0x00#8, 0x00#8]])).Exchanges (.readInputRegisters 0x01#8 0x0000#16 0x0003#16)
      [[0x01#8, 0x03#8, 0x06#8, 0x00#8, 0x0A#8, 0x00#8, 0x0B#8, 0x00#8, 0x0C#8, 0x00#8, 0x00#8]] ∧
    byteAt [0x01#8, 0x03#8, 0x06#8, 0x00#8, 0x0A#8, 0x00#8, 0x0B#8, 0x00#8, 0x0C#8, 0x00#8, 0x00#8] 0 = 0x01#8 ∧ byteAt [0x01#8, 0x03#8, 0x06#8, 0x00#8, 0x0A#8, 0x00#8, 0x0B#8, 0x00#8, 0x0C#8, 0x00#8, 0x00#8] 1 ≠ 0x04#8 :=
  ⟨exchanges rfl rfl (by decide +kernel) (by decide +kernel) (by decide +kernel), by decide +kernel⟩

/-- V-ERR-1. -/
theorem test_witness_ResponseJudged_crc :
    (replying 8 (arrivals [[0x01#8, 0x04#8, 0x06#8, 0x00#8, 0x0A#8, 0x00#8, 0x0B#8, 0x00#8, 0x0C#8, 0x89#8, 0x54#8]])).Exchanges (.readInputRegisters 0x01#8 0x0000#16 0x0003#16)
      [[0x01#8, 0x04#8, 0x06#8, 0x00#8, 0x0A#8, 0x00#8, 0x0B#8, 0x00#8, 0x0C#8, 0x89#8, 0x54#8]] ∧
    byteAt [0x01#8, 0x04#8, 0x06#8, 0x00#8, 0x0A#8, 0x00#8, 0x0B#8, 0x00#8, 0x0C#8, 0x89#8, 0x54#8] 0 = 0x01#8 ∧ byteAt [0x01#8, 0x04#8, 0x06#8, 0x00#8, 0x0A#8, 0x00#8, 0x0B#8, 0x00#8, 0x0C#8, 0x89#8, 0x54#8] 1 = 0x04#8 ∧
    receivedCrc [0x01#8, 0x04#8, 0x06#8, 0x00#8, 0x0A#8, 0x00#8, 0x0B#8, 0x00#8, 0x0C#8, 0x89#8, 0x54#8] ≠
      computedCrc [0x01#8, 0x04#8, 0x06#8, 0x00#8, 0x0A#8, 0x00#8, 0x0B#8, 0x00#8, 0x0C#8, 0x89#8, 0x54#8] :=
  ⟨exchanges rfl rfl (by decide +kernel) (by decide +kernel) (by decide +kernel), by decide +kernel⟩

/-- V-COD-30. -/
theorem test_witness_ResponseJudged_accepted :
    (replying 8 (arrivals [[0x01#8, 0x04#8, 0x06#8, 0x00#8, 0x0A#8, 0x00#8, 0x0B#8, 0x00#8, 0x0C#8, 0x89#8, 0x55#8]])).Exchanges (.readInputRegisters 0x01#8 0x0000#16 0x0003#16)
      [[0x01#8, 0x04#8, 0x06#8, 0x00#8, 0x0A#8, 0x00#8, 0x0B#8, 0x00#8, 0x0C#8, 0x89#8, 0x55#8]] ∧
    Accepted (.readInputRegisters 0x01#8 0x0000#16 0x0003#16)
      [0x01#8, 0x04#8, 0x06#8, 0x00#8, 0x0A#8, 0x00#8, 0x0B#8, 0x00#8, 0x0C#8, 0x89#8, 0x55#8] ∧
    (Instr.readInputRegisters 0x01#8 0x0000#16 0x0003#16).echoes Config.defaultParams = false :=
  ⟨exchanges rfl rfl (by decide +kernel) (by decide +kernel) (by decide +kernel), ⟨by decide +kernel, by decide +kernel, by decide +kernel⟩, rfl⟩

/-- V-COD-41: bit 15 is covered, bit 16 is not. -/
theorem test_witness_ReadBitsResult :
    (replying 8 (arrivals [[0x01#8, 0x01#8, 0x02#8, 0xCD#8, 0x6B#8, 0x05#8, 0x43#8, 0x7E#8]])).Exchanges (.readCoils 0x01#8 0x0013#16 0x0013#16)
      [[0x01#8, 0x01#8, 0x02#8, 0xCD#8, 0x6B#8, 0x05#8, 0x43#8, 0x7E#8]] ∧
    Accepted (.readCoils 0x01#8 0x0013#16 0x0013#16)
      [0x01#8, 0x01#8, 0x02#8, 0xCD#8, 0x6B#8, 0x05#8, 0x43#8, 0x7E#8] :=
  ⟨exchanges rfl rfl (by decide +kernel) (by decide +kernel) (by decide +kernel), ⟨by decide +kernel, by decide +kernel, by decide +kernel⟩⟩

/-- V-COD-42. -/
theorem test_witness_ReadBitsResult_inputs :
    (replying 8 (arrivals [[0x01#8, 0x02#8, 0x03#8, 0xAC#8, 0xDB#8, 0x35#8, 0x22#8, 0x88#8]])).Exchanges (.readDiscreteInputs 0x01#8 0x00C4#16 0x0016#16)
      [[0x01#8, 0x02#8, 0x03#8, 0xAC#8, 0xDB#8, 0x35#8, 0x22#8, 0x88#8]] ∧
    Accepted (.readDiscreteInputs 0x01#8 0x00C4#16 0x0016#16)
      [0x01#8, 0x02#8, 0x03#8, 0xAC#8, 0xDB#8, 0x35#8, 0x22#8, 0x88#8] :=
  ⟨exchanges rfl rfl (by decide +kernel) (by decide +kernel) (by decide +kernel), ⟨by decide +kernel, by decide +kernel, by decide +kernel⟩⟩

/-- V-COD-47: count 0. -/
theorem test_witness_ReadRegistersResult :
    (replying 8 (arrivals [[0x01#8, 0x03#8, 0x00#8, 0x20#8, 0xF0#8]])).Exchanges (.readHoldingRegisters 0x01#8 0x0000#16 0x0000#16)
      [[0x01#8, 0x03#8, 0x00#8, 0x20#8, 0xF0#8]] ∧
    Accepted (.readHoldingRegisters 0x01#8 0x0000#16 0x0000#16)
      [0x01#8, 0x03#8, 0x00#8, 0x20#8, 0xF0#8] :=
  ⟨exchanges rfl rfl (by decide +kernel) (by decide +kernel) (by decide +kernel), ⟨by decide +kernel, by decide +kernel, by decide +kernel⟩⟩

/-- V-COD-31: half of the last register is covered. -/
theorem test_witness_ReadRegistersResult_input :
    (replying 8 (arrivals [[0x01#8, 0x04#8, 0x05#8, 0x00#8, 0x0A#8, 0x00#8, 0x0B#8, 0x00#8, 0x0C#8, 0xBA#8, 0x55#8]])).Exchanges (.readInputRegisters 0x01#8 0x0000#16 0x0003#16)
      [[0x01#8, 0x04#8, 0x05#8, 0x00#8, 0x0A#8, 0x00#8, 0x0B#8, 0x00#8, 0x0C#8, 0xBA#8, 0x55#8]] ∧
    Accepted (.readInputRegisters 0x01#8 0x0000#16 0x0003#16)
      [0x01#8, 0x04#8, 0x05#8, 0x00#8, 0x0A#8, 0x00#8, 0x0B#8, 0x00#8, 0x0C#8, 0xBA#8, 0x55#8] :=
  ⟨exchanges rfl rfl (by decide +kernel) (by decide +kernel) (by decide +kernel), ⟨by decide +kernel, by decide +kernel, by decide +kernel⟩⟩

/-- V-WR-1. -/
theorem test_witness_WriteCoilResult :
    (replying 8 (arrivals [[0x01#8, 0x05#8, 0x00#8, 0xAC#8, 0xFF#8, 0x00#8, 0x4C#8, 0x1B#8]])).Exchanges (.writeCoil 0x01#8 0x00AC#16 true)
      [[0x01#8, 0x05#8, 0x00#8, 0xAC#8, 0xFF#8, 0x00#8, 0x4C#8, 0x1B#8]] ∧
    Accepted (.writeCoil 0x01#8 0x00AC#16 true)
      [0x01#8, 0x05#8, 0x00#8, 0xAC#8, 0xFF#8, 0x00#8, 0x4C#8, 0x1B#8] ∧
    ∀ k, k < 6 → byteAt [0x01#8, 0x05#8, 0x00#8, 0xAC#8, 0xFF#8, 0x00#8, 0x4C#8, 0x1B#8] k = byteAt (requestFrame (.writeCoil 0x01#8 0x00AC#16 true)) k :=
  ⟨exchanges rfl rfl (by decide +kernel) (by decide +kernel) (by decide +kernel), ⟨by decide +kernel, by decide +kernel, by decide +kernel⟩, by decide +kernel⟩

/-- V-WR-3. -/
theorem test_witness_WriteCoilResult_differs :
    (replying 8 (arrivals [[0x01#8, 0x05#8, 0x00#8, 0xAC#8, 0x00#8, 0x00#8, 0x0D#8, 0xEB#8]])).Exchanges (.writeCoil 0x01#8 0x00AC#16 true)
      [[0x01#8, 0x05#8, 0x00#8, 0xAC#8, 0x00#8, 0x00#8, 0x0D#8, 0xEB#8]] ∧
    Accepted (.writeCoil 0x01#8 0x00AC#16 true)
      [0x01#8, 0x05#8, 0x00#8, 0xAC#8, 0x00#8, 0x00#8, 0x0D#8, 0xEB#8] ∧
    ¬ ∀ k, k < 6 → byteAt [0x01#8, 0x05#8, 0x00#8, 0xAC#8, 0x00#8, 0x00#8, 0x0D#8, 0xEB#8] k = byteAt (requestFrame (.writeCoil 0x01#8 0x00AC#16 true)) k :=
  ⟨exchanges rfl rfl (by decide +kernel) (by decide +kernel) (by decide +kernel), ⟨by decide +kernel, by decide +kernel, by decide +kernel⟩, by decide +kernel⟩

/-- V-COD-51, offset 4. -/
theorem test_witness_EchoMismatch :
    (replying 8 (arrivals [[0x01#8, 0x05#8, 0x00#8, 0xAC#8, 0x00#8, 0x00#8, 0x0D#8, 0xEB#8]])).Exchanges (.writeCoil 0x01#8 0x00AC#16 true)
      [[0x01#8, 0x05#8, 0x00#8, 0xAC#8, 0x00#8, 0x00#8, 0x0D#8, 0xEB#8]] ∧
    Accepted (.writeCoil 0x01#8 0x00AC#16 true)
      [0x01#8, 0x05#8, 0x00#8, 0xAC#8, 0x00#8, 0x00#8, 0x0D#8, 0xEB#8] ∧
    byteAt [0x01#8, 0x05#8, 0x00#8, 0xAC#8, 0x00#8, 0x00#8, 0x0D#8, 0xEB#8] 4 ≠ byteAt (requestFrame (.writeCoil 0x01#8 0x00AC#16 true)) 4 ∧
    ∀ j, j < 4 → byteAt [0x01#8, 0x05#8, 0x00#8, 0xAC#8, 0x00#8, 0x00#8, 0x0D#8, 0xEB#8] j = byteAt (requestFrame (.writeCoil 0x01#8 0x00AC#16 true)) j :=
  ⟨exchanges rfl rfl (by decide +kernel) (by decide +kernel) (by decide +kernel), ⟨by decide +kernel, by decide +kernel, by decide +kernel⟩, by decide +kernel⟩

/-- V-WR-8. -/
theorem test_witness_WriteOpsSucceed_coils :
    (replying 11 (arrivals [[0x01#8, 0x0F#8, 0xDE#8, 0xAD#8, 0xBE#8, 0xEF#8, 0xCE#8, 0x2E#8]])).Exchanges (.writeMultipleCoils 0x01#8 0x0013#16 [true, false, true, true, false, false, true, true, true, false])
      [[0x01#8, 0x0F#8, 0xDE#8, 0xAD#8, 0xBE#8, 0xEF#8, 0xCE#8, 0x2E#8]] ∧
    Accepted (.writeMultipleCoils 0x01#8 0x0013#16 [true, false, true, true, false, false, true, true, true, false])
      [0x01#8, 0x0F#8, 0xDE#8, 0xAD#8, 0xBE#8, 0xEF#8, 0xCE#8, 0x2E#8] :=
  ⟨exchanges rfl (by decide +kernel) (by decide +kernel) (by decide +kernel) (by decide +kernel), ⟨by decide +kernel, by decide +kernel, by decide +kernel⟩⟩

/-- V-WR-9. -/
theorem test_witness_WriteOpsSucceed_regs :
    (replying 13 (arrivals [[0x01#8, 0x10#8, 0x00#8, 0x01#8, 0x00#8, 0x02#8, 0x10#8, 0x08#8]])).Exchanges (.writeMultipleRegisters 0x01#8 0x0001#16 [0x000A#16, 0x0102#16])
      [[0x01#8, 0x10#8, 0x00#8, 0x01#8, 0x00#8, 0x02#8, 0x10#8, 0x08#8]] ∧
    Accepted (.writeMultipleRegisters 0x01#8 0x0001#16 [0x000A#16, 0x0102#16])
      [0x01#8, 0x10#8, 0x00#8, 0x01#8, 0x00#8, 0x02#8, 0x10#8, 0x08#8] :=
  ⟨exchanges rfl (by decide +kernel) (by decide +kernel) (by decide +kernel) (by decide +kernel), ⟨by decide +kernel, by decide +kernel, by decide +kernel⟩⟩

/-- V-WR-5; for WRITE_COIL `test_witness_WriteCoilResult`. -/
theorem test_witness_WriteOpsSucceed_register :
    (replying 8 (arrivals [[0x01#8, 0x06#8, 0x00#8, 0x10#8, 0x12#8, 0x35#8, 0x44#8, 0xB8#8]])).Exchanges (.writeRegister 0x01#8 0x0010#16 0x1234#16)
      [[0x01#8, 0x06#8, 0x00#8, 0x10#8, 0x12#8, 0x35#8, 0x44#8, 0xB8#8]] ∧
    Accepted (.writeRegister 0x01#8 0x0010#16 0x1234#16)
      [0x01#8, 0x06#8, 0x00#8, 0x10#8, 0x12#8, 0x35#8, 0x44#8, 0xB8#8]
    ∧ (Instr.writeRegister 0x01#8 0x0010#16 0x1234#16).echoes Config.defaultParams = false :=
  ⟨exchanges rfl rfl (by decide +kernel) (by decide +kernel) (by decide +kernel), ⟨by decide +kernel, by decide +kernel, by decide +kernel⟩, rfl⟩

theorem test_witness_SplitsDoNotMatter :
    (replying 8 (arrivals [[0x01#8, 0x01#8, 0x00#8, 0x21#8, 0x90#8]])).Exchanges (.readCoils 0x01#8 0x0000#16 0x0000#16)
      [[0x01#8, 0x01#8, 0x00#8, 0x21#8, 0x90#8]] ∧
    (∀ c ∈ [[0x01#8], [0x01#8, 0x00#8, 0x21#8, 0x90#8]], c ≠ []) ∧
    [[0x01#8], [0x01#8, 0x00#8, 0x21#8, 0x90#8]].flatten = [[0x01#8, 0x01#8, 0x00#8, 0x21#8, 0x90#8]].flatten :=
  ⟨exchanges rfl rfl (by decide +kernel) (by decide +kernel) (by decide +kernel), by decide +kernel, by decide +kernel⟩

/-- V-RD-4. -/
theorem test_witness_ExceptionResponses :
    (replying 8 (arrivals [appendCrc [0x01#8, 0x84#8, 0x02#8]] ++ [.zero])).Ready (.readInputRegisters 0x01#8 0x0000#16 0x0003#16) ∧
    (Instr.readInputRegisters 0x01#8 0x0000#16 0x0003#16).responseLength = 11 :=
  ⟨ready _ _ rfl rfl, by decide +kernel⟩

/-- V-RD-5. -/
theorem test_witness_ExceptionResponses_count0 :
    (replying 8 (arrivals [appendCrc [0x01#8, 0x81#8, 0x02#8]] ++ [.zero])).Ready (.readCoils 0x01#8 0x0000#16 0x0000#16) ∧
    (Instr.readCoils 0x01#8 0x0000#16 0x0000#16).responseLength = 5 :=
  ⟨ready _ _ rfl rfl, by decide +kernel⟩

/-- For StaleBytesFirst (R247, D16): one byte is queued, six arrive, five are taken and two stay. -/
theorem test_witness_StaleBytesFirst :
    after (fun t => (deliveredBytes (newEntries
        { replying 8 [.bytes [0x01#8, 0x02#8, 0x03#8, 0x04#8, 0x05#8, 0x06#8] 9] with rxQueue := [0xAA#8] } t), t.rxQueue))
      (exec (.readCoils 0x01#8 0x0000#16 0x0000#16)
        { replying 8 [.bytes [0x01#8, 0x02#8, 0x03#8, 0x04#8, 0x05#8, 0x06#8] 9] with rxQueue := [0xAA#8] }) =
      some ([0xAA#8, 0x01#8, 0x02#8, 0x03#8, 0x04#8], [0x05#8, 0x06#8]) := by
  decide +kernel

/-- For StaleBytesFirst, ExchangeEnds, TraceInTable, SeqGoesForward, RequestRegisters and GeneratorRuns. -/
theorem test_witness_BusRuns :
    (Instr.readCoils 0x01#8 0x0000#16 0x0000#16).isBusOp = true ∧ opened.BuffersOk ∧
    ∃ t, exec (.readCoils 0x01#8 0x0000#16 0x0000#16) opened = .next t :=
  ⟨rfl, ⟨rfl, rfl⟩, ⟨_, exec_ready (ready 0 [] rfl rfl)⟩⟩

/-- For the clauses of RequestRegisters, and for ReadOpsFrame and WriteOpsFrame. -/
theorem test_witness_BusRuns_all :
    (∃ t, exec (.readDiscreteInputs 0x01#8 0#16 0#16) opened = .next t) ∧
    (∃ t, exec (.readHoldingRegisters 0x01#8 0#16 0#16) opened = .next t) ∧
    (∃ t, exec (.readInputRegisters 0x01#8 0#16 0#16) opened = .next t) ∧
    (∃ t, exec (.writeCoil 0x01#8 0x00AC#16 true) opened = .next t) ∧ (∃ t, exec (.writeRegister 0x01#8 0x0010#16 0x1234#16) opened = .next t) ∧
    (∃ t, exec (.writeMultipleCoils 0x01#8 0#16 []) opened = .next t) ∧
    ∃ t, exec (.writeMultipleRegisters 0x01#8 0#16 []) opened = .next t :=
  ⟨⟨_, exec_ready (ready 0 [] rfl rfl)⟩, ⟨_, exec_ready (ready 0 [] rfl rfl)⟩, ⟨_, exec_ready (ready 0 [] rfl rfl)⟩,
    ⟨_, exec_ready (ready 0 [] rfl rfl)⟩, ⟨_, exec_ready (ready 0 [] rfl rfl)⟩, ⟨_, exec_ready (ready 0 [] rfl rfl)⟩,
    ⟨_, exec_ready (ready 0 [] rfl rfl)⟩⟩

theorem test_witness_LeftoversDoNotMatter :
    (replying 8 []).Ready manyRegs ∧ Memory.wf [(0, 0x01#8), (263, 0xFF#8)] = true ∧ Memory.wf [(131074, 0x01#8)] = true :=
  ⟨ready _ _ rfl (by decide +kernel), rfl, rfl⟩

/-- V-LIF-1. -/
theorem test_witness_ConstructSucceeds :
    ∃ s : State, s.life = .closed ∧ s.answersLeft = none ∧ s.openAns = .ok :: [] ∧ s.flushAns = .ok :: [] ∧
    s.gpioAns = .ok :: [] ∧ s.configAns = .ok :: .ok :: [] :=
  ⟨answering .ok .ok .ok [.ok, .ok], rfl, rfl, rfl, rfl, rfl, rfl⟩

/-- V-LIF-5. -/
theorem test_witness_ConstructUnwinds :
    ∃ s : State, s.life = .closed ∧ s.serOpen = false ∧ s.gpioOpen = false ∧ s.answersLeft = none ∧
    after (·.status) (exec (.construct 7 9600 3 4) s) = some .setupError :=
  ⟨answering .ok .ok .ok [.ok, .failed], rfl, rfl, rfl, rfl, by decide +kernel⟩

/-- V-LIF-2, V-LIF-4. -/
theorem test_witness_ConstructErrorKinds :
    after (fun t => (t.status, (t.events.drop State.reset.events.length)))
      (exec (.construct 7 9600 3 4) (answering .failed .ok .ok [])) =
        some (.transportError, [Event.openStream 7 9600 .failed]) ∧
    after (fun t => (t.status, (t.events.drop State.reset.events.length)))
      (exec (.construct 7 9600 3 4) (answering .ok .ok .failed [])) = some (.setupError,
        [Event.openStream 7 9600 .ok, Event.flush .ok, Event.openGpio .failed, Event.closeStream]) :=
  by decide +kernel

/-- And for LifecycleTransitions. -/
theorem test_witness_ConstructFrame :
    ∃ t, exec (.construct 7 9600 3 4) State.reset = .next t ∧ State.reset.life = .closed :=
  ⟨_, rfl, rfl⟩

/-- And for ResultValidity. -/
theorem test_witness_CloseIdempotent : ∃ t, exec .close opened = .next t := ⟨_, rfl⟩

theorem test_witness_RefusedCommands :
    State.reset.life = .closed ∧ manyCoils.isBusOp = true ∧ manyCoils.WellFormed ∧ opened.life = .opened ∧
    2040 < (List.replicate 2041 true).length ∧ 127 < (List.replicate 128 (0#16 : Word)).length :=
  by decide +kernel

theorem test_witness_SetupErrorOnlyFromConstruct :
    after (·.status) (exec (.construct 7 9600 3 4) (answering .ok .ok .failed [])) = some .setupError ∧
    after (·.status) (exec (.crcUpdate 0x00#8) { opened with status := .setupError }) = some .setupError :=
  by decide +kernel

theorem test_witness_ResultValidity :
    after (·.status) (exec (.readCoils 0x01#8 0x0000#16 0x0000#16) (replying 8 (arrivals [[0x01#8, 0x01#8, 0x00#8, 0x21#8, 0x90#8]]))) = some .ok ∧
    after (·.status) (exec (.readCoils 0x01#8 0x0000#16 0x0000#16) (replying 8 [.zero])) = some .timeoutError :=
  by decide +kernel

/-- Nine calls: with 9 answers the command ends, with 8 it does not. -/
theorem test_witness_UnansweredCallsStick :
    (∃ t, exec (.construct 7 9600 3 4) { State.reset with answersLeft := none } = .next t) ∧
    after (fun t => ((newEntries (replying 8 []) t).filter (fun e => e.event.awaits)).length)
      (exec (.readCoils 0x01#8 0x0000#16 0x0000#16) { replying 8 [.zero] with answersLeft := none }) = some 9 :=
  ⟨⟨_, rfl⟩, by decide +kernel⟩

/-- And for FixedByEveryStep. -/
theorem test_witness_StepKeepsInv :
    State.reset.Inv ∧ ∃ t, step State.reset = .next t :=
  ⟨⟨rfl, rfl, rfl, rfl, by decide, by decide, fun h => (nomatch h), fun _ => ⟨rfl, rfl⟩, fun _ h => (nomatch h)⟩, ⟨_, rfl⟩⟩

theorem test_witness_StepKeepsInv_open :
    opened.Inv :=
  ⟨rfl, rfl, rfl, rfl, by decide, by decide, fun _ => ⟨rfl, rfl, rfl, rfl⟩, fun h => (nomatch h), fun _ h => (nomatch h)⟩

/-- V-LIF-8, V-LIF-9, V-WR-12, V-WR-13. -/
theorem test_refusals :
    refusal (exec (.readCoils 0x01#8 0x0000#16 0x0001#16) State.reset) = some .closedInstance ∧
    refusal (exec (.construct 7 9600 3 4) opened) = some .alreadyOpen ∧
    refusal (exec (.writeMultipleCoils 0x01#8 0#16 (List.replicate 2041 true)) opened) = some .tooManyCoils ∧
    refusal (exec (.writeMultipleRegisters 0x01#8 0#16 (List.replicate 128 0#16)) opened) = some .tooManyRegisters := by
  decide +kernel

/-- U11 (log 5): eight answers for a command of nine calls. -/
theorem test_call_never_answers :
    fault (exec (.readCoils 0x01#8 0x0000#16 0x0000#16) { replying 8 [.zero] with answersLeft := some 8 }) =
      some .callNeverAnswers := by
  decide +kernel

/-- A table word placed at its port is run by the next step (log 10, log 22). -/
theorem test_fetch_word :
    decodeTableWord 16 0x0F01 = some (.readCoils 0x0F#8 0#16 0#16) ∧ decodeTableWord 16 0x010F = some (.writeMultipleCoils 0x01#8 0#16 []) ∧
    decodeTableWord 8 0xF1 = some .close ∧
    after (·.crc) (step (State.reset.withFetchWord 16 0x0200)) = some 0xFFFF#16 ∧
    after (fun t => (t.status, t.errExp)) (step ((replying 9 [.zero]).withFetchWord 16 0x010F)) =
      some (.timeoutError, 8) := by
  decide +kernel

end Sys2Proof.Tests
end

section
/-! Proofs about the CRC-16 generator and the codec's use of it (40_crc16.md). -/

namespace Sys2Proof.Machine

/-- R115 with R14 written out: what `appendCrc` adds to a body, byte by byte. -/
theorem appendCrc_eq (body : List Byte) :
    appendCrc body = body ++ [(crc16 body).setWidth 8, ((crc16 body) >>> 8).setWidth 8] := rfl

/-- Settles O9: the general clause is `appendCrc_eq`; the example is the generator's run over the six bytes of R115's
body (CRC `0xCDC5`), split by that equation into `0xC5` and then `0xCD`. -/
theorem appendCrcRule : Obligations.AppendCrcRule := by
  unfold Obligations.AppendCrcRule
  refine ⟨appendCrc_eq, ?_⟩
  have hcrc : crc16 [0x01#8, 0x03#8, 0x00#8, 0x00#8, 0x00#8, 0x0A#8] = 0xCDC5#16 := by decide
  rw [appendCrc_eq, hcrc]
  rfl

end Sys2Proof.Machine
end

section
/-! Proofs about the trace of a bus operation: the order of its line changes and the bytes it writes
(42_turnaround.md R147, R151, R156, R164). -/

namespace Sys2Proof.Machine

/-- R147: the new entries of a bus operation that ended: `transact_trace` with the operation's own frame and response
length, the judgement of the response adding none. -/
theorem exec_bus_trace {s t : State} {i : Instr} (hbus : i.isBusOp = true) (h : exec i s = .next t) : ∃ sent tail,
    newEntries s t = transmitEntries s.de .opened ++ (sent ++ tail) ∧
    (∀ e ∈ sent, e.seq = .transmitting) ∧ sent ≠ [] ∧ noRetry sent = true ∧ writtenBytes tail = [] ∧
    ((sent.length < 2 * (requestFrame i).length ∧
        tail = (if s.params.txAbortRestoresRx then receiveEntries .opened else [])) ∨
     (sent.length = 2 * (requestFrame i).length + 1 ∧ ∃ reads,
        tail = receiveEntries .opened ++ ⟨.delay .preReceive, .receiving, .low, .low, .opened⟩ :: reads ∧
        reads.length ≤ 2 * i.responseLength ∧
        (∀ e ∈ reads, e.seq = .receiving ∧ (e.event = .delay .readPacing ∨ ∃ n r, e.event = .read n r)) ∧
        (0 < i.responseLength → ∃ e rest, reads = e :: rest ∧ ∃ r, e.event = .read i.responseLength r))) := by
  obtain ⟨hopen, _⟩ := exec_bus_open hbus h
  obtain ⟨a, rfl, _⟩ := exec_bus_next hbus h
  obtain ⟨_, _, _, htxLen, hexpLen, _⟩ := prepared_sets s hbus
  have hshape := transact_trace (prepared s i)
  simp only [prepared_keeps, htxLen, hexpLen, hopen] at hshape
  obtain ⟨sent, tail, htrace, hshape⟩ := hshape
  exact ⟨sent, tail, newEntries_eq ((flow_trace s i).trans htrace), hshape⟩

/-! The line changes (R151, R156). -/

theorem transmitEntries_seq {de : Level} {life : Life} {e : TraceEntry} (he : e ∈ transmitEntries de life) :
    e.seq = .switchingToTransmit := by
  simp only [transmitEntries, List.mem_cons, List.not_mem_nil, or_false] at he
  rcases he with rfl | rfl | rfl | rfl <;> rfl

theorem receiveEntries_seq {life : Life} {e : TraceEntry} (he : e ∈ receiveEntries life) :
    e.seq = .switchingToReceive := by
  simp only [receiveEntries, List.mem_cons, List.not_mem_nil, or_false] at he
  rcases he with rfl | rfl | rfl | rfl <;> rfl

/-- R151, R156: the new entries of a bus operation by the state SEQ holds at them: the way into transmit mode, the
frame, and then either at most the abort's way into receive mode, with nothing behind it, or that way whole and the
entries in RECEIVING. -/
theorem exec_bus_phases {s t : State} {i : Instr} (hbus : i.isBusOp = true) (h : exec i s = .next t) :
    ∃ sent turn received, newEntries s t = transmitEntries s.de .opened ++ (sent ++ (turn ++ received)) ∧
    sent ≠ [] ∧ (∀ e ∈ sent, e.seq = .transmitting) ∧ (∀ e ∈ turn, e.seq = .switchingToReceive) ∧
    (∀ e ∈ received, e.seq = .receiving) ∧ (received ≠ [] → turn = receiveEntries .opened) := by
  obtain ⟨sent, tail, hnew, hsent, hne, _, _, ⟨_, htail⟩ | ⟨_, reads, htail, _, hreads, _⟩⟩ := exec_bus_trace hbus h
  · refine ⟨sent, tail, [], by rw [hnew, List.append_nil], hne, hsent, ?_, by simp, by simp⟩
    intro e he
    rw [htail] at he
    split at he
    · exact receiveEntries_seq he
    · cases he
  · refine ⟨sent, receiveEntries .opened, _, by rw [hnew, htail], hne, hsent, fun _ => receiveEntries_seq, ?_,
      fun _ => rfl⟩
    intro e he
    rcases List.mem_cons.1 he with rfl | he
    · rfl
    · exact (hreads e he).1

/-- Entries in one state of SEQ hold none in another. -/
theorem filter_seq_eq_nil {es : List TraceEntry} {p q : Seq} (hpq : p ≠ q) (h : ∀ e ∈ es, e.seq = p) :
    es.filter (fun e => decide (e.seq = q)) = [] := by
  rw [List.filter_eq_nil_iff]
  intro e he
  simpa [h e he] using hpq

/-- Entries in one state of SEQ are all in it. -/
theorem filter_seq_eq_self {es : List TraceEntry} {q : Seq} (h : ∀ e ∈ es, e.seq = q) :
    es.filter (fun e => decide (e.seq = q)) = es := by
  rw [List.filter_eq_self]
  intro e he
  exact decide_eq_true (h e he)

/-- Settles O16: the phases of a bus operation's trace (`exec_bus_phases`) each hold one state of SEQ, and an entry in
RECEIVING can stand in the last one alone, before which the way into receive mode is whole. -/
theorem turnaroundOrder : Obligations.TurnaroundOrder := by
  unfold Obligations.TurnaroundOrder
  intro s t i hbus h
  obtain ⟨sent, turn, received, hnew, hne, hsent, hturn, hreceived, hwhole⟩ := exec_bus_phases hbus h
  rw [hnew]
  constructor
  · obtain ⟨e, more, rfl⟩ := List.exists_cons_of_ne_nil hne
    refine ⟨e, more ++ (turn ++ received), rfl, hsent e List.mem_cons_self, ?_⟩
    intro f hf
    simp only [List.mem_append] at hf
    rcases hf with hf | hf | hf
    · simp [hsent f (List.mem_cons_of_mem _ hf)]
    · simp [hturn f hf]
    · simp [hreceived f hf]
  · rintro ⟨e, he, heq⟩
    have hmem : e ∈ received := by
      simp only [List.mem_append] at he
      rcases he with he | he | he | he
      · simp [transmitEntries_seq he] at heq
      · simp [hsent e he] at heq
      · simp [hturn e he] at heq
      · exact he
    rw [List.filter_append, List.filter_append, List.filter_append,
      filter_seq_eq_nil (by decide) (fun _ => transmitEntries_seq), filter_seq_eq_nil (by decide) hsent,
      filter_seq_eq_self hturn, filter_seq_eq_nil (by decide) hreceived, hwhole (List.ne_nil_of_mem hmem)]
    rfl

/-! The bytes written (R164). -/

theorem noRetry_of_no_writes {es : List TraceEntry} (h : writtenBytes es = []) : noRetry es = true := by
  rw [← List.append_nil es, noRetry_before [] h]
  rfl

/-- R164 for a bus operation: of its entries those of the frame alone write, and they do not retry. -/
theorem exec_bus_noRetry {s t : State} {i : Instr} (hbus : i.isBusOp = true) (h : exec i s = .next t) :
    noRetry (newEntries s t) = true := by
  obtain ⟨sent, tail, hnew, _, _, hsent, htail, _⟩ := exec_bus_trace hbus h
  rw [hnew, noRetry_before _ rfl, noRetry_after _ htail]
  exact hsent

/-- R201, R202: no event of CONSTRUCT is a `Write`, wherever it fails. -/
theorem constructOp_writes_nothing (port baud deId reId : Nat) {s : State} (hlife : s.life = .closed) :
    writtenBytes (newEntries s (constructOp port baud deId reId s).state) = [] := by
  rcases constructOp_cases port baud deId reId s hlife with
    ⟨t, h, hdone⟩ | ⟨t, h, hfail, _⟩ | ⟨t, h, _, _, hfail | hfail | hfail | hfail⟩ <;>
    rw [h]
  · exact congrArg writtenBytes (newEntries_eq hdone.trace)
  · exact congrArg writtenBytes (newEntries_eq hfail.trace)
  · refine (congrArg writtenBytes (newEntries_eq hfail.trace)).trans ?_
    cases s.gpioOpen <;> rfl
  · refine (congrArg writtenBytes (newEntries_eq hfail.trace)).trans ?_
    cases s.gpioOpen <;> rfl
  · exact congrArg writtenBytes (newEntries_eq hfail.trace)
  · exact congrArg writtenBytes (newEntries_eq hfail.trace)

/-- R203: no event of CLOSE is a `Write`. -/
theorem exec_close_writes_nothing {s t : State} (h : exec .close s = .next t) :
    writtenBytes (newEntries s t) = [] := by
  rw [exec_close_eq] at h
  obtain rfl := Host.Outcome.next.inj h
  refine (congrArg writtenBytes (newEntries_eq rfl)).trans ?_
  cases s.serOpen <;> cases s.gpioOpen <;> rfl

/-- An instruction that is no bus operation writes no byte. -/
theorem exec_offBus_writes_nothing {s t : State} {i : Instr} (hbus : i.isBusOp = false) (h : exec i s = .next t) :
    writtenBytes (newEntries s t) = [] := by
  cases i with
  | construct port baud deId reId =>
    obtain ⟨hlife, a, rfl⟩ := exec_construct_next h
    rw [newEntries_leaving]
    exact constructOp_writes_nothing port baud deId reId hlife
  | close => exact exec_close_writes_nothing h
  | crcReset =>
    obtain rfl : State.crcReset s = t := Host.Outcome.next.inj h
    rw [newEntries_eq (new := []) (by simp)]
    rfl
  | crcUpdate b =>
    obtain rfl : State.crcUpdate b s = t := Host.Outcome.next.inj h
    rw [newEntries_eq (new := []) (by simp)]
    rfl
  | _ => cases hbus

/-- Settles O18: of a bus operation, by what it can do (`exec_bus_can`) and its trace's shape (`exec_bus_noRetry`);
every other instruction writes nothing. -/
theorem atMostOneFrame : Obligations.AtMostOneFrame := by
  unfold Obligations.AtMostOneFrame
  intro s t i hbuf h
  cases hbus : i.isBusOp with
  | true =>
    obtain ⟨f, a, _, can, rfl, _⟩ := exec_bus_can hbus hbuf h
    obtain ⟨new, htrace, _, hwritten, _⟩ := can.trace
    refine ⟨?_, exec_bus_noRetry hbus h⟩
    rw [newEntries_leaving, newEntries_eq htrace]
    exact hwritten
  | false =>
    have hnone := exec_offBus_writes_nothing hbus h
    rw [hnone]
    exact ⟨List.nil_prefix, noRetry_of_no_writes hnone⟩

end Sys2Proof.Machine
end

section
/-! Proofs about the lifecycle (45_lifecycle.md R200). -/

namespace Sys2Proof.Machine

/-- R200, R201, R202: the body of CONSTRUCT, begun on a closed instance, opens it exactly where it succeeds. -/
theorem constructOp_life (port baud deId reId : Nat) {s : State} (hlife : s.life = .closed) :
    ((constructOp port baud deId reId s).state.status = .ok ∧
      (constructOp port baud deId reId s).state.life = .opened) ∨
    ((constructOp port baud deId reId s).state.status ≠ .ok ∧
      (constructOp port baud deId reId s).state.life = .closed) := by
  rcases constructOp_state port baud deId reId s hlife with hdone | ⟨k, _, hfail, _, hk, _⟩
  · exact .inl ⟨hdone.status, hdone.life⟩
  · have hne : k ≠ .ok := by rcases hk with rfl | rfl <;> decide
    exact .inr ⟨by rwa [hfail.status], hfail.life⟩

/-- R200: a bus operation's flow leaves LIFE alone, however it ends. -/
theorem flow_life (s : State) (i : Instr) :
    ((transact (prepared s i)).andThen (judged s.params i)).state.life = s.life := by
  obtain ⟨hflow, _⟩ := untouched_fields (flow_rest s i)
  obtain ⟨hprepared, _⟩ := prepared_keeps s i
  exact hflow.trans hprepared

/-- R200: a bus operation that ends leaves LIFE as it found it. -/
theorem exec_bus_life {s t : State} {i : Instr} (hbus : i.isBusOp = true) (h : exec i s = .next t) :
    t.life = s.life := by
  obtain ⟨a, rfl, _⟩ := exec_bus_next hbus h
  exact flow_life s i

/-- Settles O45, a command at a time: CONSTRUCT by how its body can end (`constructOp_life`), CLOSE by its one outcome
(`exec_close_eq`), and a bus operation by what it needs (`exec_bus_open`) and keeps (`exec_bus_life`). -/
theorem lifecycleTransitions : Obligations.LifecycleTransitions := by
  unfold Obligations.LifecycleTransitions
  refine ⟨?construct, ?close, ?bus⟩
  case construct =>
    intro s t port baud deId reId h
    obtain ⟨hclosed, a, rfl⟩ := exec_construct_next h
    rcases constructOp_life port baud deId reId hclosed with ⟨hok, hlife⟩ | ⟨hne, hlife⟩
    · exact ⟨hclosed, fun _ => hlife, fun hne => absurd hok hne⟩
    · exact ⟨hclosed, fun hok => absurd hok hne, fun _ => hlife⟩
  case close =>
    intro s
    exact ⟨_, exec_close_eq s, rfl⟩
  case bus =>
    intro s t i hbus h
    obtain ⟨hopen, _⟩ := exec_bus_open hbus h
    exact ⟨hopen, (exec_bus_life hbus h).trans hopen⟩

end Sys2Proof.Machine
end

section
/-! Proofs about how commands end (60_exceptions.md R225): after how many events, and with which STATUS. -/

namespace Sys2Proof.Machine

/-- R151, R152, R156, R159: the events of a bus operation that ended, counted over its phases: four into transmit mode,
two for each byte of the frame and one behind it, five into receive mode, two for each byte of the response. -/
theorem exec_bus_newEntries_length {s t : State} {i : Instr} (hbus : i.isBusOp = true) (h : exec i s = .next t) :
    (newEntries s t).length ≤ 10 + 2 * (requestFrame i).length + 2 * i.responseLength := by
  obtain ⟨sent, tail, hnew, _, _, _, _, ⟨hsent, htail⟩ | ⟨hsent, reads, htail, hreads, _⟩⟩ := exec_bus_trace hbus h
  · have habort : tail.length ≤ 4 := by rw [htail]; split <;> simp [receiveEntries]
    simp only [hnew, List.length_append, transmitEntries, List.length_cons, List.length_nil]
    omega
  · simp only [hnew, htail, List.length_append, transmitEntries, receiveEntries, List.length_cons, List.length_nil]
    omega

/-- R212: the STATUS of a bus operation that ended: OK or one of four error kinds. -/
theorem exec_bus_status {s t : State} {i : Instr} (hbus : i.isBusOp = true) (h : exec i s = .next t) :
    t.status = .ok ∨ t.status = .transportError ∨ t.status = .timeoutError ∨
      t.status = .protocolMismatchError ∨ t.status = .crcError := by
  obtain ⟨a, rfl, _⟩ := exec_bus_next hbus h
  rcases flow_status s hbus with ⟨hok, _⟩ | ⟨herr, _⟩
  · exact .inl hok
  · exact .inr herr

/-- R201, R202: the body of CONSTRUCT makes seven events where it succeeds, and never more where it fails. -/
theorem constructOp_newEntries_length (port baud deId reId : Nat) {s : State} (hlife : s.life = .closed) :
    (newEntries s (constructOp port baud deId reId s).state).length ≤ 7 := by
  rcases constructOp_state port baud deId reId s hlife with hdone | ⟨_, evs, hfail, hevs, _⟩
  · simp [newEntries_eq hdone.trace]
  · simpa [newEntries_eq hfail.trace] using hevs

/-- R201, R214: the STATUS the body of CONSTRUCT ends with: OK or one of two error kinds. -/
theorem constructOp_status (port baud deId reId : Nat) {s : State} (hlife : s.life = .closed) :
    (constructOp port baud deId reId s).state.status = .ok ∨
    (constructOp port baud deId reId s).state.status = .transportError ∨
    (constructOp port baud deId reId s).state.status = .setupError := by
  rcases constructOp_state port baud deId reId s hlife with hdone | ⟨_, _, hfail, _, hk, _⟩
  · exact .inl hdone.status
  · rw [hfail.status]
    exact .inr hk

/-- R203: CLOSE makes one event for each of the two resources it finds held. -/
theorem exec_close_newEntries_length {s t : State} (h : exec .close s = .next t) : (newEntries s t).length ≤ 2 := by
  rw [exec_close_eq] at h
  obtain rfl := Host.Outcome.next.inj h
  rw [newEntries_eq rfl]
  cases s.serOpen <;> cases s.gpioOpen <;> simp

/-- Settles O15, a command at a time: a bus operation whose calls are all answered ends (`exec_ready`), and so do
CONSTRUCT on a closed instance (`exec_construct_ready`) and CLOSE (`exec_close_eq`); each one's events are then counted
and its STATUS read off by the lemmas above. -/
theorem commandsAlwaysEnd : Obligations.CommandsAlwaysEnd := by
  unfold Obligations.CommandsAlwaysEnd
  refine ⟨?bus, ?construct, ?close⟩
  case bus =>
    intro s i hready
    have hends := exec_ready hready
    exact ⟨_, hends, exec_bus_newEntries_length hready.bus hends, exec_bus_status hready.bus hends⟩
  case construct =>
    intro s port baud deId reId hclosed hanswered
    exact ⟨_, exec_construct_ready port baud deId reId hclosed hanswered,
      constructOp_newEntries_length port baud deId reId hclosed, constructOp_status port baud deId reId hclosed⟩
  case close =>
    intro s
    have hends := exec_close_eq s
    exact ⟨_, hends, exec_close_newEntries_length hends, rfl⟩

end Sys2Proof.Machine
end

section
/-! Proofs about the encoding: a well-formed instruction decodes from its bytes, and only from them
(30_encoding.md R84 to R86, R95; logs 7, 8, 16). -/

namespace Sys2Proof.Machine

/-! The operand fields, read back from their bytes and written again. -/

@[simp] theorem be16_wordBe (a b : Byte) : be16 (wordBe a b) = [a, b] := by
  simp [be16]

theorem toNat_ofNat_of_lt {w n : Nat} (h : n < 2 ^ w) : (BitVec.ofNat w n).toNat = n := by
  rw [BitVec.toNat_ofNat, Nat.mod_eq_of_lt h]

/-- The four bytes of a 32-bit field read back as the number they hold (log 16). -/
theorem nat32_be32 {n : Nat} (h : n < 2 ^ 32) :
    nat32 (BitVec.ofNat 8 (n / 2 ^ 24)) (BitVec.ofNat 8 (n / 2 ^ 16)) (BitVec.ofNat 8 (n / 2 ^ 8)) (BitVec.ofNat 8 n) =
      n := by
  simp only [nat32, BitVec.toNat_ofNat]
  omega

theorem nat32_lt (a b c d : Byte) : nat32 a b c d < 2 ^ 32 := by
  have := a.isLt; have := b.isLt; have := c.isLt; have := d.isLt
  simp only [nat32]
  omega

theorem be32_nat32 (a b c d : Byte) : be32 (nat32 a b c d) = [a, b, c, d] := by
  have := a.isLt; have := b.isLt; have := c.isLt; have := d.isLt
  simp only [be32, nat32, List.cons.injEq, and_true]
  refine ⟨?_, ?_, ?_, ?_⟩ <;> (apply BitVec.eq_of_toNat_eq; rw [BitVec.toNat_ofNat]; omega)

/-- R62, R127: the first `n` points of a packed sequence of `n` values are those values. -/
theorem bitsOf_packBits (values : List Bool) : bitsOf (packBits values) values.length = values := by
  apply List.ext_getElem (by simp)
  intro k _ hk
  simp [bitsOf, bitAt_packBits, hk]

/-- R60, R86: register `k` of a packed sequence of words is word `k`. -/
theorem regAt_packRegs (values : List Word) (rest : List Byte) (k : Nat) (hk : k < values.length) :
    regAt (packRegs values ++ rest) k = values[k] := by
  induction values generalizing k with
  | nil => cases hk
  | cons w ws ih =>
    cases k with
    | zero => simp [regAt, byteAt, packRegs, be16]
    | succ k =>
      have := ih k (by simpa using hk)
      simpa [regAt, byteAt, packRegs, be16, Nat.mul_add] using this

theorem regsOf_packRegs (values : List Word) (rest : List Byte) :
    regsOf (packRegs values ++ rest) values.length = values := by
  apply List.ext_getElem (by simp)
  intro k _ hk
  simp [regsOf, regAt_packRegs values rest k hk]

/-- The words read off a byte sequence are packed in its first bytes. -/
theorem packRegs_regsOf (n : Nat) (data : List Byte) (h : 2 * n ≤ data.length) :
    packRegs (regsOf data n) = data.take (2 * n) := by
  induction n generalizing data with
  | zero => rfl
  | succ n ih =>
    match data, h with
    | a :: b :: more, h =>
      have hshift : regsOf (a :: b :: more) (n + 1) = wordBe a b :: regsOf more n := by
        simp [regsOf, List.range_succ_eq_map, regAt, byteAt, Function.comp_def, Nat.mul_add]
      rw [hshift, packRegs, List.flatMap_cons, be16_wordBe, ← packRegs, ih more (by simp at h; omega)]
      simp [Nat.mul_add]

/-! Decoding what was encoded, format by format. -/

theorem decodeQuad_be16 (make : Word → Word → Instr) (a b : Word) (rest : List Byte) :
    decodeQuad make (be16 a ++ be16 b ++ rest) = .instr (make a b) rest := by
  simp [decodeQuad, be16]

theorem decodeCoil_be16 (slave : Byte) (addr : Word) (value : Bool) (rest : List Byte) :
    decodeCoil slave (be16 addr ++ be16 (coilWord value) ++ rest) = .instr (.writeCoil slave addr value) rest := by
  cases value <;> simp [decodeCoil, be16, coilWord]

theorem decodeManyCoils_packed (slave : Byte) (start : Word) (values : List Bool) (rest : List Byte)
    (h : values.length ≤ Config.maxCoilsWrite) :
    decodeManyCoils slave (be16 start ++ be16 (BitVec.ofNat 16 values.length) ++
      [BitVec.ofNat 8 (ceil8 values.length)] ++ packBits values ++ rest) =
        .instr (.writeMultipleCoils slave start values) rest := by
  simp only [Config.maxCoilsWrite] at h
  have hn : (BitVec.ofNat 16 values.length).toNat = values.length := toNat_ofNat_of_lt (by omega)
  have hb : (BitVec.ofNat 8 (ceil8 values.length)).toNat = ceil8 values.length :=
    toNat_ofNat_of_lt (by simp only [ceil8]; omega)
  have htake : (packBits values ++ rest).take (ceil8 values.length) = packBits values := by
    rw [← packBits_length, List.take_left]
  have hdrop : (packBits values ++ rest).drop (ceil8 values.length) = rest := by
    rw [← packBits_length, List.drop_left]
  have hlen : ¬ (packBits values ++ rest).length < ceil8 values.length := by
    rw [List.length_append, packBits_length]; omega
  simp only [be16, List.cons_append, List.nil_append, decodeManyCoils, wordBe_hi_lo, hn, hb, htake, hdrop,
    bitsOf_packBits, ne_eq, not_true_eq_false, if_false, if_true, if_neg hlen]

theorem decodeManyRegs_packed (slave : Byte) (start : Word) (values : List Word) (rest : List Byte)
    (h : values.length ≤ Config.maxRegsWrite) :
    decodeManyRegs slave (be16 start ++ be16 (BitVec.ofNat 16 values.length) ++
      [BitVec.ofNat 8 (2 * values.length)] ++ packRegs values ++ rest) =
        .instr (.writeMultipleRegisters slave start values) rest := by
  simp only [Config.maxRegsWrite] at h
  have hn : (BitVec.ofNat 16 values.length).toNat = values.length := toNat_ofNat_of_lt (by omega)
  have hb : (BitVec.ofNat 8 (2 * values.length)).toNat = 2 * values.length := toNat_ofNat_of_lt (by omega)
  have hdrop : (packRegs values ++ rest).drop (2 * values.length) = rest := by
    rw [← packRegs_length, List.drop_left]
  have hlen : ¬ (packRegs values ++ rest).length < 2 * values.length := by
    rw [List.length_append, packRegs_length]; omega
  simp only [be16, List.cons_append, List.nil_append, decodeManyRegs, wordBe_hi_lo, hn, hb, hdrop,
    regsOf_packRegs, ne_eq, not_true_eq_false, if_false, if_neg hlen]

theorem decodeConstruct_be32 {port baud deId reId : Nat} (rest : List Byte) (hp : port < 2 ^ 32) (hb : baud < 2 ^ 32)
    (hd : deId < 2 ^ 32) (hr : reId < 2 ^ 32) :
    decodeConstruct (be32 port ++ be32 baud ++ be32 deId ++ be32 reId ++ rest) =
      .instr (.construct port baud deId reId) rest := by
  simp only [be32, List.cons_append, List.nil_append, decodeConstruct, nat32_be32 hp, nat32_be32 hb, nat32_be32 hd,
    nat32_be32 hr]

theorem construct_wellFormed {port baud deId reId : Nat} : (Instr.construct port baud deId reId).WellFormed ↔
    port < 2 ^ 32 ∧ baud < 2 ^ 32 ∧ deId < 2 ^ 32 ∧ reId < 2 ^ 32 := by
  simp only [Instr.WellFormed, Instr.wellFormed, fits32, Bool.and_eq_true, decide_eq_true_eq, and_assoc]

/-- Settles O2, format by format: behind the selector, which picks the format, every operand field reads back as the
value it was written from. -/
theorem decodeEncodeAgree : Obligations.DecodeEncodeAgree := by
  unfold Obligations.DecodeEncodeAgree
  intro i rest hwf
  cases i with
  | readCoils slave start count => exact decodeQuad_be16 (.readCoils slave) start count rest
  | readDiscreteInputs slave start count => exact decodeQuad_be16 (.readDiscreteInputs slave) start count rest
  | readHoldingRegisters slave start count => exact decodeQuad_be16 (.readHoldingRegisters slave) start count rest
  | readInputRegisters slave start count => exact decodeQuad_be16 (.readInputRegisters slave) start count rest
  | writeCoil slave addr value => exact decodeCoil_be16 slave addr value rest
  | writeRegister slave addr value => exact decodeQuad_be16 (.writeRegister slave) addr value rest
  | writeMultipleCoils slave start values =>
    exact decodeManyCoils_packed slave start values rest (of_decide_eq_true hwf)
  | writeMultipleRegisters slave start values =>
    exact decodeManyRegs_packed slave start values rest (of_decide_eq_true hwf)
  | construct port baud deId reId =>
    obtain ⟨hp, hb, hd, hr⟩ := construct_wellFormed.1 hwf
    exact decodeConstruct_be32 rest hp hb hd hr
  | close => rfl
  | crcReset => rfl
  | crcUpdate b => rfl

/-! Encoding what was decoded, format by format. -/

theorem decodeQuad_inv {make : Word → Word → Instr} {bytes rest : List Byte} {i : Instr}
    (h : decodeQuad make bytes = .instr i rest) : ∃ a b, i = make a b ∧ bytes = be16 a ++ be16 b ++ rest := by
  unfold decodeQuad at h
  split at h
  · rename_i a1 a0 b1 b0 more
    obtain ⟨rfl, rfl⟩ := Decoded.instr.inj h
    exact ⟨_, _, rfl, by simp⟩
  · cases h

theorem decodeCoil_inv {slave : Byte} {bytes rest : List Byte} {i : Instr}
    (h : decodeCoil slave bytes = .instr i rest) :
    ∃ addr value, i = .writeCoil slave addr value ∧ bytes = be16 addr ++ be16 (coilWord value) ++ rest := by
  unfold decodeCoil at h
  split at h
  · rename_i a1 a0 b1 b0 more
    split at h
    · rename_i hcoil
      obtain ⟨rfl, rfl⟩ := Decoded.instr.inj h
      exact ⟨_, _, rfl, by simp [← hcoil]⟩
    · split at h
      · rename_i hcoil
        obtain ⟨rfl, rfl⟩ := Decoded.instr.inj h
        exact ⟨_, _, rfl, by simp [← hcoil]⟩
      · cases h
  · cases h

theorem decodeManyCoils_inv {slave : Byte} {bytes rest : List Byte} {i : Instr}
    (h : decodeManyCoils slave bytes = .instr i rest) :
    ∃ start values, i = .writeMultipleCoils slave start values ∧ values.length ≤ Config.maxCoilsWrite ∧
      bytes = be16 start ++ be16 (BitVec.ofNat 16 values.length) ++ [BitVec.ofNat 8 (ceil8 values.length)] ++
        packBits values ++ rest := by
  unfold decodeManyCoils at h
  split at h
  · rename_i a1 a0 n1 n0 bc more
    dsimp only at h
    split at h
    · cases h
    · rename_i hcount
      split at h
      · cases h
      · split at h
        · rename_i hpack
          obtain ⟨rfl, rfl⟩ := Decoded.instr.inj h
          have hbc : bc.toNat = ceil8 (wordBe n1 n0).toNat := Decidable.of_not_not hcount
          refine ⟨_, _, rfl, ?_, ?_⟩
          · have := bc.isLt
            simp only [bitsOf_length, Config.maxCoilsWrite]
            simp only [ceil8] at hbc
            omega
          · rw [hpack, bitsOf_length, ← hbc]
            simp
        · cases h
  · cases h

theorem decodeManyRegs_inv {slave : Byte} {bytes rest : List Byte} {i : Instr}
    (h : decodeManyRegs slave bytes = .instr i rest) :
    ∃ start values, i = .writeMultipleRegisters slave start values ∧ values.length ≤ Config.maxRegsWrite ∧
      bytes = be16 start ++ be16 (BitVec.ofNat 16 values.length) ++ [BitVec.ofNat 8 (2 * values.length)] ++
        packRegs values ++ rest := by
  unfold decodeManyRegs at h
  split at h
  · rename_i a1 a0 n1 n0 bc more
    dsimp only at h
    split at h
    · cases h
    · rename_i hcount
      split at h
      · cases h
      · rename_i hlen
        obtain ⟨rfl, rfl⟩ := Decoded.instr.inj h
        have hbc : bc.toNat = 2 * (wordBe n1 n0).toNat := Decidable.of_not_not hcount
        refine ⟨_, _, rfl, ?_, ?_⟩
        · have := bc.isLt
          simp only [regsOf_length, Config.maxRegsWrite]
          omega
        · rw [packRegs_regsOf _ _ (by omega), regsOf_length, ← hbc]
          simp
  · cases h

theorem decodeConstruct_inv {bytes rest : List Byte} {i : Instr} (h : decodeConstruct bytes = .instr i rest) :
    ∃ port baud deId reId, i = .construct port baud deId reId ∧ i.WellFormed ∧
      bytes = be32 port ++ be32 baud ++ be32 deId ++ be32 reId ++ rest := by
  unfold decodeConstruct at h
  split at h
  · obtain ⟨rfl, rfl⟩ := Decoded.instr.inj h
    exact ⟨_, _, _, _, rfl, construct_wellFormed.2 ⟨nat32_lt .., nat32_lt .., nat32_lt .., nat32_lt ..⟩,
      by simp [be32_nat32]⟩
  · cases h

/-- Format RQ4 with two word operands: what decodes is the encoding of an instruction of that format. -/
theorem decodeQuad_encoded {make : Word → Word → Instr} {slave fc : Byte} {bytes rest : List Byte} {i : Instr}
    (hmake : ∀ a b, (make a b).WellFormed ∧ unitOf (make a b) = .command ∧ encode (make a b) = body4 slave fc a b)
    (h : decodeQuad make bytes = .instr i rest) :
    i.WellFormed ∧ unitOf i = .command ∧ slave :: fc :: bytes = encode i ++ rest := by
  obtain ⟨a, b, rfl, rfl⟩ := decodeQuad_inv h
  obtain ⟨hwf, hunit, henc⟩ := hmake a b
  exact ⟨hwf, hunit, by rw [henc]; rfl⟩

/-- R81, R94: what a word of the command port decodes to is the encoding of a well-formed command. -/
theorem decodeSelected_inv {slave op : Byte} {bytes rest : List Byte} {i : Instr}
    (h : decodeSelected slave op bytes = .instr i rest) :
    i.WellFormed ∧ unitOf i = .command ∧ slave :: op :: bytes = encode i ++ rest := by
  unfold decodeSelected at h
  split at h
  next hop => exact hop ▸ decodeQuad_encoded (fun _ _ => ⟨rfl, rfl, rfl⟩) h
  split at h
  next hop => exact hop ▸ decodeQuad_encoded (fun _ _ => ⟨rfl, rfl, rfl⟩) h
  split at h
  next hop => exact hop ▸ decodeQuad_encoded (fun _ _ => ⟨rfl, rfl, rfl⟩) h
  split at h
  next hop => exact hop ▸ decodeQuad_encoded (fun _ _ => ⟨rfl, rfl, rfl⟩) h
  split at h
  next hop =>
    obtain ⟨addr, value, rfl, rfl⟩ := decodeCoil_inv h
    exact ⟨rfl, rfl, by rw [hop]; rfl⟩
  split at h
  next hop => exact hop ▸ decodeQuad_encoded (fun _ _ => ⟨rfl, rfl, rfl⟩) h
  split at h
  next hop =>
    obtain ⟨start, values, rfl, hlen, rfl⟩ := decodeManyCoils_inv h
    exact ⟨decide_eq_true hlen, rfl, by rw [hop]; rfl⟩
  split at h
  next hop =>
    obtain ⟨start, values, rfl, hlen, rfl⟩ := decodeManyRegs_inv h
    exact ⟨decide_eq_true hlen, rfl, by rw [hop]; rfl⟩
  split at h
  next hop =>
    split at h
    next hslave =>
      obtain ⟨port, baud, deId, reId, rfl, hwf, rfl⟩ := decodeConstruct_inv h
      exact ⟨hwf, rfl, by rw [hop, hslave]; rfl⟩
    next => cases h
  split at h
  next hop =>
    split at h
    next hslave =>
      obtain ⟨rfl, rfl⟩ := Decoded.instr.inj h
      exact ⟨rfl, rfl, by rw [hop, hslave]; rfl⟩
    next => cases h
  next => cases h

theorem decodeCommand_inv {bytes rest : List Byte} {i : Instr} (h : decodeCommand bytes = .instr i rest) :
    i.WellFormed ∧ unitOf i = .command ∧ bytes = encode i ++ rest := by
  unfold decodeCommand at h
  split at h
  · exact decodeSelected_inv h
  · cases h

/-- R95: what a control word decodes to; RESET ignores its `din` (D3). -/
theorem decodeControl_inv {bytes rest : List Byte} {i : Instr} (h : decodeControl bytes = .instr i rest) :
    (i = .crcReset ∧ ∃ din, bytes = [0x02#8, din] ++ rest) ∨
    (∃ b, i = .crcUpdate b ∧ bytes = [0x01#8, b] ++ rest) := by
  unfold decodeControl at h
  split at h
  · rename_i c din more
    split at h
    · rename_i hc
      obtain ⟨rfl, rfl⟩ := Decoded.instr.inj h
      exact .inl ⟨rfl, din, by rw [hc]; rfl⟩
    split at h
    · rename_i hc
      obtain ⟨rfl, rfl⟩ := Decoded.instr.inj h
      exact .inr ⟨din, rfl, by rw [hc]; rfl⟩
    split at h
    · cases h
    split at h
    · cases h
    · cases h
  · cases h

/-- Settles O3: at the command port by the inversion of its decoder, at the generator's by that of the control words. -/
theorem decodedIsEncoded : Obligations.DecodedIsEncoded := by
  unfold Obligations.DecodedIsEncoded
  intro u bytes rest i h
  cases u with
  | command =>
    obtain ⟨hwf, hunit, hbytes⟩ := decodeCommand_inv h
    exact ⟨hwf, hunit.symm, .inl hbytes⟩
  | crcControl =>
    rcases decodeControl_inv h with ⟨rfl, din, hbytes⟩ | ⟨b, rfl, hbytes⟩
    · exact ⟨rfl, rfl, .inr ⟨rfl, din, hbytes⟩⟩
    · exact ⟨rfl, rfl, .inl hbytes⟩

/-! The words at the ports. -/

/-- Settles O1: the decoder run on the nine words. -/
theorem specWordsDecode : Obligations.SpecWordsDecode := by
  unfold Obligations.SpecWordsDecode
  decide

/-- R98: a selector that is none of the ten is refused by its value. -/
theorem decodeSelected_unknown {slave op : Byte} (operands : List Byte)
    (h : op ∉ [0x01#8, 0x02#8, 0x03#8, 0x04#8, 0x05#8, 0x06#8, 0x0F#8, 0x10#8, 0xF0#8, 0xF1#8]) :
    decodeSelected slave op operands = .rejected (.unknownSelector op) := by
  simp only [List.mem_cons, List.not_mem_nil, or_false, not_or] at h
  obtain ⟨h1, h2, h3, h4, h5, h6, hF, h10, hF0, hF1⟩ := h
  rw [decodeSelected, if_neg h1, if_neg h2, if_neg h3, if_neg h4, if_neg h5, if_neg h6, if_neg hF, if_neg h10,
    if_neg hF0, if_neg hF1]

/-- Settles O4: the word is the one the step takes, and its selector or control bits alone decide what it is. -/
theorem unselectedWordsRefused : Obligations.UnselectedWordsRefused := by
  unfold Obligations.UnselectedWordsRefused
  intro s ws slave op din more
  refine ⟨?_, ?_, ?_⟩
  · intro hop hcontrol hpending
    exact step_rejected (.inr ⟨hcontrol, ws, hpending, rfl, rfl⟩) (decodeSelected_unknown more hop)
  · intro hcontrol
    exact step_rejected (.inl ⟨ws, hcontrol, rfl, rfl⟩) rfl
  · intro hcontrol
    exact step_hold (.inl ⟨ws, hcontrol, rfl, rfl⟩) rfl

/-- Settles O5: each of the four cases is one of the laws of a step. -/
theorem stepRunsDecoded : Obligations.StepRunsDecoded := by
  unfold Obligations.StepRunsDecoded
  exact ⟨fun _ => step_idle, fun _ _ _ _ _ _ => step_run, fun _ _ _ _ _ => step_hold,
    fun _ _ _ _ _ => step_rejected⟩

end Sys2Proof.Machine
end

section
/-! Proofs about the whole machine, an instruction at a time: what an instruction that ends keeps, how it ends, and
where it stops (10_state.md R20, R32 to R34; 60_exceptions.md R213, R219, R225, R233). -/

namespace Sys2Proof.Machine

/-! What an instruction leaves alone. -/

/-- R34, R40: what no bus operation writes. -/
theorem exec_bus_keeps {s t : State} {i : Instr} (hbus : i.isBusOp = true) (h : exec i s = .next t) :
    t.life = s.life ∧ t.serOpen = s.serOpen ∧ t.gpioOpen = s.gpioOpen ∧ t.cfgPort = s.cfgPort ∧
    t.cfgBaud = s.cfgBaud ∧ t.cfgDeId = s.cfgDeId ∧ t.cfgReId = s.cfgReId ∧ t.params = s.params ∧
    t.openAns = s.openAns ∧ t.flushAns = s.flushAns ∧ t.gpioAns = s.gpioAns ∧ t.configAns = s.configAns ∧
    t.pending = s.pending ∧ t.control = s.control := by
  obtain ⟨a, rfl, _⟩ := exec_bus_next hbus h
  simp only [State.leaving_keeps, untouched_fields (flow_rest s i), prepared_keeps, and_self]

/-- R21, R91, R92: the registers a bus operation writes before its first event stay as it wrote them (log 13). -/
theorem exec_bus_request {s t : State} {i : Instr} (hbus : i.isBusOp = true) (h : exec i s = .next t) :
    t.reqSlave = (prepared s i).reqSlave ∧ t.reqFc = (prepared s i).reqFc ∧ t.reqAddr = (prepared s i).reqAddr ∧
    t.reqCount = (prepared s i).reqCount ∧ t.reqValue = (prepared s i).reqValue ∧
    t.reqBits = (prepared s i).reqBits ∧ t.reqRegs = (prepared s i).reqRegs ∧ t.txBuf = (prepared s i).txBuf ∧
    t.txLen = (prepared s i).txLen ∧ t.expLen = (prepared s i).expLen := by
  obtain ⟨a, rfl, _⟩ := exec_bus_next hbus h
  simp only [State.leaving_keeps, untouched_fields (flow_rest s i), and_self]

/-- What CONSTRUCT and CLOSE leave alone, from the equation of the two states without the rest. -/
theorem lifeless_fields {s t : State} (h : t.lifeless = s.lifeless) :
    t.reqSlave = s.reqSlave ∧ t.reqFc = s.reqFc ∧ t.reqAddr = s.reqAddr ∧ t.reqCount = s.reqCount ∧
    t.reqValue = s.reqValue ∧ t.reqBits = s.reqBits ∧ t.reqRegs = s.reqRegs ∧ t.txBuf = s.txBuf ∧
    t.txLen = s.txLen ∧ t.txIdx = s.txIdx ∧ t.rxBuf = s.rxBuf ∧ t.expLen = s.expLen ∧ t.rxCnt = s.rxCnt ∧
    t.crc = s.crc ∧ t.resBits = s.resBits ∧ t.resRegs = s.resRegs ∧ t.params = s.params ∧
    t.writeAns = s.writeAns ∧ t.readAns = s.readAns ∧ t.pending = s.pending ∧ t.control = s.control := by
  have := congrArg (fun u : State => (u.reqSlave, u.reqFc, u.reqAddr, u.reqCount, u.reqValue, u.reqBits, u.reqRegs,
    u.txBuf, u.txLen, u.txIdx, u.rxBuf, u.expLen, u.rxCnt, u.crc, u.resBits, u.resRegs, u.params, u.writeAns,
    u.readAns, u.pending, u.control)) h
  simpa only [State.lifeless, Prod.mk.injEq] using this

/-- CONSTRUCT writes nothing of what `lifeless` leaves, whether it succeeds or fails. -/
theorem constructOp_lifeless (port baud deId reId : Nat) {s : State} (hlife : s.life = .closed) :
    (constructOp port baud deId reId s).state.lifeless = s.lifeless := by
  rcases constructOp_state port baud deId reId s hlife with hdone | ⟨_, _, hfail, _⟩
  · exact hdone.kept
  · exact hfail.kept

/-! What an instruction that ends can be. -/

/-- R203: the state CLOSE ends in. -/
def State.afterClose (s : State) : State :=
  { s with
    life := .closed, serOpen := false, gpioOpen := false, status := .ok, resValid := .nothing,
    de := Config.freeLevel s.free, re := Config.freeLevel (s.free + 1), free := s.free + 2,
    trace := s.trace ++ ((if s.serOpen then [Event.closeStream] else []) ++
      (if s.gpioOpen then [Event.closeGpio] else [])).map s.entry }

/-- An instruction that ends is a bus operation, or a CONSTRUCT that ends in what its body ends in, or CLOSE, or a
micro-operation of the generator, which writes CRC alone. -/
theorem exec_next_cases {s t : State} {i : Instr} (h : exec i s = .next t) :
    i.isBusOp = true ∨
    (∃ port baud deId reId a, i = .construct port baud deId reId ∧ s.life = .closed ∧
      t = (constructOp port baud deId reId s).state.leaving a) ∨
    (i = .close ∧ t = s.afterClose) ∨
    ((i = .crcReset ∨ ∃ b, i = .crcUpdate b) ∧ ∃ c, t = { s with crc := c }) := by
  cases i with
  | construct port baud deId reId =>
    obtain ⟨hclosed, a, ht⟩ := exec_construct_next h
    exact .inr (.inl ⟨port, baud, deId, reId, a, rfl, hclosed, ht⟩)
  | close =>
    rw [exec_close_eq] at h
    exact .inr (.inr (.inl ⟨rfl, (Host.Outcome.next.inj h).symm⟩))
  | crcReset => exact .inr (.inr (.inr ⟨.inl rfl, _, (Host.Outcome.next.inj h).symm⟩))
  | crcUpdate b => exact .inr (.inr (.inr ⟨.inr ⟨b, rfl⟩, _, (Host.Outcome.next.inj h).symm⟩))
  | _ => exact .inl rfl

/-! The invariant. -/

/-- The part of the invariant about the buffers stands where they and the two lengths are unchanged. -/
theorem inv_of_same_buffers {s t : State} (hinv : s.Inv)
    (hsame : t.txBuf = s.txBuf ∧ t.rxBuf = s.rxBuf ∧ t.txLen = s.txLen ∧ t.expLen = s.expLen)
    (hopened : t.life = .opened →
      t.serOpen = true ∧ t.gpioOpen = true ∧ t.seq = .receiveMode ∧ t.linesAtRest = true)
    (hclosed : t.life = .closed → t.serOpen = false ∧ t.gpioOpen = false)
    (hlines : ∀ e ∈ t.trace, e.life = .opened → e.linesSafe = true) : t.Inv := by
  obtain ⟨htx, hrx, htxLen, hexpLen⟩ := hsame
  exact ⟨htx ▸ hinv.tx_wf, hrx ▸ hinv.rx_wf, htx ▸ hinv.tx_cap, hrx ▸ hinv.rx_cap, htxLen ▸ hinv.tx_len,
    hexpLen ▸ hinv.exp_len, hopened, hclosed, hlines⟩

/-- The invariant does not speak of the words at the ports. -/
theorem takes_inv {s t : State} {port : PortUnit} {word : List Byte} (h : s.takes port word t) (hinv : s.Inv) :
    t.Inv := by
  rw [takes_state h]
  exact inv_of_same_buffers hinv ⟨rfl, rfl, rfl, rfl⟩ hinv.opened hinv.closed hinv.lines

theorem below_iff {m : Memory} {cap : Nat} : Memory.below m cap = true ↔ ∀ e ∈ m, e.1 < cap := by
  simp [Memory.below]

theorem linesAtRest_iff {s : State} : s.linesAtRest = true ↔
    (s.de = .low ∧ s.re = .low) ∨ (s.params.txAbortRestoresRx = false ∧ s.de = .high ∧ s.re = .high) := by
  simp [State.linesAtRest, and_assoc]

theorem entries_life {s : State} {evs : List Event} {e : TraceEntry} (he : e ∈ evs.map s.entry) :
    e.life = s.life := by
  obtain ⟨_, _, rfl⟩ := List.mem_map.1 he
  rfl

/-- R32, R255: at no event of a state whose lines are at rest are driver and receiver both on. -/
theorem entry_linesSafe {s : State} (h : s.linesAtRest = true) (e : Event) : (s.entry e).linesSafe = true := by
  rcases linesAtRest_iff.1 h with ⟨hde, _⟩ | ⟨_, _, hre⟩
  · simp [TraceEntry.linesSafe, State.entry, hde]
  · simp [TraceEntry.linesSafe, State.entry, hre]

/-- R146, R155: where a bus operation leaves the lines: in receive mode, but for an abort that does not restore it. -/
theorem busCan_lines {s : State} {i : Instr} {f : Flow} (can : BusCan s i f) :
    (f.state.de = .low ∧ f.state.re = .low) ∨
    (s.params.txAbortRestoresRx = false ∧ f.state.de = .high ∧ f.state.re = .high) := by
  obtain ⟨_, _, _, _, _, _, ⟨t, rfl, _, ⟨_, hraised⟩, _⟩ | ⟨u, _, _, rfl, _, _, _, hde, hre, _⟩⟩ :=
    can.trace
  · have hparams : (prepared s i).params = s.params := by simp only [prepared_keeps]
    rw [hparams] at hraised
    rcases hraised with ⟨_, _, _, hde, hre, _⟩ | ⟨_, _, _, hde, hre⟩ | ⟨_, _, _, _, hde, hre⟩
    · cases hp : s.params.txAbortRestoresRx <;> simp [hde, hre, hp]
    · exact .inl ⟨hde, hre⟩
    · exact .inl ⟨hde, hre⟩
  · have hu := ungraded_fields (judged_ungraded s.params i u)
    exact .inl (by simp only [hu, hde, hre, and_self])

/-- A bus operation keeps the invariant: what it writes of TXBUF and RXBUF lies within the bounds of its frame and of
its response, and `Transact` keeps the lines. -/
theorem exec_bus_inv {s t : State} {i : Instr} (hbus : i.isBusOp = true) (hinv : s.Inv) (h : exec i s = .next t) :
    t.Inv := by
  obtain ⟨hlife, hser, hgpio, _, _, _, _, hparams, _⟩ := exec_bus_keeps hbus h
  obtain ⟨_, _, _, _, _, _, _, htxBuf, htxLen, hexpLen⟩ := exec_bus_request hbus h
  obtain ⟨_, _, ptxBuf, ptxLen, pexpLen, _⟩ := prepared_sets s hbus
  obtain ⟨f, a, new, can, rfl, hnew, htrace, hopen, hwf⟩ := exec_bus_can hbus ⟨hinv.tx_wf, hinv.rx_wf⟩ h
  have hframe := requestFrame_bounds hbus hwf
  have hresponse := responseLength_bounds hbus
  rw [ptxBuf] at htxBuf
  rw [ptxLen] at htxLen
  rw [pexpLen] at hexpLen
  obtain ⟨hserOpen, hgpioOpen, _⟩ := hinv.opened hopen
  refine ⟨?_, can.wf, ?_, ?_, by rw [htxLen]; exact hframe, by rw [hexpLen]; exact hresponse, fun _ => ?_,
    fun hc => ?_, ?_⟩
  · rw [htxBuf]
    exact Memory.store_wf _ _ hinv.tx_wf
  · rw [htxBuf, below_iff]
    intro e he
    rcases Memory.mem_store he with he | he
    · omega
    · exact below_iff.1 hinv.tx_cap e he
  · rw [below_iff]
    intro e he
    rcases can.listed e he with he | he
    · omega
    · exact below_iff.1 hinv.rx_cap e he
  · refine ⟨hser.trans hserOpen, hgpio.trans hgpioOpen, can.seq, linesAtRest_iff.2 ?_⟩
    rw [hparams]
    exact busCan_lines can
  · rw [hlife, hopen] at hc
    cases hc
  · intro e he hopened
    rw [htrace] at he
    obtain ⟨new', htrace', horder, _⟩ := can.trace
    obtain rfl : new = new' := List.append_cancel_left (htrace.symm.trans htrace')
    rcases List.mem_append.1 he with he | he
    · exact hinv.lines e he hopened
    · exact (horder e he).2.1

/-- CONSTRUCT keeps the invariant: it leaves the instance open with its lines LOW, or closed and holding nothing; all
its events are a closed instance's. -/
theorem constructOp_inv {s : State} (port baud deId reId : Nat) (a : Option Nat) (hinv : s.Inv)
    (hclosed : s.life = .closed) : ((constructOp port baud deId reId s).state.leaving a).Inv := by
  have hsame : ((constructOp port baud deId reId s).state.leaving a).txBuf = s.txBuf ∧
      ((constructOp port baud deId reId s).state.leaving a).rxBuf = s.rxBuf ∧
      ((constructOp port baud deId reId s).state.leaving a).txLen = s.txLen ∧
      ((constructOp port baud deId reId s).state.leaving a).expLen = s.expLen := by
    simp only [State.leaving_keeps, lifeless_fields (constructOp_lifeless port baud deId reId hclosed), and_self]
  have hlines : ∀ {new : List TraceEntry},
      (constructOp port baud deId reId s).state.trace = s.trace ++ new → (∀ e ∈ new, e.life = s.life) →
      ∀ e ∈ (constructOp port baud deId reId s).state.trace, e.life = .opened → e.linesSafe = true := by
    intro new htrace hnew e he hopened
    rw [htrace] at he
    rcases List.mem_append.1 he with he | he
    · exact hinv.lines e he hopened
    · rw [hnew e he, hclosed] at hopened
      cases hopened
  obtain ⟨hnoSer, hnoGpio⟩ := hinv.closed hclosed
  rcases constructOp_state port baud deId reId s hclosed with hdone | ⟨k, evs, hfail, _, _, hser, hgpio⟩
  · refine inv_of_same_buffers hinv hsame
      (fun _ => ⟨hdone.held.1, hdone.held.2, hdone.seq, linesAtRest_iff.2 (.inl hdone.lines)⟩)
      (fun hc => nomatch hdone.life.symm.trans hc) (hlines hdone.trace ?_)
    intro e he
    rcases List.mem_append.1 he with he | he
    · exact entries_life he
    · simp only [List.mem_cons, List.not_mem_nil, or_false] at he
      rcases he with rfl | rfl <;> rfl
  · exact inv_of_same_buffers hinv hsame (fun ho => nomatch hfail.life.symm.trans ho)
      (fun _ => ⟨hser hnoSer, hgpio hnoGpio⟩) (hlines hfail.trace fun e he => entries_life he)

/-- CLOSE keeps the invariant: it leaves the instance closed and holding nothing, its events made with the lines at
rest where the instance was open. -/
theorem afterClose_inv {s : State} (hinv : s.Inv) : s.afterClose.Inv := by
  refine inv_of_same_buffers hinv ⟨rfl, rfl, rfl, rfl⟩ (fun ho => nomatch ho) (fun _ => ⟨rfl, rfl⟩) ?_
  intro e he hopened
  rcases List.mem_append.1 he with he | he
  · exact hinv.lines e he hopened
  · obtain ⟨ev, _, rfl⟩ := List.mem_map.1 he
    obtain ⟨_, _, _, hrest⟩ := hinv.opened hopened
    exact entry_linesSafe hrest ev

theorem exec_inv {s t : State} {i : Instr} (hinv : s.Inv) (h : exec i s = .next t) : t.Inv := by
  rcases exec_next_cases h with hbus | ⟨port, baud, deId, reId, a, _, hclosed, rfl⟩ | ⟨_, rfl⟩ | ⟨_, c, rfl⟩
  · exact exec_bus_inv hbus hinv h
  · exact constructOp_inv port baud deId reId a hinv hclosed
  · exact afterClose_inv hinv
  · exact inv_of_same_buffers hinv ⟨rfl, rfl, rfl, rfl⟩ hinv.opened hinv.closed hinv.lines

/-- A property that taking a word and every instruction keep is kept by every step. -/
theorem step_induct {P : State → State → Prop} {s t : State} (h : step s = .next t) (hidle : P s s)
    (htakes : ∀ {port word u}, s.takes port word u → P s u)
    (hexec : ∀ {port word rest u i}, s.takes port word u → decode port word = .instr i rest →
      exec i u = .next t → P s t) : P s t := by
  rcases step_cases s with ⟨_, _, hs⟩ | ⟨port, word, u, i, rest, htake, hdecode, hs⟩ |
    ⟨port, word, u, rest, htake, _, hs⟩ | ⟨port, word, u, why, _, _, hs⟩
  · rw [hs] at h
    obtain rfl := Host.Outcome.next.inj h
    exact hidle
  · exact hexec htake hdecode (hs ▸ h)
  · rw [hs] at h
    obtain rfl := Host.Outcome.next.inj h
    exact htakes htake
  · rw [hs] at h
    cases h

/-- Settles O52: taking a word keeps the invariant (`takes_inv`) and so does every instruction (`exec_inv`). -/
theorem stepKeepsInv : Obligations.StepKeepsInv := by
  unfold Obligations.StepKeepsInv
  intro s t hinv h
  exact step_induct (P := fun _ t => t.Inv) h hinv (fun htake => takes_inv htake hinv)
    (fun htake _ hexec => exec_inv (takes_inv htake hinv) hexec)

/-- Settles O51: the reset state holds nothing, its buffers and its trace are empty, and TXLEN and EXPLEN are at the
bottoms of their ranges. -/
theorem resetInv : Obligations.ResetInv := by
  unfold Obligations.ResetInv
  exact ⟨rfl, rfl, rfl, rfl, by decide, by decide, by decide, by decide, by simp [State.reset]⟩

/-- Settles O50, read off the definition of the reset state. -/
theorem resetValues : Obligations.ResetValues := by
  unfold Obligations.ResetValues
  exact ⟨rfl, rfl, rfl, rfl⟩

end Sys2Proof.Machine
end

section
/-! Proofs about how an instruction ends and where it stops (30_encoding.md R98; 60_exceptions.md R213, R219, R233;
93_implementation_defined.md U11). -/

namespace Sys2Proof.Machine

/-! The outcomes of an instruction. -/

/-- R98, R204: a bus operation has no meaning on a closed instance. -/
theorem exec_bus_closed {s : State} {i : Instr} (hbus : i.isBusOp = true) (hwf : i.WellFormed)
    (hclosed : s.life = .closed) : exec i s = .refused .closedInstance := by
  have hne : ¬ s.life = .opened := by simp [hclosed]
  cases i with
  | readCoils => exact if_neg hne
  | readDiscreteInputs => exact if_neg hne
  | readHoldingRegisters => exact if_neg hne
  | readInputRegisters => exact if_neg hne
  | writeCoil => exact if_neg hne
  | writeRegister => exact if_neg hne
  | writeMultipleCoils slave start values =>
    have hlen : values.length ≤ Config.maxCoilsWrite := of_decide_eq_true hwf
    exact (if_pos hlen).trans (if_neg hne)
  | writeMultipleRegisters slave start values =>
    have hlen : values.length ≤ Config.maxRegsWrite := of_decide_eq_true hwf
    exact (if_pos hlen).trans (if_neg hne)
  | _ => cases hbus

/-- R204: a CONSTRUCT has no meaning on an open instance. -/
theorem exec_construct_opened {s : State} (port baud deId reId : Nat) (hopen : s.life = .opened) :
    exec (.construct port baud deId reId) s = .refused .alreadyOpen :=
  if_neg (by simp [hopen])

/-- Settles O46: a command at a time, each by the guard of its meaning. -/
theorem refusedCommands : Obligations.RefusedCommands := by
  unfold Obligations.RefusedCommands
  refine ⟨fun _ _ => exec_bus_closed, fun _ => exec_construct_opened, ?_, ?_⟩
  · intro s slave start values hlen
    exact if_neg (Nat.not_le.2 hlen)
  · intro s slave start values hlen
    exact if_neg (Nat.not_le.2 hlen)

/-- The end of a command is a next state, or the one fault where its answers are bounded (log 5). -/
theorem finish_cases (s t : State) :
    (∃ u, finish s t = .next u) ∨ (finish s t = .fault .callNeverAnswers ∧ ∃ k, s.answersLeft = some k) := by
  cases h : finish s t with
  | next u => exact .inl ⟨u, rfl⟩
  | fault r =>
    obtain ⟨rfl, k, hk, _⟩ := finish_fault h
    exact .inr ⟨rfl, k, hk⟩
  | refused r => exact absurd h finish_not_refused

/-- Everything the outcome of a well-formed instruction can be. -/
theorem exec_outcomes (s : State) {i : Instr} (hwf : i.WellFormed) :
    (∃ t, exec i s = .next t) ∨
    (exec i s = .fault .callNeverAnswers ∧ (∃ k, s.answersLeft = some k) ∧
      (i.isBusOp = true ∨ ∃ port baud deId reId, i = .construct port baud deId reId)) ∨
    (exec i s = .refused .closedInstance ∧ s.life = .closed ∧ i.isBusOp = true) ∨
    (exec i s = .refused .alreadyOpen ∧ s.life = .opened ∧
      ∃ port baud deId reId, i = .construct port baud deId reId) := by
  cases hbus : i.isBusOp with
  | true =>
    cases hlife : s.life with
    | closed => exact .inr (.inr (.inl ⟨exec_bus_closed hbus hwf hlife, rfl, rfl⟩))
    | opened =>
      rw [exec_bus hbus hwf hlife]
      rcases finish_cases s ((transact (prepared s i)).andThen (judged s.params i)).state with hnext | ⟨hfault, hk⟩
      · exact .inl hnext
      · exact .inr (.inl ⟨hfault, hk, .inl rfl⟩)
  | false =>
    cases i with
    | construct port baud deId reId =>
      cases hlife : s.life with
      | opened => exact .inr (.inr (.inr ⟨exec_construct_opened _ _ _ _ hlife, rfl, _, _, _, _, rfl⟩))
      | closed =>
        have hexec : exec (.construct port baud deId reId) s = finish s (constructOp port baud deId reId s).state :=
          if_pos hlife
        rw [hexec]
        rcases finish_cases s (constructOp port baud deId reId s).state with hnext | ⟨hfault, hk⟩
        · exact .inl hnext
        · exact .inr (.inl ⟨hfault, hk, .inr ⟨_, _, _, _, rfl⟩⟩)
    | close => exact .inl ⟨_, rfl⟩
    | crcReset => exact .inl ⟨_, rfl⟩
    | crcUpdate b => exact .inl ⟨_, rfl⟩
    | _ => cases hbus

/-- A word decodes to well-formed instructions alone. -/
theorem decode_wellFormed {port : PortUnit} {word rest : List Byte} {i : Instr} (h : decode port word = .instr i rest) :
    i.WellFormed :=
  (decodedIsEncoded port word rest i h).1

/-- Settles O54: a step is idle, takes a hold word or a word it refuses, or is `exec` of what the word decodes to, which
is well formed, so that its outcome is one of `exec_outcomes`; taking the word changed neither LIFE nor the answers. -/
theorem stopsOnlyWhereTheSpecStops : Obligations.StopsOnlyWhereTheSpecStops := by
  unfold Obligations.StopsOnlyWhereTheSpecStops
  intro s
  rcases step_cases s with ⟨_, _, hs⟩ | ⟨port, word, t, i, rest, htake, hdecode, hs⟩ |
    ⟨port, word, t, rest, _, _, hs⟩ | ⟨port, word, t, why, htake, hdecode, hs⟩
  · exact .inl ⟨s, hs⟩
  · have hlife : t.life = s.life := by rw [takes_state htake]
    have hans : t.answersLeft = s.answersLeft := by rw [takes_state htake]
    have houtcome := exec_outcomes t (decode_wellFormed hdecode)
    rw [← hs, hlife, hans] at houtcome
    rcases houtcome with hnext | hstop
    · exact .inl hnext
    · exact .inr (.inl ⟨port, word, t, i, rest, htake, hdecode, hstop⟩)
  · exact .inl ⟨t, hs⟩
  · exact .inr (.inr ⟨port, word, t, why, htake, hdecode, hs⟩)

/-- Settles O47: the STATUS of a bus operation is none of SetupError (`exec_bus_status`), that of CLOSE is OK, and the
micro-operations write none. -/
theorem setupErrorOnlyFromConstruct : Obligations.SetupErrorOnlyFromConstruct := by
  unfold Obligations.SetupErrorOnlyFromConstruct
  intro s t i h hsetup
  rcases exec_next_cases h with hbus | ⟨port, baud, deId, reId, _, hi, _⟩ | ⟨_, rfl⟩ | ⟨hi, c, rfl⟩
  · have hstatus := exec_bus_status hbus h
    simp [hsetup] at hstatus
  · exact .inl ⟨port, baud, deId, reId, hi⟩
  · cases hsetup
  · rcases hi with hi | ⟨b, hi⟩
    · exact .inr (.inl ⟨hi, hsetup⟩)
    · exact .inr (.inr ⟨b, hi, hsetup⟩)

/-- R201, R213: CONSTRUCT has no result. -/
theorem constructOp_resValid (port baud deId reId : Nat) {s : State} (hclosed : s.life = .closed) :
    (constructOp port baud deId reId s).state.resValid = .nothing := by
  rcases constructOp_state port baud deId reId s hclosed with hdone | ⟨_, _, hfail, _⟩
  · exact hdone.resValid
  · exact hfail.resValid

/-- Settles O48: of a bus operation by how its flow ends (`flow_status`); CONSTRUCT and CLOSE have no result. -/
theorem resultValidity : Obligations.ResultValidity := by
  unfold Obligations.ResultValidity
  intro s t i hupdate hreset h
  rcases exec_next_cases h with hbus | ⟨port, baud, deId, reId, a, rfl, hclosed, rfl⟩ | ⟨rfl, rfl⟩ | ⟨hi, _⟩
  · obtain ⟨a, rfl, _⟩ := exec_bus_next hbus h
    simp only [State.leaving_keeps]
    rcases flow_status s hbus with ⟨hok, hvalid⟩ | ⟨herr, hvalid⟩
    · exact ⟨fun _ => hvalid, fun hne => absurd hok hne⟩
    · exact ⟨fun hok => by simp [hok] at herr, fun _ => hvalid⟩
  · have hvalid := constructOp_resValid port baud deId reId hclosed
    exact ⟨fun _ => hvalid, fun _ => hvalid⟩
  · exact ⟨fun _ => rfl, fun _ => rfl⟩
  · rcases hi with hi | ⟨b, hi⟩
    · exact absurd hi hreset
    · exact absurd hi (hupdate b)

/-! Calls that are never answered (U11, log 5). -/

/-- A command that ends in `u` where every call is answered does so with `k` answers where it makes at most `k`
calls. -/
theorem finish_answers {s u t : State} (k : Nat) (h : finish (s.leaving none) (u.leaving none) = .next t) :
    finish (s.leaving (some k)) (u.leaving (some k)) =
      (if ((newEntries s t).filter (fun e => e.event.awaits)).length ≤ k then
        .next { t with answersLeft := some (k - ((newEntries s t).filter (fun e => e.event.awaits)).length) }
      else .fault .callNeverAnswers) := by
  rw [finish_none rfl] at h
  obtain rfl := Host.Outcome.next.inj h
  rfl

/-- Settles O49: the flow of a command does not read how many calls are still answered (`flow_leaving`,
`constructOp_leaving`); only its end does (`finish_answers`). -/
theorem unansweredCallsStick : Obligations.UnansweredCallsStick := by
  unfold Obligations.UnansweredCallsStick
  intro s t i k hkind h
  change exec i (s.leaving none) = .next t at h
  change exec i (s.leaving (some k)) = _
  rcases hkind with hbus | ⟨port, baud, deId, reId, rfl⟩
  · obtain ⟨hopen, hwf⟩ := exec_bus_open hbus h
    have hexec : ∀ a, exec i (s.leaving a) =
        finish (s.leaving a) (((transact (prepared s i)).andThen (judged s.params i)).state.leaving a) := by
      intro a
      rw [← Flow.leaving_state, ← flow_leaving]
      exact exec_bus hbus hwf hopen
    rw [hexec] at h
    rw [hexec]
    exact finish_answers k h
  · obtain ⟨hclosed, _⟩ := exec_construct_next h
    have hexec : ∀ a, exec (.construct port baud deId reId) (s.leaving a) =
        finish (s.leaving a) ((constructOp port baud deId reId s).state.leaving a) := by
      intro a
      rw [← Flow.leaving_state, ← constructOp_leaving]
      exact if_pos hclosed
    rw [hexec] at h
    rw [hexec]
    exact finish_answers k h

/-! What no step writes. -/

/-- What no step from `s` to `t` writes: the parameters, the events so far, and the configuration of an instance that
stays open. -/
def Fixed (s t : State) : Prop :=
  t.params = s.params ∧ s.trace <+: t.trace ∧
    (s.life = .opened → t.life = .opened →
      t.cfgPort = s.cfgPort ∧ t.cfgBaud = s.cfgBaud ∧ t.cfgDeId = s.cfgDeId ∧ t.cfgReId = s.cfgReId)

/-- R34, R40, R71: no instruction writes the parameters or takes back an event, and none that leaves the instance open
writes the configuration. -/
theorem exec_fixed {s t : State} {i : Instr} (h : exec i s = .next t) : Fixed s t := by
  rcases exec_next_cases h with hbus | ⟨port, baud, deId, reId, a, _, hclosed, rfl⟩ | ⟨_, rfl⟩ | ⟨_, c, rfl⟩
  · obtain ⟨_, _, _, hport, hbaud, hde, hre, hparams, _⟩ := exec_bus_keeps hbus h
    refine ⟨hparams, ?_, fun _ _ => ⟨hport, hbaud, hde, hre⟩⟩
    obtain ⟨a, rfl, _⟩ := exec_bus_next hbus h
    obtain ⟨_, _, htrace, _⟩ := transact_trace (prepared s i)
    have hstart : (prepared s i).trace = s.trace := by simp only [prepared_keeps]
    rw [hstart] at htrace
    exact ⟨_, ((flow_trace s i).trans htrace).symm⟩
  · have hparams : (constructOp port baud deId reId s).state.params = s.params := by
      simp only [lifeless_fields (constructOp_lifeless port baud deId reId hclosed)]
    refine ⟨hparams, ?_, fun hopen => by simp [hclosed] at hopen⟩
    rcases constructOp_state port baud deId reId s hclosed with hdone | ⟨_, _, hfail, _⟩
    · exact ⟨_, hdone.trace.symm⟩
    · exact ⟨_, hfail.trace.symm⟩
  · exact ⟨rfl, ⟨_, rfl⟩, fun _ hopen => nomatch hopen⟩
  · exact ⟨rfl, List.prefix_rfl, fun _ _ => ⟨rfl, rfl, rfl, rfl⟩⟩

/-- Settles O53: taking a word changes the ports alone, and every instruction fixes the rest (`exec_fixed`). -/
theorem fixedByEveryStep : Obligations.FixedByEveryStep := by
  unfold Obligations.FixedByEveryStep
  intro s t h
  refine step_induct (P := Fixed) h ?_ ?_ ?_
  · exact ⟨rfl, List.prefix_rfl, fun _ _ => ⟨rfl, rfl, rfl, rfl⟩⟩
  · intro port word u htake
    rw [takes_state htake]
    exact ⟨rfl, List.prefix_rfl, fun _ _ => ⟨rfl, rfl, rfl, rfl⟩⟩
  · intro port word rest u i htake _ hexec
    have hfixed := exec_fixed hexec
    rw [takes_state htake] at hfixed
    exact hfixed

/-! The generator's port (R120). -/

/-- R81: no word at the command port is a micro-operation of the generator. -/
theorem decodeCommand_ne_crc {word rest : List Byte} {i : Instr} (h : decode .command word = .instr i rest) :
    i ≠ .crcReset ∧ ∀ b, i ≠ .crcUpdate b := by
  obtain ⟨_, hunit, _⟩ := decodeCommand_inv h
  exact ⟨fun hi => by simp [hi, unitOf] at hunit, fun b hi => by simp [hi, unitOf] at hunit⟩

/-- No instruction writes the generator's port. -/
theorem exec_control {s t : State} {i : Instr} (h : exec i s = .next t) : t.control = s.control := by
  rcases exec_next_cases h with hbus | ⟨port, baud, deId, reId, a, _, hclosed, rfl⟩ | ⟨_, rfl⟩ | ⟨_, c, rfl⟩
  · simp only [exec_bus_keeps hbus h]
  · simp only [State.leaving_keeps, lifeless_fields (constructOp_lifeless port baud deId reId hclosed)]
  · rfl
  · rfl

/-- R120: of the commands only the bus operations run the generator. -/
theorem exec_command_crc {s t : State} {i : Instr} (hcommand : i ≠ .crcReset ∧ ∀ b, i ≠ .crcUpdate b)
    (h : exec i s = .next t) : t.crc = s.crc ∨ i.isBusOp = true := by
  obtain ⟨hreset, hupdate⟩ := hcommand
  rcases exec_next_cases h with hbus | ⟨port, baud, deId, reId, a, _, hclosed, rfl⟩ | ⟨_, rfl⟩ | ⟨hi | ⟨b, hi⟩, _⟩
  · exact .inr hbus
  · exact .inl (by simp only [State.leaving_keeps, lifeless_fields (constructOp_lifeless port baud deId reId hclosed)])
  · exact .inl rfl
  · exact absurd hi hreset
  · exact absurd hi (hupdate b)

/-- Settles O56: with nothing at the generator's port a step takes the host's word, which is no micro-operation
(`decodeCommand_ne_crc`); no instruction writes that port, and only a bus operation writes CRC. -/
theorem hostCannotReachGenerator : Obligations.HostCannotReachGenerator := by
  unfold Obligations.HostCannotReachGenerator
  refine ⟨fun _ _ _ => decodeCommand_ne_crc, ?_⟩
  intro s t hempty h
  refine step_induct (P := fun s t => t.control = [] ∧ (t.crc = s.crc ∨ ∃ word words i rest,
    s.pending = word :: words ∧ decode .command word = .instr i rest ∧ i.isBusOp = true)) h ⟨hempty, .inl rfl⟩ ?_ ?_
  · rintro port word u (⟨_, hc, _⟩ | ⟨_, _, _, _, rfl⟩)
    · rw [hempty] at hc
      cases hc
    · exact ⟨hempty, .inl rfl⟩
  · rintro port word rest u i (⟨_, hc, _⟩ | ⟨_, words, hpending, rfl, rfl⟩) hdecode hexec
    · rw [hempty] at hc
      cases hc
    · refine ⟨(exec_control hexec).trans hempty, ?_⟩
      rcases exec_command_crc (decodeCommand_ne_crc hdecode) hexec with hcrc | hbus
      · exact .inl hcrc
      · exact .inr ⟨word, words, i, rest, hpending, hdecode, hbus⟩

end Sys2Proof.Machine
end

section
/-! Proofs about CONSTRUCT and CLOSE: their events, their frames and how CONSTRUCT fails (45_lifecycle.md). -/

namespace Sys2Proof.Machine

/-- The events of a state whose trace has grown by entries made in one state. -/
theorem events_of_entries {s t u : State} {evs : List Event} (h : t.trace = s.trace ++ evs.map u.entry) :
    t.events = s.events ++ evs := by
  rw [State.events, h, List.map_append, map_entry_event, State.events]

/-! CONSTRUCT. -/

/-- R201: where the next calls are answered `Ok` the body of CONSTRUCT raises nothing. -/
theorem constructOp_running {s : State} {o f g c : List Answer} (port baud deId reId : Nat)
    (hopen : s.openAns = .ok :: o) (hflush : s.flushAns = .ok :: f) (hgpio : s.gpioAns = .ok :: g)
    (hconfig : s.configAns = .ok :: .ok :: c) : ∃ t, constructOp port baud deId reId s = .running t := by
  simp [constructOp, acquireStream, flushStream, acquireGpio, configureLine, State.openAnswer, State.flushAnswer,
    State.gpioAnswer, State.configAnswer, hopen, hflush, hgpio, hconfig]

/-- Settles O39: the body of CONSTRUCT raises nothing (`constructOp_running`), and of its cases that is the one that
ends in `ConstructDone`. -/
theorem constructSucceeds : Obligations.ConstructSucceeds := by
  unfold Obligations.ConstructSucceeds
  intro s port baud deId reId o f g c hclosed hanswered hopen hflush hgpio hconfig
  obtain ⟨t, ht⟩ := constructOp_running port baud deId reId hopen hflush hgpio hconfig
  have hdone : ConstructDone port baud deId reId s t := by
    rcases constructOp_cases port baud deId reId s hclosed with ⟨u, hu, hdone⟩ | ⟨u, hu, _⟩ | ⟨u, hu, _⟩
    · rw [hu] at ht
      obtain rfl := Flow.running.inj ht
      exact hdone
    · rw [hu] at ht
      cases ht
    · rw [hu] at ht
      cases ht
  obtain ⟨hser, hgpioOpen⟩ := hdone.held
  obtain ⟨hde, hre⟩ := hdone.lines
  obtain ⟨hport, hbaud, hdeId, hreId⟩ := hdone.config
  refine ⟨t, by rw [exec_construct_ready _ _ _ _ hclosed hanswered, ht]; rfl, hdone.status, hdone.life, hser, hgpioOpen,
    hde, hre, hdone.seq, hport, hbaud, hdeId, hreId, hdone.queue, hdone.resValid, ?_⟩
  rw [State.events, hdone.trace, List.map_append, List.map_append, map_entry_event]
  rfl

/-- R202: how a CONSTRUCT begun on a closed instance that holds nothing fails: at one of five points, with what it had
acquired released in reverse order. -/
theorem constructOp_unwinds (port baud deId reId : Nat) {s : State} (hclosed : s.life = .closed)
    (hnoSer : s.serOpen = false) (hnoGpio : s.gpioOpen = false)
    (hne : (constructOp port baud deId reId s).state.status ≠ .ok) :
    ∃ k evs, ConstructFailed s k evs (constructOp port baud deId reId s).state ∧
      (constructOp port baud deId reId s).state.serOpen = false ∧
      (constructOp port baud deId reId s).state.gpioOpen = false ∧
      (evs = [Event.openStream port baud .failed] ∨
       evs = [Event.openStream port baud .ok, Event.flush .failed, Event.closeStream] ∨
       evs = [Event.openStream port baud .ok, Event.flush .ok, Event.openGpio .failed, Event.closeStream] ∨
       evs = [Event.openStream port baud .ok, Event.flush .ok, Event.openGpio .ok, Event.configOutput deId .failed,
          Event.closeGpio, Event.closeStream] ∨
       evs = [Event.openStream port baud .ok, Event.flush .ok, Event.openGpio .ok, Event.configOutput deId .ok,
          Event.configOutput reId .failed, Event.closeGpio, Event.closeStream]) := by
  rcases constructOp_cases port baud deId reId s hclosed with ⟨t, h, hdone⟩ | ⟨t, h, hfail, hser, hgpio⟩ |
    ⟨t, h, hser, hgpio, hfail | hfail | hfail | hfail⟩ <;> rw [h] at hne ⊢
  · exact absurd hdone.status hne
  · exact ⟨_, _, hfail, hser.trans hnoSer, hgpio.trans hnoGpio, .inl rfl⟩
  · exact ⟨_, _, hfail, hser, hgpio, .inr (.inl (by simp [hnoGpio]))⟩
  · exact ⟨_, _, hfail, hser, hgpio, .inr (.inr (.inl (by simp [hnoGpio])))⟩
  · exact ⟨_, _, hfail, hser, hgpio, .inr (.inr (.inr (.inl rfl)))⟩
  · exact ⟨_, _, hfail, hser, hgpio, .inr (.inr (.inr (.inr rfl)))⟩

/-- Settles O40: the failure points are those of `constructOp_unwinds`; a later CONSTRUCT finds the instance closed, its
calls answered as before. -/
theorem constructUnwinds : Obligations.ConstructUnwinds := by
  unfold Obligations.ConstructUnwinds
  intro s port baud deId reId hclosed hnoSer hnoGpio hanswered
  refine ⟨_, exec_construct_ready port baud deId reId hclosed hanswered, fun hne => ?_⟩
  obtain ⟨k, evs, hfail, hser, hgpio, hevs⟩ := constructOp_unwinds port baud deId reId hclosed hnoSer hnoGpio hne
  have hleft : (constructOp port baud deId reId s).state.answersLeft = none :=
    (congrArg State.answersLeft hfail.kept).trans hanswered
  refine ⟨hfail.life, hser, hgpio, fun p b d r => ⟨_, exec_construct_ready p b d r hfail.life hleft⟩, ?_⟩
  rw [events_of_entries hfail.trace]
  simpa only [List.append_cancel_left_eq] using hevs

/-- R201, R214: a CONSTRUCT that fails does so by SetupError, or by TransportError at a step before `OpenGpio`. -/
theorem constructOp_kind (port baud deId reId : Nat) {s : State} (hclosed : s.life = .closed)
    (hne : (constructOp port baud deId reId s).state.status ≠ .ok) :
    ∃ k evs, ConstructFailed s k evs (constructOp port baud deId reId s).state ∧
      (k = .setupError ∨
        (k = .transportError ∧ Event.openGpio .failed ∉ evs ∧ ∀ id, Event.configOutput id .failed ∉ evs)) := by
  rcases constructOp_cases port baud deId reId s hclosed with ⟨t, h, hdone⟩ | ⟨t, h, hfail, _⟩ |
    ⟨t, h, _, _, hfail | hfail | hfail | hfail⟩ <;> rw [h] at hne ⊢
  · exact absurd hdone.status hne
  · exact ⟨_, _, hfail, .inr ⟨rfl, by simp, by simp⟩⟩
  · exact ⟨_, _, hfail, .inr ⟨rfl, by cases s.gpioOpen <;> simp, by cases s.gpioOpen <;> simp⟩⟩
  · exact ⟨_, _, hfail, .inl rfl⟩
  · exact ⟨_, _, hfail, .inl rfl⟩
  · exact ⟨_, _, hfail, .inl rfl⟩

/-- Settles O41: the kind of the failure by `constructOp_kind`, whose events are those behind the ones before. -/
theorem constructErrorKinds : Obligations.ConstructErrorKinds := by
  unfold Obligations.ConstructErrorKinds
  intro s t port baud deId reId h hne
  obtain ⟨hclosed, a, rfl⟩ := exec_construct_next h
  obtain ⟨k, evs, hfail, hkind⟩ := constructOp_kind port baud deId reId hclosed hne
  have hevents : ((constructOp port baud deId reId s).state.leaving a).events = s.events ++ evs :=
    events_of_entries hfail.trace
  have hstatus : ((constructOp port baud deId reId s).state.leaving a).status = k := hfail.status
  rw [hevents, List.drop_left, hstatus]
  refine ⟨hfail.errExp, hfail.errAct, hfail.resValid, fun _ => ?_, fun hcall => ?_⟩
  · rcases hkind with rfl | ⟨rfl, _⟩
    · exact .inr rfl
    · exact .inl rfl
  · rcases hkind with rfl | ⟨_, hgpio, hconfig⟩
    · rfl
    · rcases hcall with hcall | ⟨id, hcall⟩
      · exact absurd hcall hgpio
      · exact absurd hcall (hconfig id)

/-- Settles O42: CONSTRUCT writes nothing of what `lifeless` leaves (`constructOp_lifeless`), and where it succeeds no
context value. -/
theorem constructFrame : Obligations.ConstructFrame := by
  unfold Obligations.ConstructFrame
  intro s t port baud deId reId h
  obtain ⟨hclosed, a, rfl⟩ := exec_construct_next h
  have hcontext : (constructOp port baud deId reId s).state.status = .ok →
      (constructOp port baud deId reId s).state.errExp = s.errExp ∧
      (constructOp port baud deId reId s).state.errAct = s.errAct := by
    intro hok
    rcases constructOp_state port baud deId reId s hclosed with hdone | ⟨k, _, hfail, _, hk, _⟩
    · exact hdone.context
    · rw [hfail.status] at hok
      simp [hok] at hk
  simp only [State.leaving_keeps, lifeless_fields (constructOp_lifeless port baud deId reId hclosed)]
  simp only [implies_true, and_true, true_and]
  exact hcontext

/-! CLOSE. -/

/-- Settles O43, read off the one state CLOSE ends in (`exec_close_eq`). -/
theorem closeResult : Obligations.CloseResult := by
  unfold Obligations.CloseResult
  intro s
  refine ⟨_, exec_close_eq s, rfl, rfl, rfl, rfl, rfl, events_of_entries rfl, ?_⟩
  simp only [implies_true, and_self]

/-- Settles O44: the second CLOSE finds nothing held. -/
theorem closeIdempotent : Obligations.CloseIdempotent := by
  unfold Obligations.CloseIdempotent
  intro s t h
  rw [exec_close_eq] at h
  obtain rfl := Host.Outcome.next.inj h
  refine ⟨_, exec_close_eq _, ?_⟩
  simp

end Sys2Proof.Machine
end

section
/-! Proofs about the CRC-16 generator: its micro-operations, that it is linear and one-to-one, and the residue
(40_crc16.md R111 to R118). -/

namespace Sys2Proof.Machine

/-! The micro-operations. -/

/-- R112, R113: the byte update is eight times the shift with the polynomial, written out. -/
theorem crcByte_eq_iterate (c : Word) (b : Byte) : crcByte c b = Nat.iterate
    (fun c : Word => if c.getLsbD 0 then (c >>> 1) ^^^ 0xA001#16 else c >>> 1) 8 (c ^^^ b.setWidth 16) := rfl

/-- Settles O6: by the meaning of the micro-operation and the decoder's arm for its control word. -/
theorem crcResetResult : Obligations.CrcResetResult := by
  unfold Obligations.CrcResetResult
  exact ⟨fun _ => rfl, fun _ _ => rfl⟩

/-- Settles O7: the micro-operation puts `crcByte` of CRC and the byte into CRC, which is `crcByte_eq_iterate`; the
example is worked out. -/
theorem crcUpdateResult : Obligations.CrcUpdateResult := by
  unfold Obligations.CrcUpdateResult
  refine ⟨?_, fun _ _ => rfl, ?_⟩
  · intro b s
    rw [← crcByte_eq_iterate]
    rfl
  · intro s hcrc
    have hbyte : crcByte 0xFFFF#16 0x01#8 = 0x807E#16 := by decide
    show Host.Outcome.next { s with crc := crcByte s.crc 0x01#8 } = _
    rw [hcrc, hbyte]

/-- One UPDATE a step: the control words of a byte sequence leave in CRC its run from what CRC held. -/
theorem run_updates (bytes : List Byte) (s : State) (ws : List (List Byte))
    (hcontrol : s.control = bytes.map (fun b => [0x01#8, b]) ++ ws) :
    Sys2Proof.core.run bytes.length s = .next { s with control := ws, crc := crcFrom s.crc bytes } := by
  induction bytes generalizing s with
  | nil =>
    obtain rfl : s.control = ws := hcontrol
    rfl
  | cons b rest ih =>
    have hstep : step s =
        .next { s with control := rest.map (fun b => [0x01#8, b]) ++ ws, crc := crcByte s.crc b } :=
      step_run (.inl ⟨_, hcontrol, rfl, rfl⟩) rfl
    rw [List.length_cons, run_succ hstep, ih _ rfl, crcFrom_cons]

/-- Settles O8: RESET, and then the UPDATEs by induction on the bytes (`run_updates`). -/
theorem crc16IsTheFold : Obligations.Crc16IsTheFold := by
  unfold Obligations.Crc16IsTheFold
  refine ⟨?_, rfl, by decide, by decide⟩
  intro bytes s ws hcontrol
  have hreset : step s =
      .next { s with control := bytes.map (fun b => [0x01#8, b]) ++ ws, crc := Config.crcInit } :=
    step_run (.inl ⟨_, hcontrol, rfl, rfl⟩) rfl
  refine ⟨?_, ?_⟩
  · rw [run_succ hreset, run_updates bytes _ ws rfl]
    rfl
  · rw [crc16, crcFrom_eq_foldl]
    rfl

/-! The generator is linear over exclusive or. -/

theorem shift1_xor (a b : Word) : shift1 (a ^^^ b) = shift1 a ^^^ shift1 b := by
  have hshift : (a ^^^ b) >>> 1 = (a >>> 1) ^^^ (b >>> 1) := BitVec.ushiftRight_xor_distrib a b 1
  unfold shift1
  rw [hshift, BitVec.getLsbD_xor]
  cases a.getLsbD 0 <;> cases b.getLsbD 0
  · rfl
  · exact BitVec.xor_assoc _ _ _
  · exact (BitVec.xor_assoc _ _ _).trans
      ((congrArg _ (BitVec.xor_comm _ _)).trans (BitVec.xor_assoc _ _ _).symm)
  · show a >>> 1 ^^^ b >>> 1 = (a >>> 1 ^^^ Config.crcPoly) ^^^ (b >>> 1 ^^^ Config.crcPoly)
    rw [BitVec.xor_comm (b >>> 1), BitVec.xor_assoc, ← BitVec.xor_assoc Config.crcPoly, BitVec.xor_self,
      BitVec.zero_xor]

theorem shiftN_xor (n : Nat) (a b : Word) : shiftN n (a ^^^ b) = shiftN n a ^^^ shiftN n b := by
  induction n generalizing a b with
  | zero => rfl
  | succ n ih => rw [shiftN, shift1_xor, ih]; rfl

@[simp] theorem shiftN_zero (n : Nat) : shiftN n 0#16 = 0#16 := by
  induction n with
  | zero => rfl
  | succ n ih => exact ih

/-- The shift loses nothing: bit 0 comes back as bit 15, which the polynomial has set. -/
theorem shift1_eq_zero {c : Word} (h : shift1 c = 0#16) : c = 0#16 := by
  have hbit : ∀ k, (shift1 c).getLsbD k = false := fun k => by rw [h]; exact BitVec.getLsbD_zero
  have hlow : c.getLsbD 0 = false := by
    cases hlow : c.getLsbD 0 with
    | false => rfl
    | true =>
      have h15 := hbit 15
      simp [shift1, hlow, Config.crcPoly] at h15
  apply BitVec.eq_of_getLsbD_eq
  intro k _
  rw [BitVec.getLsbD_zero]
  cases k with
  | zero => exact hlow
  | succ k =>
    have := hbit k
    rw [shift1, if_neg (by rw [hlow]; exact Bool.false_ne_true), BitVec.getLsbD_ushiftRight, Nat.add_comm] at this
    exact this

theorem shiftN_eq_zero {n : Nat} {c : Word} (h : shiftN n c = 0#16) : c = 0#16 := by
  induction n generalizing c with
  | zero => exact h
  | succ n ih => exact shift1_eq_zero (ih h)

theorem shiftN_inj {n : Nat} {a b : Word} (h : shiftN n a = shiftN n b) : a = b := by
  refine BitVec.xor_eq_zero_iff.1 (shiftN_eq_zero (n := n) ?_)
  rw [shiftN_xor, h, BitVec.xor_self]

/-- R118 (d): the byte update is linear in the accumulator and the byte together. -/
theorem crcByte_xor (c d : Word) (a b : Byte) : crcByte (c ^^^ d) (a ^^^ b) = crcByte c a ^^^ crcByte d b := by
  rw [crcByte, crcByte, crcByte, ← shiftN_xor, BitVec.setWidth_xor]
  congr 1
  ac_rfl

/-- R118 (d): so is the run over sequences of one length. -/
theorem crcFrom_xor (c d : Word) (bytes errors : List Byte) (hlen : bytes.length = errors.length) :
    crcFrom (c ^^^ d) (List.zipWith (· ^^^ ·) bytes errors) = crcFrom c bytes ^^^ crcFrom d errors := by
  induction bytes generalizing c d errors with
  | nil =>
    obtain rfl : errors = [] := List.length_eq_zero_iff.1 hlen.symm
    rfl
  | cons a rest ih =>
    cases errors with
    | nil => cases hlen
    | cons b more =>
      rw [List.zipWith_cons_cons, crcFrom_cons, crcFrom_cons, crcFrom_cons, crcByte_xor]
      exact ih _ _ _ (Nat.succ.inj hlen)

/-- Settles O11: linearity (`crcFrom_xor`), with the errors' run started at 0. -/
theorem crcAffine : Obligations.CrcAffine := by
  unfold Obligations.CrcAffine
  intro bytes errors hlen
  have h := crcFrom_xor Config.crcInit 0#16 bytes errors hlen
  rwa [BitVec.xor_zero] at h

/-! The generator is one-to-one. -/

theorem crcByte_left_inj {c d : Word} {b : Byte} (h : crcByte c b = crcByte d b) : c = d :=
  BitVec.xor_left_inj _ |>.1 (shiftN_inj h)

theorem crcByte_right_inj {c : Word} {a b : Byte} (h : crcByte c a = crcByte c b) : a = b := by
  have hwide : a.setWidth 16 = b.setWidth 16 := (BitVec.xor_right_inj _).1 (shiftN_inj h)
  have hback := congrArg (BitVec.setWidth 8) hwide
  simpa using hback

theorem crcFrom_inj {c d : Word} {bytes : List Byte} (h : crcFrom c bytes = crcFrom d bytes) : c = d := by
  induction bytes generalizing c d with
  | nil => exact h
  | cons b rest ih =>
    rw [crcFrom_cons, crcFrom_cons] at h
    exact crcByte_left_inj (ih h)

/-! The residue (R118 (c)). -/

/-- Bits that are zero are shifted out without the polynomial. -/
theorem shiftN_of_low_zero {n : Nat} {c : Word} (h : ∀ k < n, c.getLsbD k = false) : shiftN n c = c >>> n := by
  induction n generalizing c with
  | zero => simp [shiftN]
  | succ n ih =>
    have hshift : shift1 c = c >>> 1 := by rw [shift1, if_neg (by rw [h 0 (by omega)]; exact Bool.false_ne_true)]
    rw [shiftN, hshift, ih, ← BitVec.shiftRight_add, Nat.add_comm]
    intro k hk
    rw [BitVec.getLsbD_ushiftRight, Nat.add_comm]
    exact h (k + 1) (by omega)

/-- The high byte of a word, brought down by eight shifts. -/
theorem shiftN_high (b : Byte) : shiftN 8 (b.setWidth 16 <<< 8) = b.setWidth 16 := by
  rw [shiftN_of_low_zero (by intro k hk; simp [hk])]
  apply BitVec.eq_of_getLsbD_eq
  intro k hk
  by_cases h8 : k < 8
  · simp [show 8 + k < 16 by omega, hk]
  · have hout : b.getLsbD k = false := BitVec.getLsbD_of_ge _ _ (by omega)
    simp [hk, hout]

/-- R14: a word by its two bytes. -/
theorem word_split (w : Word) : w = (hiByte w).setWidth 16 <<< 8 ^^^ (loByte w).setWidth 16 := by
  apply BitVec.eq_of_getLsbD_eq
  intro k hk
  rw [← congrArg (fun v : Word => v.getLsbD k) (wordBe_hi_lo w)]
  by_cases h8 : k < 8
  · simp [wordBe, h8]
  · have hout : (loByte w).getLsbD k = false := BitVec.getLsbD_of_ge _ _ (by omega)
    simp [wordBe, h8, hout]

/-- The run over the two bytes of a word, low byte first, is sixteen shifts of the difference. -/
theorem crcFrom_le16 (c d : Word) : crcFrom c (le16 d) = shiftN 8 (shiftN 8 (c ^^^ d)) := by
  rw [le16, crcFrom_cons, crcFrom_cons, crcFrom_nil, crcByte, crcByte]
  show shiftN 8 (shiftN 8 (c ^^^ (loByte d).setWidth 16) ^^^ (hiByte d).setWidth 16) = _
  rw [← shiftN_high (hiByte d), ← shiftN_xor, BitVec.xor_assoc, BitVec.xor_comm ((loByte d).setWidth 16), ← word_split]

theorem crcFrom_le16_eq_zero {c d : Word} : crcFrom c (le16 d) = 0#16 ↔ d = c := by
  rw [crcFrom_le16]
  constructor
  · intro h
    exact (BitVec.xor_eq_zero_iff.1 (shiftN_eq_zero (shiftN_eq_zero h))).symm
  · rintro rfl
    rw [BitVec.xor_self, shiftN_zero, shiftN_zero]

/-- R116: a response is its body and its received CRC, low byte first. -/
theorem take_append_receivedCrc {rsp : List Byte} (h : 2 ≤ rsp.length) :
    rsp.take (rsp.length - 2) ++ le16 (receivedCrc rsp) = rsp := by
  have hbytes : le16 (receivedCrc rsp) = [byteAt rsp (rsp.length - 2), byteAt rsp (rsp.length - 1)] := by
    simp [le16, receivedCrc, wordLe]
  have hdrop : rsp.drop (rsp.length - 2) = [byteAt rsp (rsp.length - 2), byteAt rsp (rsp.length - 1)] := by
    rw [List.drop_eq_getElem_cons (by omega), List.drop_eq_getElem_cons (by omega), List.drop_of_length_le (by omega)]
    simp only [byteAt, List.getD_eq_getElem?_getD]
    rw [List.getElem?_eq_getElem (by omega), List.getElem?_eq_getElem (by omega)]
    simp only [Option.getD_some, List.cons.injEq, and_true, true_and]
    congr 1
    omega
  rw [hbytes, ← hdrop, List.take_append_drop]

/-- R118 (c): the residue test accepts exactly the responses the comparison accepts. -/
theorem crc16_eq_zero_iff {rsp : List Byte} (h : 2 ≤ rsp.length) :
    crc16 rsp = 0#16 ↔ receivedCrc rsp = computedCrc rsp := by
  have hsplit : crc16 rsp = crcFrom (computedCrc rsp) (le16 (receivedCrc rsp)) := by
    conv_lhs => rw [← take_append_receivedCrc h]
    exact crcFrom_append _ _ _
  rw [hsplit, crcFrom_le16_eq_zero]

/-- Settles O10: the residue is that of the run over the two CRC bytes (`crcFrom_le16_eq_zero`). -/
theorem crcResidue : Obligations.CrcResidue := by
  unfold Obligations.CrcResidue
  refine ⟨fun body => ?_, fun rsp h => (crc16_eq_zero_iff h).symm⟩
  rw [crc16, appendCrc, crcFrom_append]
  exact crcFrom_le16_eq_zero.2 rfl

/-! Flipped bits (R118 (d)). -/

/-- A sequence with one byte changed has another CRC. -/
theorem crc16_set_ne {bytes : List Byte} {j : Nat} {b : Byte} (hj : j < bytes.length) (hb : b ≠ byteAt bytes j) :
    crc16 (bytes.set j b) ≠ crc16 bytes := by
  have hget : bytes[j] = byteAt bytes j := by
    simp [byteAt, List.getD_eq_getElem?_getD, List.getElem?_eq_getElem hj]
  intro h
  rw [List.set_eq_take_append_cons_drop, if_pos hj] at h
  conv_rhs at h => rw [← List.take_append_drop j bytes, List.drop_eq_getElem_cons hj, hget]
  rw [crc16, crc16, crcFrom_append, crcFrom_append, crcFrom_cons, crcFrom_cons] at h
  exact hb (crcByte_right_inj (crcFrom_inj h))

theorem xor_bit_ne (b : Byte) {k : Nat} (hk : k < 8) : b ^^^ (1#8 <<< k) ≠ b := by
  have hbit : ∀ k < 8, (1#8 <<< k : Byte) ≠ 0#8 := by decide
  intro h
  have h0 : b ^^^ (1#8 <<< k) = b ^^^ 0#8 := by rw [h, BitVec.xor_zero]
  exact hbit k hk ((BitVec.xor_right_inj b).1 h0)

/-- R116, R118 (d): a response with a right CRC has a wrong one with one bit flipped. -/
theorem flipped_crc_wrong {rsp : List Byte} {j k : Nat} (hlen : 2 ≤ rsp.length) (hj : j < rsp.length) (hk : k < 8)
    (hcrc : receivedCrc rsp = computedCrc rsp) :
    receivedCrc (rsp.set j (byteAt rsp j ^^^ (1#8 <<< k))) ≠ computedCrc (rsp.set j (byteAt rsp j ^^^ (1#8 <<< k))) := by
  intro h
  have hflipped := (crc16_eq_zero_iff (by rw [List.length_set]; exact hlen)).2 h
  have hright := (crc16_eq_zero_iff hlen).2 hcrc
  exact crc16_set_ne hj (xor_bit_ne _ hk) (hflipped.trans hright.symm)

/-- Settles O12: the flipped response's CRC is wrong (`flipped_crc_wrong`), and CheckCrc raises where it is. -/
theorem singleBitErrorsDetected : Obligations.SingleBitErrorsDetected := by
  unfold Obligations.SingleBitErrorsDetected
  intro rsp j k s hlen hj hk hcrc
  exact ⟨_, if_neg (flipped_crc_wrong (by omega) hj hk hcrc), rfl⟩

end Sys2Proof.Machine
end

section
/-! Proofs about the frame codec: the request frames field by field, and packed coils (30_encoding.md R84 to R90,
41_frame_codec.md R127, R132, R136). -/

namespace Sys2Proof.Machine

/-- R90: the coil word's two bytes. -/
theorem be16_coilWord (value : Bool) : be16 (coilWord value) = [if value then 0xFF#8 else 0x00#8, 0x00#8] := by
  cases value <;> rfl

theorem hiByte_ofNat (n : Nat) : hiByte (BitVec.ofNat 16 n) = BitVec.ofNat 8 (n / 256) := by
  apply BitVec.eq_of_toNat_eq
  simp only [hiByte, BitVec.toNat_setWidth, BitVec.toNat_ushiftRight, BitVec.toNat_ofNat, Nat.shiftRight_eq_div_pow]
  omega

theorem loByte_ofNat (n : Nat) : loByte (BitVec.ofNat 16 n) = BitVec.ofNat 8 n := by
  apply BitVec.eq_of_toNat_eq
  simp only [loByte, BitVec.toNat_setWidth, BitVec.toNat_ofNat]
  omega

/-- R84, R186: the frame of WRITE_COIL. -/
theorem requestFrame_writeCoil (slave : Byte) (a : Word) (value : Bool) :
    requestFrame (.writeCoil slave a value) =
      appendCrc [slave, 0x05#8, (a >>> 8).setWidth 8, a.setWidth 8, if value then 0xFF#8 else 0x00#8, 0x00#8] := by
  rw [requestFrame, encode, body4, be16_coilWord]
  rfl

/-- R85: the frame of WRITE_MULTIPLE_COILS. -/
theorem requestFrame_writeMultipleCoils (slave : Byte) (start : Word) (values : List Bool) :
    requestFrame (.writeMultipleCoils slave start values) =
      appendCrc ([slave, 0x0F#8, (start >>> 8).setWidth 8, start.setWidth 8, BitVec.ofNat 8 (values.length / 256),
        BitVec.ofNat 8 values.length, BitVec.ofNat 8 (packBits values).length] ++ packBits values) := by
  rw [requestFrame, encode, bodyWMC, packBits_length]
  simp only [be16, hiByte_ofNat, loByte_ofNat]
  rfl

/-- R86: the frame of WRITE_MULTIPLE_REGISTERS. -/
theorem requestFrame_writeMultipleRegisters (slave : Byte) (start : Word) (values : List Word)
    (h : values.length ≤ 127) :
    requestFrame (.writeMultipleRegisters slave start values) =
      appendCrc ([slave, 0x10#8, (start >>> 8).setWidth 8, start.setWidth 8, 0x00#8, BitVec.ofNat 8 values.length,
        BitVec.ofNat 8 (2 * values.length)] ++ values.flatMap fun w : Word => [(w >>> 8).setWidth 8, w.setWidth 8]) := by
  rw [requestFrame, encode, bodyWMR]
  simp only [be16, hiByte_ofNat, loByte_ofNat, Nat.div_eq_of_lt (show values.length < 256 by omega)]
  rfl

/-- Settles O13: a frame's fields are those of its body, and coil `k` of the packed bytes is coil `k` of the operand,
or a cleared padding bit (`bitAt_packBits`). -/
theorem requestFrames : Obligations.RequestFrames := by
  unfold Obligations.RequestFrames
  refine ⟨?_, requestFrame_writeCoil, ?_, requestFrame_writeMultipleRegisters⟩
  · intro slave a b p hp
    simp only [List.mem_cons, List.not_mem_nil, or_false] at hp
    rcases hp with rfl | rfl | rfl | rfl | rfl <;> rfl
  · intro slave start values _
    exact ⟨packBits values, requestFrame_writeMultipleCoils slave start values, packBits_length values,
      fun k _ => bitAt_packBits values k⟩

/-- A byte of a part of a response. -/
theorem byteAt_take_drop {rsp : List Byte} {n k : Nat} (m : Nat) (hk : k < n) :
    byteAt ((rsp.drop m).take n) k = byteAt rsp (m + k) := by
  simp [byteAt, List.getD_eq_getElem?_getD, hk]

/-- Settles O14: element `k` of the unpacked sequence is bit `k` of the data bytes, all of which the byte count
covers, and so value `k` (`bitAt_packBits`). -/
theorem packUnpackRoundTrip : Obligations.PackUnpackRoundTrip := by
  unfold Obligations.PackUnpackRoundTrip
  intro values rsp _ hcount hdata
  apply List.ext_getElem (by simp)
  intro k _ hk
  have hbyte : byteAt (packBits values) (k / 8) = byteAt rsp (3 + k / 8) := by
    rw [← hdata, byteAt_take_drop 3 (by omega)]
  have hbit : bitAt (packBits values) k = values[k] := by
    rw [bitAt_packBits, List.getD_eq_getElem _ _ hk]
  simp only [unpackBits, List.getElem_map, List.getElem_range, unpackBit]
  rw [if_pos (by omega), ← hbyte]
  exact hbit

end Sys2Proof.Machine
end

section
/-! Proofs about the exchange: what a bus operation sends, and how the transmission or the reads end
(42_turnaround.md R152 to R166). -/

namespace Sys2Proof.Machine

/-! A bus operation by its request. -/

/-- The environment of the request is that of the operation. -/
theorem prepared_accepts {s : State} {i : Instr} (hbus : i.isBusOp = true) (h : s.accepts (requestFrame i).length) :
    (prepared s i).accepts (prepared s i).txLen := by
  obtain ⟨_, _, _, htxLen, _⟩ := prepared_sets s hbus
  simpa only [State.accepts, prepared_keeps, htxLen] using h

theorem prepared_events (s : State) (i : Instr) : (prepared s i).events = s.events := by
  simp only [State.events, prepared_keeps]

/-- A ready bus operation whose `Transact` raises ends in the state that leaves. -/
theorem exec_transact_raised {s t : State} {i : Instr} (hready : s.Ready i)
    (h : transact (prepared s i) = .raised t) : exec i s = .next t := by
  rw [exec_ready hready, h]
  rfl

/-- What an exchange that failed leaves of the request and the results before it. -/
theorem rest_prepared {s t : State} {i : Instr} (hbus : i.isBusOp = true) (h : t.rest = (prepared s i).rest) :
    t.life = s.life ∧ t.resBits = s.resBits ∧ t.resRegs = s.resRegs ∧ t.crc = crc16 (encode i) ∧
    t.txBuf = Memory.store s.txBuf 0 (requestFrame i) := by
  obtain ⟨_, _, htxBuf, _, _, hcrc⟩ := prepared_sets s hbus
  have hfields := congrArg (fun u : State => (u.life, u.resBits, u.resRegs, u.crc, u.txBuf)) h
  simpa only [State.rest, prepared_keeps, hcrc, htxBuf, Prod.mk.injEq] using hfields

/-! The bytes of a frame in TXBUF. -/

theorem byteAt_load {m : Memory} {n k : Nat} (hk : k < n) : byteAt (Memory.load m 0 n) k = Memory.read m k := by
  have hlen : k < (Memory.load m 0 n).length := by simpa using hk
  rw [byteAt, List.getD_eq_getElem _ _ hlen, Memory.load_getElem, Nat.zero_add]

theorem take_load {m : Memory} {n k : Nat} (hk : k ≤ n) : (Memory.load m 0 n).take k = Memory.load m 0 k := by
  obtain ⟨d, rfl⟩ := Nat.exists_eq_add_of_le hk
  rw [Memory.load_append, List.take_append_of_le_length (by simp), List.take_of_length_le (by simp)]

/-- The frame byte by byte, as it stands in TXBUF before the first event (R146). -/
theorem read_prepared {s : State} {i : Instr} {k : Nat} (hbus : i.isBusOp = true) (hwf : Memory.wf s.txBuf = true)
    (hk : k < (requestFrame i).length) : Memory.read (prepared s i).txBuf k = byteAt (requestFrame i) k := by
  obtain ⟨_, _, _, htxLen, _⟩ := prepared_sets s hbus
  rw [← prepared_frame (s := s) hbus hwf, byteAt_load (htxLen ▸ hk)]

/-! The bytes of a list of events. -/

/-- The byte a `Write` event writes. -/
def Event.sent : Event → List Byte
  | .write b _ => [b]
  | _ => []

theorem writtenBytes_events (new : List TraceEntry) : writtenBytes new = (new.map (·.event)).flatMap Event.sent := by
  induction new with
  | nil => rfl
  | cons e rest ih =>
    rw [writtenBytes, List.map_cons, List.flatMap_cons, ← ih]
    cases e.event <;> rfl

theorem sent_txEvents (frame : List Byte) : (txEvents frame).flatMap Event.sent = frame := by
  have hsending : (sending frame).flatMap Event.sent = frame := by
    induction frame with
    | nil => rfl
    | cons b rest ih => rw [sending, List.flatMap_cons, List.flatMap_append, ← sending, ih]; rfl
  simp [txEvents, toTransmit, toReceive, hsending, Event.sent]

theorem sent_rxEvents (n : Nat) (chunks : List (List Byte)) : (rxEvents n chunks).flatMap Event.sent = [] := by
  induction chunks generalizing n with
  | nil => rfl
  | cons c rest ih => rw [rxEvents, List.flatMap_append, ih]; rfl

/-- The events of the new entries of a run, where its events are known and its trace has grown. -/
theorem newEntries_events {s t : State} {evs : List Event} (h : t.events = s.events ++ evs) :
    (newEntries s t).map (·.event) = evs := by
  have hlen : s.events.length = s.trace.length := List.length_map _
  rw [newEntries, List.map_drop]
  exact (congrArg (List.drop s.trace.length) h).trans (by rw [← hlen, List.drop_left])

/-! The frame accepted whole. -/

/-- R162, R163: the length check makes no event. -/
theorem checkLength_trace (f : Flow) : (f.andThen checkLength).state.trace = f.state.trace := by
  cases f with
  | raised t => rfl
  | running t =>
    rw [Flow.running_andThen]
    unfold checkLength
    dsimp only
    split <;> rfl

/-- Settles O17: `Transact` comes to its receive loop with the events of the frame behind it (`transact_sent`), whose
trace is reads and pacing delays, the first a read of all that is expected (`receiveLoop_trace`). -/
theorem frameIsSentWhole : Obligations.FrameIsSentWhole := by
  unfold Obligations.FrameIsSentWhole
  intro s i hready haccepts
  have hbus := hready.bus
  obtain ⟨_, _, _, _, hexpLen, _⟩ := prepared_sets s hbus
  obtain ⟨v, hv, _, _, _, _, hcnt, _, _, _, hvexp, _, _, _, _, hvev⟩ := transact_sent (prepared_accepts hbus haccepts)
  obtain ⟨reads, htrace, _, hreads, hfirst⟩ := receiveLoop_trace (prepared s i).expLen v
  have hpos : 0 < i.responseLength := by have := responseLength_bounds hbus; omega
  obtain ⟨e, rest, rfl, r, he⟩ := hfirst (by omega) (by omega)
  have hend : ((transact (prepared s i)).andThen (judged s.params i)).state.events =
      s.events ++ (txEvents (requestFrame i) ++ (e :: rest).map (·.event)) := by
    rw [State.events, flow_trace, hv, checkLength_trace, htrace, List.map_append]
    change v.events ++ _ = _
    rw [hvev, prepared_events, prepared_frame hbus hready.buffers.tx, List.append_assoc]
  refine ⟨_, r, rest.map (·.event), exec_ready hready, ?_, ?_⟩
  · rw [hend, List.map_cons, he, hcnt, hvexp, hexpLen, txEvents, Nat.sub_zero]
    simp only [List.append_assoc, List.cons_append, List.nil_append]
  · intro ev hev
    obtain ⟨f, hf, rfl⟩ := List.mem_map.1 hev
    exact (hreads f (by simp [hf])).2

/-! An aborted transmission (R155). -/

/-- R155: where a byte is not accepted `Transact` ends by the abort, with its registers and its events. -/
theorem transact_aborted {s : State} {k : Nat} {a : WriteAnswer} {more : List WriteAnswer}
    (hwrites : s.writeAns = List.replicate k .accepted1 ++ a :: more) (hk : k < s.txLen) (ha : a ≠ .accepted1) :
    ∃ t, transact s = .raised t ∧ t.status = .transportError ∧ t.errExp = 1 ∧ t.errAct = 0 ∧ t.resValid = .nothing ∧
      t.seq = .receiveMode ∧ t.rxCnt = s.rxCnt ∧ t.rxQueue = s.rxQueue ∧ t.rxBuf = s.rxBuf ∧
      t.de = (if s.params.txAbortRestoresRx then .low else .high) ∧
      t.re = (if s.params.txAbortRestoresRx then .low else .high) ∧
      t.events = s.events ++ (toTransmit ++ sending (Memory.load s.txBuf 0 k) ++ [Event.write (Memory.read s.txBuf k) a] ++
        (if s.params.txAbortRestoresRx then toReceive else [])) := by
  obtain ⟨hrxBuf, hrxCnt, hrxQueue, _, hwriteAns, htxBuf, htxIdx, hparams, _, _, _, _, _, hseq, hde, hre⟩ :=
    State.transmitStart_fields s
  obtain ⟨t, hloop, hevents⟩ :=
    transmitBytes_aborted k s.txLen s.transmitStart a more (hwriteAns.trans hwrites) hk ha hseq hde hre
  obtain ⟨_, hbuf, hcnt, hqueue, _, _, _, hraised⟩ := transmitBytes_spec s.txLen s.transmitStart hseq hde hre
  obtain ⟨hseq', hstatus, herrExp, herrAct, hvalid, hde', hre'⟩ := hraised t hloop
  rw [hloop, Flow.raised_state] at hbuf hcnt hqueue
  rw [hparams] at hde' hre' hevents
  have hstart : s.transmitStart.events = s.events ++ toTransmit := by
    simp [State.transmitStart, enterTransmit_eq, State.events, toTransmit]
  refine ⟨t, by rw [transact_eq, hloop, Flow.raised_andThen], hstatus, herrExp, herrAct, hvalid, hseq', hcnt.trans hrxCnt,
    hqueue.trans hrxQueue, hbuf.trans hrxBuf, hde', hre', ?_⟩
  rw [hevents, hstart, htxBuf, htxIdx, Nat.zero_add]
  simp only [List.append_assoc]

/-- Settles O19: `transact_aborted` on the request, whose frame stands in TXBUF. -/
theorem transmitAbort : Obligations.TransmitAbort := by
  unfold Obligations.TransmitAbort
  intro s i k a more hready hwrites hk ha
  have hbus := hready.bus
  obtain ⟨_, _, _, htxLen, _⟩ := prepared_sets s hbus
  obtain ⟨t, ht, hfields⟩ := transact_aborted (s := prepared s i) (by simpa only [prepared_keeps] using hwrites)
    (by rw [htxLen]; exact hk) ha
  have hsent : Memory.load (prepared s i).txBuf 0 k = (requestFrame i).take k := by
    rw [← prepared_frame (s := s) hbus hready.buffers.tx, take_load (by omega)]
  simp only [prepared_keeps, prepared_events, hsent, read_prepared hbus hready.buffers.tx hk] at hfields
  exact ⟨t, exec_transact_raised hready ht, hfields⟩

/-! Reads that end short. -/

/-- Settles O20: `transact_short` on the request; nothing is judged, so the results and the CRC are the request's. -/
theorem shortResponse : Obligations.ShortResponse := by
  unfold Obligations.ShortResponse
  intro s i chunks a more hready haccepts hqueue hne hreads ha hlen
  have hbus := hready.bus
  obtain ⟨_, _, _, _, hexpLen, _⟩ := prepared_sets s hbus
  obtain ⟨t, r, ht, hstatus, herrExp, herrAct, hcnt, hvalid, hde, hre, hseq, hrest, _, hevents⟩ :=
    transact_short (s := prepared s i) (prepared_accepts hbus haccepts) (by simpa only [prepared_keeps] using hqueue) hne
      (by simpa only [prepared_keeps] using hreads) ha (by rw [hexpLen]; exact hlen)
  obtain ⟨hlife, hbits, hregs, hcrc, _⟩ := rest_prepared hbus hrest
  rw [prepared_events, prepared_frame hbus hready.buffers.tx] at hevents
  refine ⟨t, exec_transact_raised hready ht, hstatus, herrExp.trans hexpLen, herrAct, hcnt, hvalid, hbits, hregs, hcrc,
    hseq, hde, hre, hlife.trans hready.opened, ?_⟩
  rw [writtenBytes_events, newEntries_events hevents, List.flatMap_append, List.flatMap_append, sent_txEvents,
    sent_rxEvents]
  simp [Event.sent]

/-- Settles O21: `transact_readError` on the request. -/
theorem readErrorEnds : Obligations.ReadErrorEnds := by
  unfold Obligations.ReadErrorEnds
  intro s i chunks more hready haccepts hqueue hne hreads hlen
  have hbus := hready.bus
  obtain ⟨_, _, _, _, hexpLen, _⟩ := prepared_sets s hbus
  obtain ⟨t, ht, hstatus, herrExp, herrAct, _, hvalid, hde, hre, hseq, hrest⟩ :=
    transact_readError (s := prepared s i) (prepared_accepts hbus haccepts) (by simpa only [prepared_keeps] using hqueue)
      hne (by simpa only [prepared_keeps] using hreads) (by rw [hexpLen]; exact hlen)
  obtain ⟨hlife, _⟩ := rest_prepared hbus hrest
  exact ⟨t, exec_transact_raised hready ht, hstatus, herrExp.trans hexpLen, herrAct, hvalid, hseq, hde, hre,
    hlife.trans hready.opened⟩

/-! The response whole. -/

theorem txEvents_length (frame : List Byte) : (txEvents frame).length = 10 + 2 * frame.length := by
  have hsending : (sending frame).length = 2 * frame.length := by
    induction frame with
    | nil => rfl
    | cons b rest ih =>
      rw [sending, List.flatMap_cons, List.length_append, ← sending, ih]
      simp only [List.length_cons, List.length_nil]
      omega
  simp only [txEvents, toTransmit, toReceive, List.length_append, hsending, List.length_cons, List.length_nil]
  omega

theorem rxEvents_length (n : Nat) (chunks : List (List Byte)) : (rxEvents n chunks).length = 2 * chunks.length := by
  induction chunks generalizing n with
  | nil => rfl
  | cons c rest ih =>
    rw [rxEvents, List.length_append, ih]
    simp only [List.length_cons, List.length_nil]
    omega

/-- Settles O22: judging the response adds no event to those of the exchange (`exec_exchanges`), which are counted. -/
theorem successfulExchangeTrace : Obligations.SuccessfulExchangeTrace := by
  unfold Obligations.SuccessfulExchangeTrace
  intro s i chunks h
  obtain ⟨u, hexec, _, _, _, _, _, _, _, _, _, _, _, hevents⟩ := exec_exchanges h
  have htrace : (judged s.params i u).state.trace = u.trace := by
    simp only [ungraded_fields (judged_ungraded s.params i u)]
  have hall : (judged s.params i u).state.events =
      s.events ++ (txEvents (requestFrame i) ++ rxEvents i.responseLength chunks) := by
    rw [State.events, htrace]
    exact hevents
  refine ⟨_, hexec, hall, ?_⟩
  rw [← List.length_map (f := fun e : TraceEntry => e.event), newEntries_events hall, List.length_append,
    txEvents_length, rxEvents_length]

end Sys2Proof.Machine
end

section
/-! Proofs about the judgement of a complete response (40_crc16.md R116, 41_frame_codec.md R130 to R135,
43_read_ops.md R175, 44_write_ops.md R185 to R194). -/

namespace Sys2Proof.Machine

/-! Which of its cases a judgement is. -/

section
variable {p : Params} {i : Instr} {u : State} {rsp : List Byte} {f : Flow}

theorem graded_slave (h : Graded p i u rsp f) (h0 : byteAt rsp 0 ≠ i.slaveByte) :
    f = .raised (u.raise .protocolMismatchError i.slaveByte.toNat (byteAt rsp 0).toNat) := by
  rcases h with ⟨_, h⟩ | ⟨h0', _⟩ | ⟨h0', _⟩ | ⟨h0', _⟩ | ⟨h0', _⟩
  · exact h
  all_goals exact absurd h0' h0

theorem graded_code (h : Graded p i u rsp f) (h0 : byteAt rsp 0 = i.slaveByte) (h1 : byteAt rsp 1 ≠ i.functionCode) :
    f = .raised (u.raise .protocolMismatchError i.functionCode.toNat (byteAt rsp 1).toNat) := by
  rcases h with ⟨h0', _⟩ | ⟨_, _, h⟩ | ⟨_, h1', _⟩ | ⟨_, h1', _⟩ | ⟨_, h1', _⟩
  · exact absurd h0 h0'
  · exact h
  all_goals exact absurd h1' h1

theorem graded_crc (h : Graded p i u rsp f) (h0 : byteAt rsp 0 = i.slaveByte) (h1 : byteAt rsp 1 = i.functionCode)
    (hcrc : receivedCrc rsp ≠ computedCrc rsp) :
    f = .raised (State.raise .crcError (computedCrc rsp).toNat (receivedCrc rsp).toNat
      { u with crc := computedCrc rsp }) := by
  rcases h with ⟨h0', _⟩ | ⟨_, h1', _⟩ | ⟨_, _, _, h⟩ | ⟨_, _, hcrc', _⟩ | ⟨_, _, hcrc', _⟩
  · exact absurd h0 h0'
  · exact absurd h1 h1'
  · exact h
  all_goals exact absurd hcrc' hcrc

/-- R130, R135: of an accepted response only the echo is left to judge. -/
theorem graded_accepted (h : Graded p i u rsp f) (hacc : Accepted i rsp) :
    (i.echoes p = true ∧ ∃ k, k < 6 ∧ Memory.read u.txBuf k ≠ byteAt rsp k ∧
      (∀ j < k, Memory.read u.txBuf j = byteAt rsp j) ∧
      f = .raised (State.raise .protocolMismatchError (Memory.read u.txBuf k).toNat (byteAt rsp k).toNat
        { u with crc := computedCrc rsp })) ∨
    ((i.echoes p = true → ∀ k < 6, Memory.read u.txBuf k = byteAt rsp k) ∧
      f = .running (decoded { u with crc := computedCrc rsp } rsp i)) := by
  rcases h with ⟨h0, _⟩ | ⟨_, h1, _⟩ | ⟨_, _, hcrc, _⟩ | ⟨_, _, _, h⟩ | ⟨_, _, _, h⟩
  · exact absurd hacc.slave h0
  · exact absurd hacc.code h1
  · exact absurd hacc.crc hcrc
  · exact .inl h
  · exact .inr h

theorem graded_echo (h : Graded p i u rsp f) (hacc : Accepted i rsp) (he : i.echoes p = true) {k : Nat} (hk : k < 6)
    (hne : Memory.read u.txBuf k ≠ byteAt rsp k) (hbefore : ∀ j < k, Memory.read u.txBuf j = byteAt rsp j) :
    f = .raised (State.raise .protocolMismatchError (Memory.read u.txBuf k).toNat (byteAt rsp k).toNat
      { u with crc := computedCrc rsp }) := by
  rcases graded_accepted h hacc with ⟨_, l, _, hl, hbefore', h⟩ | ⟨hall, _⟩
  · obtain rfl : k = l := by
      rcases Nat.lt_trichotomy k l with hkl | hkl | hkl
      · exact absurd (hbefore' k hkl) hne
      · exact hkl
      · exact absurd (hbefore l hkl) hl
    exact h
  · exact absurd (hall he k hk) hne

theorem graded_ok (h : Graded p i u rsp f) (hacc : Accepted i rsp)
    (hecho : i.echoes p = true → ∀ k < 6, Memory.read u.txBuf k = byteAt rsp k) :
    f = .running (decoded { u with crc := computedCrc rsp } rsp i) := by
  rcases graded_accepted h hacc with ⟨he, k, hk, hne, _⟩ | ⟨_, h⟩
  · exact absurd (hecho he k hk) hne
  · exact h

end

/-! What a success writes. -/

/-- R175: the two bit-valued reads write RES_BITS, the two register-valued ones RES_REGS, and the writes no result. -/
theorem decoded_results (u : State) (rsp : List Byte) (i : Instr) :
    (i.resultKind ≠ .bits → (decoded u rsp i).resBits = u.resBits) ∧
    (i.resultKind ≠ .regs → (decoded u rsp i).resRegs = u.resRegs) := by
  cases i with
  | readCoils => exact ⟨fun h => absurd rfl h, fun _ => rfl⟩
  | readDiscreteInputs => exact ⟨fun h => absurd rfl h, fun _ => rfl⟩
  | readHoldingRegisters => exact ⟨fun _ => rfl, fun h => absurd rfl h⟩
  | readInputRegisters => exact ⟨fun _ => rfl, fun h => absurd rfl h⟩
  | _ => exact ⟨fun _ => rfl, fun _ => rfl⟩

/-! An exchange whose response comes whole. -/

/-- The state `u` in which the response `rsp` of an exchange begun in `s` stands complete, to be judged. -/
structure Responded (s : State) (i : Instr) (rsp : List Byte) (u : State) : Prop where
  graded : Graded s.params i u rsp (judged s.params i u)
  settled : (judged s.params i u).state.Settled i rsp
  request : ∀ k < 6, Memory.read u.txBuf k = byteAt (requestFrame i) k
  results : u.resBits = s.resBits ∧ u.resRegs = s.resRegs
  context : u.errExp = s.errExp ∧ u.errAct = s.errAct
  crc : u.crc = crc16 (encode i)
  written : writtenBytes (newEntries s (judged s.params i u).state) = requestFrame i

/-- R162, R175, R185: an exchange whose frame is accepted and whose complete response comes as `chunks` ends in the
judgement of that response. -/
theorem exec_responded {s : State} {i : Instr} {chunks : List (List Byte)} (h : s.Exchanges i chunks) :
    ∃ u, exec i s = .next (judged s.params i u).state ∧ Responded s i chunks.flatten u := by
  have hbus := h.ready.bus
  obtain ⟨u, hexec, hrsp, hrest, hseq, hde, hre, hcnt, _, hload, _, herrExp, herrAct, hevents⟩ := exec_exchanges h
  obtain ⟨hlife, hbits, hregs, hcrc, htxBuf⟩ := rest_prepared hbus hrest
  have hgraded := judged_cases s.params i u
  rw [hrsp] at hgraded
  have hsame := ungraded_fields (judged_ungraded s.params i u)
  have hjudged := congrArg State.life (judged_ungraded s.params i u)
  have hlife' : (judged s.params i u).state.life = u.life := hjudged
  have hends : (judged s.params i u).state.events =
      s.events ++ (txEvents (requestFrame i) ++ rxEvents i.responseLength chunks) := by
    rw [State.events, hsame.2.1]
    exact hevents
  have hframe := requestFrame_bounds hbus h.ready.wellFormed
  refine ⟨u, hexec, hgraded, ?_, fun k hk => ?_, ⟨hbits, hregs⟩, ⟨herrExp, herrAct⟩, hcrc, ?_⟩
  · exact ⟨by rw [hlife', hlife, h.ready.opened], by simp only [hsame, hseq], by simp only [hsame, hde],
      by simp only [hsame, hre], by simp only [hsame, hcnt], by simp only [hsame, hload]⟩
  · obtain ⟨_, _, hprepared, _⟩ := prepared_sets s hbus
    rw [htxBuf, ← hprepared, read_prepared hbus h.ready.buffers.tx (by omega)]
  · rw [writtenBytes_events, newEntries_events hends, List.flatMap_append, sent_txEvents, sent_rxEvents,
      List.append_nil]

/-- Settles O23: each clause picks its case of the judgement. -/
theorem responseJudged : Obligations.ResponseJudged := by
  unfold Obligations.ResponseJudged
  intro s i chunks h
  obtain ⟨u, hexec, hu⟩ := exec_responded h
  refine ⟨_, hexec, hu.settled, fun h0 => ?_, fun h0 h1 => ?_, fun h0 h1 hcrc => ?_, fun hacc hecho => ?_,
    fun hne => ?_⟩
  · rw [graded_slave hu.graded h0]
    exact ⟨rfl, rfl, rfl⟩
  · rw [graded_code hu.graded h0 h1]
    exact ⟨rfl, rfl, rfl⟩
  · rw [graded_crc hu.graded h0 h1 hcrc]
    exact ⟨rfl, rfl, rfl⟩
  · rw [graded_ok hu.graded hacc (by simp [hecho])]
    exact (decoded_status _ _ h.ready.bus).1
  · rcases graded_ends h.ready.bus hu.graded with ⟨hok, _⟩ | ⟨_, _, hbits, hregs⟩
    · exact absurd hok hne
    · exact ⟨hbits.trans hu.results.1, hregs.trans hu.results.2⟩

/-- An accepted response whose echo is not checked, or is right, ends in success. -/
theorem exec_accepted {s : State} {i : Instr} {chunks : List (List Byte)} (h : s.Exchanges i chunks)
    (hacc : Accepted i chunks.flatten)
    (hecho : i.echoes s.params = true → ∀ k < 6, byteAt chunks.flatten k = byteAt (requestFrame i) k) :
    ∃ u, exec i s = .next (decoded u chunks.flatten i) ∧ (decoded u chunks.flatten i).Settled i chunks.flatten ∧
      u.resBits = s.resBits ∧ u.resRegs = s.resRegs := by
  obtain ⟨u, hexec, hu⟩ := exec_responded h
  have hok := graded_ok hu.graded hacc fun he k hk => (hu.request k hk).trans (hecho he k hk).symm
  have hsettled := hu.settled
  rw [hok] at hexec hsettled
  exact ⟨_, hexec, hsettled, hu.results⟩

theorem getD_unpackBits {rsp : List Byte} {n k : Nat} (d : Bool) (hk : k < n) :
    (unpackBits rsp n).getD k d = unpackBit rsp k := by
  simp [unpackBits, hk]

theorem getD_unpackRegs {rsp : List Byte} {n k : Nat} (d : Word) (hk : k < n) :
    (unpackRegs rsp n).getD k d = unpackReg rsp k := by
  simp [unpackRegs, hk]

/-- Settles O24: the accepted response is decoded by `unpackBits`, whose element `k` is `unpackBit`. -/
theorem readBitsResult : Obligations.ReadBitsResult := by
  unfold Obligations.ReadBitsResult
  intro s slave start count i chunks hi h hacc
  have hecho : i.echoes s.params = false := by rcases hi with rfl | rfl <;> rfl
  obtain ⟨u, hexec, hsettled, _, hregs⟩ := exec_accepted h hacc (by simp [hecho])
  refine ⟨_, hexec, (decoded_status _ _ h.ready.bus).1, hsettled, ?_⟩
  have hresult : (decoded u chunks.flatten i).resRegs = u.resRegs ∧
      (decoded u chunks.flatten i).resBits = unpackBits chunks.flatten count.toNat := by
    rcases hi with rfl | rfl <;> exact ⟨rfl, rfl⟩
  rw [hresult.1, hresult.2]
  exact ⟨hregs, unpackBits_length _ _, fun k hk => getD_unpackBits _ hk⟩

/-- Settles O25: the accepted response is decoded by `unpackRegs`, whose element `k` is `unpackReg`. -/
theorem readRegistersResult : Obligations.ReadRegistersResult := by
  unfold Obligations.ReadRegistersResult
  intro s slave start count i chunks hi h hacc
  have hecho : i.echoes s.params = false := by rcases hi with rfl | rfl <;> rfl
  obtain ⟨u, hexec, hsettled, hbits, _⟩ := exec_accepted h hacc (by simp [hecho])
  refine ⟨_, hexec, (decoded_status _ _ h.ready.bus).1, hsettled, ?_⟩
  have hresult : (decoded u chunks.flatten i).resBits = u.resBits ∧
      (decoded u chunks.flatten i).resRegs = unpackRegs chunks.flatten count.toNat := by
    rcases hi with rfl | rfl <;> exact ⟨rfl, rfl⟩
  rw [hresult.1, hresult.2]
  refine ⟨hbits, unpackRegs_length _ _, fun k hk => ?_⟩
  rw [getD_unpackRegs _ hk, unpackReg, wordBe_eq]

/-- Settles O26: of an accepted response only the echo is left to judge (`graded_accepted`). -/
theorem writeCoilResult : Obligations.WriteCoilResult := by
  unfold Obligations.WriteCoilResult
  intro s slave addr value chunks h hacc
  obtain ⟨u, hexec, hu⟩ := exec_responded h
  obtain ⟨_, _, haddr, _, hvalue, _⟩ := exec_bus_request h.ready.bus hexec
  refine ⟨_, hexec, hu.settled, haddr, hvalue, ?_, fun hall => ?_, fun hnot => ?_⟩
  · rw [hu.written, requestFrame_writeCoil]
  · rw [graded_ok hu.graded hacc fun _ k hk => (hu.request k hk).trans (hall k hk).symm]
    rfl
  · rcases graded_accepted hu.graded hacc with ⟨_, k, _, _, _, hraised⟩ | ⟨hall, _⟩
    · rw [hraised]
      rfl
    · exact absurd (fun k hk => (hall rfl k hk).symm.trans (hu.request k hk)) hnot

/-- Settles O27: the case of the judgement is that of the first difference (`graded_echo`). -/
theorem echoMismatch : Obligations.EchoMismatch := by
  unfold Obligations.EchoMismatch
  intro s i chunks k h hacc hecho hk hne hbefore
  obtain ⟨u, hexec, hu⟩ := exec_responded h
  have hraised := graded_echo hu.graded hacc hecho hk (by rw [hu.request k hk]; exact hne.symm)
    (fun j hj => (hu.request j (by omega)).trans (hbefore j hj).symm)
  rw [hu.request k hk] at hraised
  exact ⟨_, hexec, by rw [hraised]; exact ⟨rfl, rfl, rfl, rfl⟩⟩

/-- R192, R195: REQ_COUNT holds how many values a multiple write has. -/
theorem reqCount_writeMultipleCoils {slave : Byte} {start : Word} {values : List Bool}
    (hwf : (Instr.writeMultipleCoils slave start values).WellFormed) :
    (BitVec.ofNat 16 values.length).toNat = values.length := by
  have hlen : values.length ≤ Config.maxCoilsWrite := of_decide_eq_true hwf
  simp only [Config.maxCoilsWrite] at hlen
  exact toNat_ofNat_of_lt (by omega)

theorem reqCount_writeMultipleRegisters {slave : Byte} {start : Word} {values : List Word}
    (hwf : (Instr.writeMultipleRegisters slave start values).WellFormed) :
    (BitVec.ofNat 16 values.length).toNat = values.length := by
  have hlen : values.length ≤ Config.maxRegsWrite := of_decide_eq_true hwf
  simp only [Config.maxRegsWrite] at hlen
  exact toNat_ofNat_of_lt (by omega)

/-- Settles O28: the response is accepted and its echo right (`exec_accepted`); the registers are those the request
wrote (`exec_bus_request`). -/
theorem writeOpsSucceed : Obligations.WriteOpsSucceed := by
  unfold Obligations.WriteOpsSucceed
  intro s slave addr value coil coils regs i chunks hi h hacc hecho
  obtain ⟨u, hexec, hsettled, _⟩ := exec_accepted h hacc hecho
  obtain ⟨hstatus, hvalid⟩ := decoded_status u chunks.flatten h.ready.bus
  have hwf := h.ready.wellFormed
  obtain ⟨_, _, haddr, hcount, hvalue, hbits, hregs, _⟩ := exec_bus_request h.ready.bus hexec
  refine ⟨_, hexec, hstatus, ?_, hsettled, ?_, ?_, ?_, ?_⟩
  · rw [hvalid]
    rcases hi with rfl | rfl | rfl | rfl <;> rfl
  · rw [haddr]
    rcases hi with rfl | rfl | rfl | rfl <;> rfl
  · rintro rfl
    exact hvalue
  · rintro rfl
    exact ⟨by rw [hcount]; exact reqCount_writeMultipleCoils hwf, hbits⟩
  · rintro rfl
    exact ⟨by rw [hcount]; exact reqCount_writeMultipleRegisters hwf, hregs⟩

/-! Two judgements of one response. -/

/-- A success depends on the response and on what it keeps alone. -/
theorem decoded_agree {u u' : State} {i : Instr} (hbus : i.isBusOp = true) (rsp : List Byte)
    (hcontext : u'.errExp = u.errExp ∧ u'.errAct = u.errAct) (hresults : u'.resBits = u.resBits ∧ u'.resRegs = u.resRegs)
    (hcrc : u'.crc = u.crc) :
    (decoded u' rsp i).status = (decoded u rsp i).status ∧ (decoded u' rsp i).errExp = (decoded u rsp i).errExp ∧
    (decoded u' rsp i).errAct = (decoded u rsp i).errAct ∧ (decoded u' rsp i).resValid = (decoded u rsp i).resValid ∧
    (decoded u' rsp i).resBits = (decoded u rsp i).resBits ∧ (decoded u' rsp i).resRegs = (decoded u rsp i).resRegs ∧
    (decoded u' rsp i).crc = (decoded u rsp i).crc := by
  obtain ⟨hexp, hact⟩ := hcontext
  obtain ⟨hbits, hregs⟩ := hresults
  cases i with
  | readCoils => exact ⟨rfl, hexp, hact, rfl, rfl, hregs, hcrc⟩
  | readDiscreteInputs => exact ⟨rfl, hexp, hact, rfl, rfl, hregs, hcrc⟩
  | readHoldingRegisters => exact ⟨rfl, hexp, hact, rfl, hbits, rfl, hcrc⟩
  | readInputRegisters => exact ⟨rfl, hexp, hact, rfl, hbits, rfl, hcrc⟩
  | construct => cases hbus
  | close => cases hbus
  | crcReset => cases hbus
  | crcUpdate => cases hbus
  | _ => exact ⟨rfl, hexp, hact, rfl, hbits, hregs, hcrc⟩

/-- A judgement depends on the response, the parameters and the request's first bytes in TXBUF alone. -/
theorem graded_agree {p : Params} {i : Instr} {u u' : State} {rsp : List Byte} {f f' : Flow} (hbus : i.isBusOp = true)
    (h : Graded p i u rsp f) (h' : Graded p i u' rsp f') (htx : ∀ k < 6, Memory.read u'.txBuf k = Memory.read u.txBuf k)
    (hcontext : u'.errExp = u.errExp ∧ u'.errAct = u.errAct) (hresults : u'.resBits = u.resBits ∧ u'.resRegs = u.resRegs)
    (hcrc : u'.crc = u.crc) :
    f'.state.status = f.state.status ∧ f'.state.errExp = f.state.errExp ∧ f'.state.errAct = f.state.errAct ∧
    f'.state.resValid = f.state.resValid ∧ f'.state.resBits = f.state.resBits ∧
    f'.state.resRegs = f.state.resRegs ∧ f'.state.crc = f.state.crc := by
  obtain ⟨hbits, hregs⟩ := hresults
  rcases h with ⟨h0, hf⟩ | ⟨h0, h1, hf⟩ | ⟨h0, h1, hc, hf⟩ | ⟨h0, h1, hc, he, k, hk, hne, hbefore, hf⟩ |
    ⟨h0, h1, hc, hall, hf⟩
  · rw [hf, graded_slave h' h0]
    exact ⟨rfl, rfl, rfl, rfl, hbits, hregs, hcrc⟩
  · rw [hf, graded_code h' h0 h1]
    exact ⟨rfl, rfl, rfl, rfl, hbits, hregs, hcrc⟩
  · rw [hf, graded_crc h' h0 h1 hc]
    exact ⟨rfl, rfl, rfl, rfl, hbits, hregs, rfl⟩
  · rw [hf, graded_echo h' ⟨h0, h1, hc⟩ he hk (by rw [htx k hk]; exact hne)
      (fun j hj => (htx j (by omega)).trans (hbefore j hj)), htx k hk]
    exact ⟨rfl, rfl, rfl, rfl, hbits, hregs, rfl⟩
  · rw [hf, graded_ok h' ⟨h0, h1, hc⟩ fun he k hk => (htx k hk).trans (hall he k hk)]
    exact decoded_agree hbus rsp hcontext ⟨hbits, hregs⟩ rfl

end Sys2Proof.Machine
end

section
/-! Proofs about altered exchanges: other splits of a response, exception responses, flipped bits (20_memory.md R64,
70_reset_and_hazards.md R251, 40_crc16.md R118). -/

namespace Sys2Proof.Machine

/-- Settles O29: both deliveries end in the judgement of the same response, whose outcome they agree on
(`graded_agree`). -/
theorem splitsDoNotMatter : Obligations.SplitsDoNotMatter := by
  unfold Obligations.SplitsDoNotMatter
  intro s i chunks chunks' more h hne hsame
  have h' : State.Exchanges { s with readAns := arrivals chunks' ++ more } i chunks' :=
    ⟨⟨h.ready.bus, h.ready.wellFormed, h.ready.opened, h.ready.answered, ⟨h.ready.buffers.tx, h.ready.buffers.rx⟩⟩,
      h.accepts, ⟨h.delivers.1, hne, more, rfl⟩, by rw [hsame]; exact h.complete⟩
  obtain ⟨u, hexec, hu⟩ := exec_responded h
  obtain ⟨u', hexec', hu'⟩ := exec_responded h'
  rw [hsame] at hu'
  obtain ⟨hstatus, hexp, hact, hvalid, hbits, hregs, hcrc⟩ := graded_agree h.ready.bus hu.graded hu'.graded
    (fun k hk => (hu'.request k hk).trans (hu.request k hk).symm)
    ⟨hu'.context.1.trans hu.context.1.symm, hu'.context.2.trans hu.context.2.symm⟩
    ⟨hu'.results.1.trans hu.results.1.symm, hu'.results.2.trans hu.results.2.symm⟩ (hu'.crc.trans hu.crc.symm)
  have hsettled := hu.settled
  have hsettled' := hu'.settled
  exact ⟨_, _, hexec, hexec', hstatus, hexp, hact, hvalid, hbits, hregs, hsettled'.seq.trans hsettled.seq.symm,
    hsettled'.de.trans hsettled.de.symm, hsettled'.re.trans hsettled.re.symm, hcrc,
    hsettled'.count.trans hsettled.count.symm⟩

/-- R251: no function code has bit 7 set, so that of an exception response is another. -/
theorem exceptionCode_ne {i : Instr} (hbus : i.isBusOp = true) : i.functionCode ||| 0x80#8 ≠ i.functionCode := by
  have hclear : i.functionCode.getLsbD 7 = false := by
    cases i with
    | construct => cases hbus
    | close => cases hbus
    | crcReset => cases hbus
    | crcUpdate => cases hbus
    | _ => simp [Instr.functionCode]
  intro h
  have hset : (i.functionCode ||| 0x80#8).getLsbD 7 = false := by rw [h, hclear]
  rw [BitVec.getLsbD_or, hclear] at hset
  simp at hset

/-- Settles O30: where more is expected the five bytes are a short response (`transact_short`); where five are they are
complete, and their function-code byte is the first wrong one (`graded_code`). -/
theorem exceptionResponses : Obligations.ExceptionResponses := by
  unfold Obligations.ExceptionResponses
  intro s i code a more hready haccepts hqueue ha hreads
  have hbus := hready.bus
  obtain ⟨_, _, _, _, hexpLen, _⟩ := prepared_sets s hbus
  have hne : ∀ c ∈ [appendCrc [i.slaveByte, i.functionCode ||| 0x80#8, code]], c ≠ [] := by
    intro c hc
    rw [List.mem_singleton.1 hc]
    exact List.cons_ne_nil _ _
  have hflat : [appendCrc [i.slaveByte, i.functionCode ||| 0x80#8, code]].flatten =
      appendCrc [i.slaveByte, i.functionCode ||| 0x80#8, code] := by
    rw [List.flatten_cons, List.flatten_nil, List.append_nil]
  have hlen : [appendCrc [i.slaveByte, i.functionCode ||| 0x80#8, code]].flatten.length = 5 := by
    rw [hflat, appendCrc_length]
    rfl
  have hbounds := responseLength_bounds hbus
  by_cases hshort : 5 < i.responseLength
  · obtain ⟨t, _, ht, hstatus, hexp, hact, _⟩ :=
      transact_short (s := prepared s i) (prepared_accepts hbus haccepts)
        (by simpa only [prepared_keeps] using hqueue) hne (by simpa only [prepared_keeps] using hreads) ha
        (by rw [hexpLen, hlen]; exact hshort)
    exact ⟨t, exec_transact_raised hready ht, fun _ => ⟨hstatus, hexp.trans hexpLen, hact.trans hlen⟩, fun _ => by omega⟩
  · have h : s.Exchanges i [appendCrc [i.slaveByte, i.functionCode ||| 0x80#8, code]] :=
      ⟨hready, haccepts, ⟨hqueue, hne, a :: more, hreads⟩, by rw [hlen]; omega⟩
    obtain ⟨u, hexec, hu⟩ := exec_responded h
    have hraised := graded_code hu.graded (by rw [hflat]; rfl) (by rw [hflat]; exact exceptionCode_ne hbus)
    refine ⟨_, hexec, fun hlong => absurd hlong hshort, fun _ => ?_⟩
    rw [hraised, hflat]
    exact ⟨rfl, rfl, rfl⟩

theorem byteAt_set_self {bytes : List Byte} {j : Nat} {b : Byte} (hj : j < bytes.length) :
    byteAt (bytes.set j b) j = b := by
  simp [byteAt, hj]

theorem byteAt_set_ne {bytes : List Byte} {j k : Nat} {b : Byte} (hne : j ≠ k) :
    byteAt (bytes.set j b) k = byteAt bytes k := by
  simp [byteAt, List.getElem?_set_ne hne]

/-- Settles O55: a flip in byte 0 or 1 leaves that byte wrong, and one behind them leaves those two right and the CRC
wrong (`flipped_crc_wrong`). -/
theorem flippedResponseBit : Obligations.FlippedResponseBit := by
  unfold Obligations.FlippedResponseBit
  intro s i chunks rsp j k h hacc hj hk hflip
  have hbounds := responseLength_bounds h.ready.bus
  have hlen : rsp.length = i.responseLength := by
    rw [← h.complete, hflip, List.length_set]
  obtain ⟨u, hexec, hu⟩ := exec_responded h
  have hself : byteAt chunks.flatten j ≠ byteAt rsp j := by
    rw [hflip, byteAt_set_self hj]
    exact xor_bit_ne _ hk
  have hother : ∀ l, j ≠ l → byteAt chunks.flatten l = byteAt rsp l := by
    intro l hl
    rw [hflip, byteAt_set_ne hl]
  refine ⟨_, hexec, ?_⟩
  match j with
  | 0 =>
    rw [graded_slave hu.graded (hacc.slave ▸ hself), ← hacc.slave]
    exact ⟨rfl, fun _ => ⟨rfl, rfl, rfl⟩, fun h2 => absurd h2 (by omega)⟩
  | 1 =>
    rw [graded_code hu.graded ((hother 0 (by omega)).trans hacc.slave) (hacc.code ▸ hself), ← hacc.code]
    exact ⟨rfl, fun _ => ⟨rfl, rfl, rfl⟩, fun h2 => absurd h2 (by omega)⟩
  | j + 2 =>
    have hwrong : receivedCrc chunks.flatten ≠ computedCrc chunks.flatten := by
      rw [hflip]
      exact flipped_crc_wrong (by omega) hj hk hacc.crc
    rw [graded_crc hu.graded ((hother 0 (by omega)).trans hacc.slave) ((hother 1 (by omega)).trans hacc.code) hwrong]
    exact ⟨rfl, fun h2 => absurd h2 (by omega), fun _ => ⟨rfl, rfl, rfl⟩⟩

end Sys2Proof.Machine
end

section
/-! Proofs about a bus operation that ended, whatever was answered: its events, its end and its frame
(42_turnaround.md R145, R148; 10_state.md R21, R29; 40_crc16.md R120; 70_reset_and_hazards.md R247). -/

namespace Sys2Proof.Machine

/-! The events. -/

/-- Settles O31: the queue's conservation (`exec_bus_queue`), and the bound on the bytes delivered (`exec_bus_can`). -/
theorem staleBytesFirst : Obligations.StaleBytesFirst := by
  unfold Obligations.StaleBytesFirst
  intro s t i hbus hbuf h
  obtain ⟨f, a, _, can, rfl, _⟩ := exec_bus_can hbus hbuf h
  obtain ⟨new, htrace, _, _, hdelivered, _⟩ := can.trace
  refine ⟨?_, exec_bus_queue hbus h⟩
  rw [newEntries_leaving, newEntries_eq htrace]
  exact hdelivered

/-- Settles O33: the new entries are orderly (`exec_bus_can`). -/
theorem traceInTable : Obligations.TraceInTable := by
  unfold Obligations.TraceInTable
  intro s t i hbus hbuf h
  obtain ⟨f, a, new, can, rfl, hnew, htrace, hopen, _⟩ := exec_bus_can hbus hbuf h
  obtain ⟨new', htrace', horderly, _⟩ := can.trace
  rw [hnew]
  refine ⟨htrace.symm, fun e he => ?_⟩
  obtain rfl : new = new' := List.append_cancel_left (htrace.symm.trans htrace')
  obtain ⟨hlife, hsafe, htable⟩ := horderly e he
  exact ⟨htable, hsafe, hlife.trans hopen⟩

/-- A block of entries in one state of SEQ before a chain that begins in that state or the next. -/
theorem isChain_block {es : List TraceEntry} {q : Seq} {rest : List Nat} (hes : ∀ e ∈ es, e.seq = q)
    (hrest : rest.IsChain (fun a b => b = a ∨ b = a + 1))
    (hnext : ∀ n ∈ rest.head?, n = seqCode q ∨ n = seqCode q + 1) :
    (es.map (fun e => seqCode e.seq) ++ rest).IsChain (fun a b => b = a ∨ b = a + 1) := by
  induction es with
  | nil => exact hrest
  | cons e more ih =>
    have hmore := ih fun f hf => hes f (List.mem_cons_of_mem _ hf)
    rw [List.map_cons, List.cons_append, hes e List.mem_cons_self]
    refine List.isChain_cons.2 ⟨?_, hmore⟩
    intro n hn
    cases more with
    | nil => exact hnext n hn
    | cons f _ =>
      simp only [List.map_cons, List.cons_append, List.head?_cons, Option.mem_def, Option.some.injEq] at hn
      rw [← hn, hes f (by simp)]
      exact .inl rfl

/-- The first state of SEQ a block of entries is in, where there is one. -/
theorem head_block {es : List TraceEntry} {q : Seq} (hes : ∀ e ∈ es, e.seq = q) :
    ∀ n ∈ (es.map (fun e => seqCode e.seq)).head?, n = seqCode q := by
  cases es with
  | nil => simp
  | cons e more => simp [hes e]

/-- The first state of SEQ of two blocks, of which the second stands only behind the first. -/
theorem head_blocks {es : List TraceEntry} {q : Seq} {rest : List Nat} (hes : ∀ e ∈ es, e.seq = q)
    (hempty : es = [] → rest = []) :
    ∀ n ∈ (es.map (fun e => seqCode e.seq) ++ rest).head?, n = seqCode q := by
  cases es with
  | nil => simp [hempty rfl]
  | cons e more => simp [hes e]

/-- Settles O34: the phases of the trace (`exec_bus_phases`) are blocks of one state of SEQ each, in the order of the
state machine; only the last two can be empty, and the last is where the one before it is. -/
theorem seqGoesForward : Obligations.SeqGoesForward := by
  unfold Obligations.SeqGoesForward
  intro s t i hbus hbuf h
  obtain ⟨sent, turn, received, hnew, hne, hsent, hturn, hreceived, hwhole⟩ := exec_bus_phases hbus h
  obtain ⟨f, a, _, can, rfl, _⟩ := exec_bus_can hbus hbuf h
  refine ⟨?_, by rw [hnew]; rfl, can.seq⟩
  have hbehind : turn = [] → received.map (fun e => seqCode e.seq) = [] := by
    intro hempty
    by_contra hsome
    have hturnWhole := hwhole fun hnone => hsome (by rw [hnone]; rfl)
    rw [hempty] at hturnWhole
    cases hturnWhole
  have hlast : (received.map (fun e => seqCode e.seq)).IsChain (fun a b => b = a ∨ b = a + 1) := by
    have := isChain_block (rest := []) hreceived List.isChain_nil (fun n hn => by cases hn)
    rwa [List.append_nil] at this
  rw [hnew, List.map_append, List.map_append, List.map_append]
  refine isChain_block (fun _ => transmitEntries_seq) (isChain_block hsent (isChain_block hturn hlast ?_) ?_) ?_
  · exact fun n hn => .inr (head_block hreceived n hn)
  · exact fun n hn => .inr (head_blocks hturn hbehind n hn)
  · exact fun n hn => .inr (head_blocks hsent (fun hempty => absurd hempty hne) n hn)

/-! How it ended. -/

/-- Everything a bus operation `i` that ended in `t` can have done: its exchange failed, or its complete response, the
bytes delivered, was judged in the state `u`. -/
inductive BusEnded (s : State) (i : Instr) (t : State) : Prop where
  | failed (hraised : TransactRaised (prepared s i) t) (hresults : t.resBits = s.resBits ∧ t.resRegs = s.resRegs)
      (hcrc : t.crc = crc16 (encode i))
  | judged (u : State) (f : Flow) (a : Option Nat) (ht : t = f.state.leaving a)
      (hgraded : Graded s.params i u (deliveredBytes (newEntries s t)) f)
      (hsettled : t.Settled i (deliveredBytes (newEntries s t)))
      (hresults : u.resBits = s.resBits ∧ u.resRegs = s.resRegs) (hcontext : u.errExp = s.errExp ∧ u.errAct = s.errAct)
      (hcrc : u.crc = crc16 (encode i))

theorem exec_bus_ended {s t : State} {i : Instr} (hbus : i.isBusOp = true) (hbuf : s.BuffersOk)
    (h : exec i s = .next t) : BusEnded s i t := by
  have hlife := exec_bus_life hbus h
  obtain ⟨f, a, new, can, rfl, hnew, htrace, hopen, _⟩ := exec_bus_can hbus hbuf h
  obtain ⟨new', htrace', _, _, _, _, hend⟩ := can.trace
  obtain rfl : new = new' := List.append_cancel_left (htrace.symm.trans htrace')
  rcases hend with ⟨t, rfl, _, hraised, hbits, hregs, hcrc⟩ |
    ⟨u, _, hgraded, hf, _, _, hload, hde, hre, hcnt, hbits, hregs, _, hexp, hact, hcrc⟩
  · exact .failed hraised ⟨hbits, hregs⟩ hcrc
  · have hsame := ungraded_fields (judged_ungraded s.params i u)
    rw [← hf] at hsame
    refine .judged u f a rfl (by rw [hnew]; exact hgraded) ?_ ⟨hbits, hregs⟩ ⟨hexp, hact⟩ hcrc
    rw [hnew]
    exact ⟨hlife.trans hopen, can.seq, by simp only [State.leaving_keeps, hsame, hde],
      by simp only [State.leaving_keeps, hsame, hre], by simp only [State.leaving_keeps, hsame, hcnt], hload⟩

/-- R155, R161, R163: an exchange that failed has left STATUS at one of its two errors. -/
theorem transactRaised_status {s t : State} (h : TransactRaised s t) :
    t.status = .transportError ∨ t.status = .timeoutError := by
  obtain ⟨_, ⟨hstatus, _⟩ | ⟨hstatus, _⟩ | ⟨hstatus, _⟩⟩ := h
  · exact .inl hstatus
  · exact .inl hstatus
  · exact .inr hstatus

/-- R212: a judged response leaves STATUS at none of the exchange's errors. -/
theorem graded_status {p : Params} {i : Instr} {u : State} {rsp : List Byte} {f : Flow} (hbus : i.isBusOp = true)
    (h : Graded p i u rsp f) : f.state.status ≠ .transportError ∧ f.state.status ≠ .timeoutError := by
  rcases graded_ends hbus h with ⟨hstatus, _⟩ | ⟨hstatus | hstatus, _⟩ <;> rw [hstatus] <;> decide

/-- Settles O32: the exchange failed in one of the three ways of `TransactRaised`, or its response stands complete. -/
theorem exchangeEnds : Obligations.ExchangeEnds := by
  unfold Obligations.ExchangeEnds
  intro s t i hbus hbuf h
  obtain ⟨hopen, _⟩ := exec_bus_open hbus h
  have hseq : t.seq = .receiveMode := by
    obtain ⟨f, a, _, can, rfl, _⟩ := exec_bus_can hbus hbuf h
    exact can.seq
  refine ⟨hseq, (exec_bus_life hbus h).trans hopen, ?_⟩
  cases exec_bus_ended hbus hbuf h with
  | failed hraised _ _ =>
    obtain ⟨_, _, _, _, hexpLen, _⟩ := prepared_sets s hbus
    have hparams : (prepared s i).params = s.params := by simp only [prepared_keeps]
    obtain ⟨_, hkind⟩ := hraised
    rw [hexpLen, hparams] at hkind
    rcases hkind with ⟨hstatus, hexp, hact, hde, hre, _⟩ | hread | hshort
    · exact .inr (.inr (.inr ⟨hstatus, hexp, hact, hde, hre⟩))
    · exact .inr (.inr (.inl hread))
    · exact .inr (.inl hshort)
  | judged u f a ht hgraded hsettled _ _ _ =>
    refine .inl ⟨hsettled, ?_⟩
    rw [ht]
    exact graded_status hbus hgraded

/-- Settles O57: a failed exchange leaves the CRC of the request; of a judged response the first two cases do, and the
others, whose slave and function-code bytes are right, that of the response. -/
theorem generatorRuns : Obligations.GeneratorRuns := by
  unfold Obligations.GeneratorRuns
  intro s t i hbus hbuf h
  cases exec_bus_ended hbus hbuf h with
  | failed hraised _ hcrc =>
    rw [if_pos, hcrc]
    rcases transactRaised_status hraised with hstatus | hstatus
    · exact .inl hstatus
    · exact .inr (.inl hstatus)
  | judged u f a ht hgraded _ _ _ hcrc =>
    generalize deliveredBytes (newEntries s t) = rsp at hgraded ⊢
    obtain ⟨hnoTransport, hnoTimeout⟩ := graded_status hbus hgraded
    have hstatus : t.status = f.state.status := by rw [ht]; rfl
    have hcrc' : t.crc = f.state.crc := by rw [ht]; rfl
    rw [hstatus, hcrc']
    rcases hgraded with ⟨h0, hf⟩ | ⟨_, h1, hf⟩ | ⟨h0, h1, _, hf⟩ | ⟨h0, h1, _, _, _, _, _, _, hf⟩ | ⟨h0, h1, _, _, hf⟩
    · rw [if_pos (.inr (.inr (.inl h0))), hf]
      exact hcrc
    · rw [if_pos (.inr (.inr (.inr h1))), hf]
      exact hcrc
    all_goals
      rw [if_neg (by simp [hnoTransport, hnoTimeout, h0, h1]), hf]
    · rfl
    · rfl
    · simp only [Flow.running_state, decoded_keeps]

/-! What it wrote. -/

/-- Settles O35: what the request wrote stays to the end (`exec_bus_request`); the frame by `prepared_sets` and
`prepared_frame`, the operation's own registers by its case of `prepared`. -/
theorem requestRegisters : Obligations.RequestRegisters := by
  unfold Obligations.RequestRegisters
  intro s t i hbus hbuf h
  obtain ⟨hslave, hfc, haddr, hcount, hvalue, hbits, hregs, htxBuf, htxLen, hexpLen⟩ := exec_bus_request hbus h
  obtain ⟨_, hwf⟩ := exec_bus_open hbus h
  obtain ⟨pslave, pfc, _, ptxLen, pexpLen, _⟩ := prepared_sets s hbus
  have hlen : t.txLen = (requestFrame i).length := htxLen.trans ptxLen
  refine ⟨hslave.trans pslave, hfc.trans pfc, hlen, hexpLen.trans pexpLen,
    by rw [htxBuf, htxLen]; exact prepared_frame hbus hbuf.tx, ?_, ?_, ?_, ?_, ?_⟩
  · intro slave start count hi
    rw [haddr, hcount, hlen]
    rcases hi with rfl | rfl | rfl | rfl <;> exact ⟨rfl, rfl, rfl⟩
  · rintro slave addr value rfl
    exact ⟨haddr, hvalue, hlen⟩
  · rintro slave addr value rfl
    exact ⟨haddr, hvalue, hlen⟩
  · rintro slave start values rfl
    refine ⟨haddr, by rw [hcount]; exact reqCount_writeMultipleCoils hwf, hbits, ?_⟩
    rw [hlen, requestFrame, appendCrc_length, encode, bodyWMC_length, ceil8]
    omega
  · rintro slave start values rfl
    refine ⟨haddr, by rw [hcount]; exact reqCount_writeMultipleRegisters hwf, hregs, ?_⟩
    rw [hlen, requestFrame, appendCrc_length, encode, bodyWMR_length]
    omega

/-- R27, R213: which result registers and context values a bus operation writes. -/
theorem exec_bus_results {s t : State} {i : Instr} (hbus : i.isBusOp = true) (hbuf : s.BuffersOk)
    (h : exec i s = .next t) :
    (i.resultKind ≠ .bits → t.resBits = s.resBits) ∧ (i.resultKind ≠ .regs → t.resRegs = s.resRegs) ∧
    (t.status = .ok → t.errExp = s.errExp ∧ t.errAct = s.errAct) ∧
    (t.status ≠ .ok → t.resBits = s.resBits ∧ t.resRegs = s.resRegs) := by
  cases exec_bus_ended hbus hbuf h with
  | failed hraised hresults _ =>
    obtain ⟨hbits, hregs⟩ := hresults
    refine ⟨fun _ => hbits, fun _ => hregs, fun hok => ?_, fun _ => ⟨hbits, hregs⟩⟩
    have hstatus := transactRaised_status hraised
    simp [hok] at hstatus
  | judged u f a ht hgraded _ hresults hcontext _ =>
    obtain ⟨hbits, hregs⟩ := hresults
    generalize deliveredBytes (newEntries s t) = rsp at hgraded
    subst ht
    simp only [State.leaving_keeps]
    rcases hgraded with ⟨_, rfl⟩ | ⟨_, _, rfl⟩ | ⟨_, _, _, rfl⟩ | ⟨_, _, _, _, _, _, _, _, rfl⟩ | ⟨_, _, _, _, rfl⟩
    case inr.inr.inr.inr =>
      obtain ⟨hkeepBits, hkeepRegs⟩ := decoded_results { u with crc := computedCrc rsp } rsp i
      refine ⟨fun hk => (hkeepBits hk).trans hbits, fun hk => (hkeepRegs hk).trans hregs, fun _ => ?_,
        fun hne => absurd (decoded_status _ _ hbus).1 hne⟩
      simp only [Flow.running_state, decoded_keeps, hcontext, and_self]
    all_goals
      refine ⟨fun _ => hbits, fun _ => hregs, fun hok => ?_, fun _ => ⟨hbits, hregs⟩⟩
      cases hok

/-- R24, R25: of memory a bus operation changes the bytes of its frame in TXBUF and those delivered in RXBUF. -/
theorem exec_bus_memory {s t : State} {i : Instr} (hbus : i.isBusOp = true) (hbuf : s.BuffersOk)
    (h : exec i s = .next t) :
    (∀ a, (requestFrame i).length ≤ a → Memory.read t.txBuf a = Memory.read s.txBuf a) ∧
    (∀ a, (deliveredBytes (newEntries s t)).length ≤ a → Memory.read t.rxBuf a = Memory.read s.rxBuf a) := by
  obtain ⟨_, _, _, _, _, _, _, htxBuf, _⟩ := exec_bus_request hbus h
  obtain ⟨_, _, ptxBuf, _⟩ := prepared_sets s hbus
  constructor
  · intro a ha
    rw [htxBuf, ptxBuf, Memory.read_store_outside (.inr (by omega))]
  · obtain ⟨f, b, new, can, rfl, hnew, htrace, _⟩ := exec_bus_can hbus hbuf h
    obtain ⟨new', htrace', _, _, _, hrx, _⟩ := can.trace
    obtain rfl : new = new' := List.append_cancel_left (htrace.symm.trans htrace')
    rw [hnew]
    exact hrx

/-- Settles O36: the registers no bus operation writes (`exec_bus_keeps`), those its request leaves
(`exec_bus_request`), its results and its memory. -/
theorem readOpsFrame : Obligations.ReadOpsFrame := by
  unfold Obligations.ReadOpsFrame
  intro s t slave start count i hi hbuf h
  have hbus : i.isBusOp = true := by rcases hi with rfl | rfl | rfl | rfl <;> rfl
  obtain ⟨hlife, hser, hgpio, hport, hbaud, hde, hre, hparams, hopenAns, hflushAns, hgpioAns, hconfigAns, hpending,
    hcontrol⟩ := exec_bus_keeps hbus h
  obtain ⟨_, _, _, _, hvalue, hbits, hregs, _⟩ := exec_bus_request hbus h
  obtain ⟨hresBits, hresRegs, hok, hne⟩ := exec_bus_results hbus hbuf h
  obtain ⟨htx, hrx⟩ := exec_bus_memory hbus hbuf h
  have hrequest : (prepared s i).reqValue = s.reqValue ∧ (prepared s i).reqBits = s.reqBits ∧
      (prepared s i).reqRegs = s.reqRegs := by
    rcases hi with rfl | rfl | rfl | rfl <;> exact ⟨rfl, rfl, rfl⟩
  obtain ⟨pvalue, pbits, pregs⟩ := hrequest
  exact ⟨hlife, hser, hgpio, hport, hbaud, hde, hre, hvalue.trans pvalue, hbits.trans pbits, hregs.trans pregs, hparams,
    hopenAns, hflushAns, hgpioAns, hconfigAns, hpending, hcontrol, fun hk => hresRegs (by simp [hk]),
    fun hk => hresBits (by simp [hk]), hok, hne, htx, hrx⟩

/-- Settles O37, as `readOpsFrame`; a write has no result, and its own rule names its registers. -/
theorem writeOpsFrame : Obligations.WriteOpsFrame := by
  unfold Obligations.WriteOpsFrame
  intro s t slave addr value coil coils regs i hi hbuf h
  have hbus : i.isBusOp = true ∧ i.resultKind = .nothing := by
    rcases hi with rfl | rfl | rfl | rfl <;> exact ⟨rfl, rfl⟩
  obtain ⟨hbus, hkind⟩ := hbus
  obtain ⟨hlife, hser, hgpio, hport, hbaud, hde, hre, hparams, hopenAns, hflushAns, hgpioAns, hconfigAns, hpending,
    hcontrol⟩ := exec_bus_keeps hbus h
  obtain ⟨_, _, _, hcount, hvalue, hbits, hregs, _⟩ := exec_bus_request hbus h
  obtain ⟨hresBits, hresRegs, hok, _⟩ := exec_bus_results hbus hbuf h
  obtain ⟨htx, hrx⟩ := exec_bus_memory hbus hbuf h
  refine ⟨hlife, hser, hgpio, hport, hbaud, hde, hre, hparams, hopenAns, hflushAns, hgpioAns, hconfigAns, hpending,
    hcontrol, hresBits (by simp [hkind]), hresRegs (by simp [hkind]), ?_, ?_, ?_, hok, htx, hrx⟩
  · rintro (rfl | rfl) <;> exact ⟨hcount, hbits, hregs⟩
  · rintro rfl
    exact ⟨hvalue, hregs⟩
  · rintro rfl
    exact ⟨hvalue, hbits⟩

end Sys2Proof.Machine
end

section
/-! Proofs about leftovers: no bus operation reads what an earlier command left in the descriptor, the buffers or the
counts (10_state.md R21, R24, R25, R41). -/

namespace Sys2Proof.Machine

/-- The registers that can still hold what an earlier command left when a request stands prepared. -/
structure Leftovers where
  addr : Word
  count : Word
  value : Word
  bits : List Bool
  regs : List Word
  txBuf : Memory
  rxBuf : Memory
  rxCnt : Nat

/-- A state with other leftovers. -/
def State.over (x : Leftovers) (s : State) : State :=
  { s with
    reqAddr := x.addr, reqCount := x.count, reqValue := x.value, reqBits := x.bits, reqRegs := x.regs,
    txBuf := x.txBuf, rxBuf := x.rxBuf, rxCnt := x.rxCnt }

/-- A flow with other leftovers. -/
def Flow.over (x : Leftovers) : Flow → Flow
  | .running s => .running (s.over x)
  | .raised s => .raised (s.over x)

/-- What a state shows of itself to the host and on the bus, and what it keeps for the next command's environment. -/
theorem State.over_keeps (x : Leftovers) (s : State) :
    (s.over x).trace = s.trace ∧ (s.over x).status = s.status ∧ (s.over x).errExp = s.errExp ∧
    (s.over x).errAct = s.errAct ∧ (s.over x).resValid = s.resValid ∧ (s.over x).resBits = s.resBits ∧
    (s.over x).resRegs = s.resRegs ∧ (s.over x).rxQueue = s.rxQueue ∧ (s.over x).de = s.de ∧
    (s.over x).re = s.re ∧ (s.over x).writeAns = s.writeAns ∧ (s.over x).readAns = s.readAns ∧
    (s.over x).free = s.free :=
  ⟨rfl, rfl, rfl, rfl, rfl, rfl, rfl, rfl, rfl, rfl, rfl, rfl, rfl⟩

/-- R152: the transmit loop reads of TXBUF the bytes it sends, and writes none of the leftovers. -/
theorem transmitBytes_over (x : Leftovers) (left : Nat) (s : State)
    (htx : ∀ k, k < s.txIdx + left → Memory.read x.txBuf k = Memory.read s.txBuf k) :
    transmitBytes left (s.over x) = (transmitBytes left s).over x := by
  induction left generalizing s with
  | zero => rfl
  | succ left ih =>
    have hbyte : Memory.read (s.over x).txBuf (s.over x).txIdx = Memory.read s.txBuf s.txIdx :=
      htx s.txIdx (by omega)
    have hans : (s.over x).writeAnswer = s.writeAnswer := rfl
    rw [transmitBytes_succ, transmitBytes_succ, hans]
    split
    · have hsent : (s.over x).sentByte = s.sentByte.over x := by
        rw [State.sentByte, hbyte]
        rfl
      rw [hsent]
      exact ih s.sentByte fun k hk => htx k (by simp only [State.sentByte_sets] at hk; omega)
    · rw [hbyte]
      cases hp : s.params.txAbortRestoresRx <;> simp only [State.txAbort, State.wrote_keeps, State.over, hp] <;> rfl

/-- R158 to R161: the receive loop, begun with one count, ends with one count, whatever RXBUF holds. -/
theorem receiveLoop_over (fuel : Nat) (x : Leftovers) (s : State) (hcnt : x.rxCnt = s.rxCnt) :
    ∃ y, receiveLoop fuel (s.over x) = (receiveLoop fuel s).over y ∧ y.rxCnt = (receiveLoop fuel s).state.rxCnt := by
  induction fuel generalizing x s with
  | zero => exact ⟨x, rfl, hcnt⟩
  | succ fuel ih =>
    have hn : (s.over x).expLen - (s.over x).rxCnt = s.expLen - s.rxCnt := congrArg (s.expLen - ·) hcnt
    have hans : (s.over x).readAnswer (s.expLen - s.rxCnt) = s.readAnswer (s.expLen - s.rxCnt) := rfl
    have hlt : (s.over x).rxCnt < (s.over x).expLen ↔ s.rxCnt < s.expLen := by
      show x.rxCnt < s.expLen ↔ _
      rw [hcnt]
    rw [receiveLoop_succ, receiveLoop_succ, hn, hans]
    by_cases h : s.rxCnt < s.expLen
    · rw [if_pos h, if_pos (hlt.2 h)]
      cases s.readAnswer (s.expLen - s.rxCnt) with
      | data bs =>
        have hreceived : (s.over x).received bs = (s.received bs).over
            { x with rxBuf := Memory.store x.rxBuf x.rxCnt bs, rxCnt := x.rxCnt + bs.length } := by
          rw [State.received, hn]
          rfl
        dsimp only
        rw [hreceived]
        exact ih _ _ (congrArg (· + bs.length) hcnt)
      | zero => exact ⟨x, rfl, hcnt⟩
      | eos => exact ⟨x, rfl, hcnt⟩
      | readError =>
        refine ⟨x, ?_, hcnt⟩
        dsimp only
        rw [show (s.over x).rxCnt = s.rxCnt from hcnt]
        rfl
    · rw [if_neg h, if_neg fun h' => h (hlt.1 h')]
      exact ⟨x, rfl, hcnt⟩

theorem checkLength_over (x : Leftovers) (s : State) (hcnt : x.rxCnt = s.rxCnt) :
    checkLength (s.over x) = (checkLength s).over x := by
  have hcnt' : (State.goto .receiveMode (s.over x)).rxCnt = (State.goto .receiveMode s).rxCnt := hcnt
  have hexp : (State.goto .receiveMode (s.over x)).expLen = (State.goto .receiveMode s).expLen := rfl
  unfold checkLength
  dsimp only
  rw [hcnt', hexp]
  split <;> rfl

/-- R147: `Transact`, begun with the same frame in TXBUF, does the same whatever the leftovers are. -/
theorem transact_over (x : Leftovers) (n : Nat) (s : State)
    (htx : ∀ k, k < s.txLen → Memory.read x.txBuf k = Memory.read s.txBuf k) :
    ∃ y, transact { s.over x with txIdx := n } = (transact s).over y := by
  have hstart : State.transmitStart { s.over x with txIdx := n } = s.transmitStart.over x := rfl
  obtain ⟨_, _, _, _, _, htxBuf, htxIdx, _⟩ := State.transmitStart_fields s
  have hloop := transmitBytes_over x s.txLen s.transmitStart
    fun k hk => by rw [htxBuf]; exact htx k (by omega)
  rw [transact_eq, transact_eq, hstart]
  change ∃ y, (transmitBytes s.txLen (s.transmitStart.over x)).andThen _ = _
  rw [hloop]
  cases transmitBytes s.txLen s.transmitStart with
  | raised u => exact ⟨x, rfl⟩
  | running u =>
    have hreceive : State.enterReceive (State.delay .postFrame (u.over x)) =
        (State.enterReceive (State.delay .postFrame u)).over { x with rxCnt := 0 } := rfl
    obtain ⟨_, _, _, _, _, _, _, _, _, hzero, _⟩ := enterReceive_fields u
    obtain ⟨y, hreads, hcnt⟩ := receiveLoop_over u.expLen { x with rxCnt := 0 }
      (State.enterReceive (State.delay .postFrame u)) hzero.symm
    change ∃ y, (receiveLoop u.expLen (State.enterReceive (State.delay .postFrame (u.over x)))).andThen _ = _
    rw [hreceive, hreads, Flow.running_andThen]
    refine ⟨y, ?_⟩
    cases hv : receiveLoop u.expLen (State.enterReceive (State.delay .postFrame u)) with
    | raised v => rfl
    | running v =>
      rw [hv] at hcnt
      exact checkLength_over y v hcnt

/-- Two requests for one bus operation, prepared in states that differ in leftovers alone, do so too, and hold the same
frame in TXBUF. -/
theorem prepared_over {s s' : State} {i : Instr} (hbus : i.isBusOp = true) (htx : Memory.wf s.txBuf = true)
    (htx' : Memory.wf s'.txBuf = true)
    (hsame : s' = { s with
      reqSlave := s'.reqSlave, reqFc := s'.reqFc, reqAddr := s'.reqAddr, reqCount := s'.reqCount,
      reqValue := s'.reqValue, reqBits := s'.reqBits, reqRegs := s'.reqRegs, crc := s'.crc, txBuf := s'.txBuf,
      rxBuf := s'.rxBuf, txLen := s'.txLen, txIdx := s'.txIdx, expLen := s'.expLen, rxCnt := s'.rxCnt }) :
    ∃ x, prepared s' i = { (prepared s i).over x with txIdx := s'.txIdx } ∧
      ∀ k, k < (prepared s i).txLen → Memory.read x.txBuf k = Memory.read (prepared s i).txBuf k := by
  obtain ⟨_, _, htxBuf', _⟩ := prepared_sets s' hbus
  obtain ⟨_, _, _, htxLen, _⟩ := prepared_sets s hbus
  refine ⟨⟨(prepared s' i).reqAddr, (prepared s' i).reqCount, (prepared s' i).reqValue, (prepared s' i).reqBits,
    (prepared s' i).reqRegs, (prepared s' i).txBuf, s'.rxBuf, s'.rxCnt⟩, ?_, fun k hk => ?_⟩
  · rw [hsame]
    cases i with
    | construct => cases hbus
    | close => cases hbus
    | crcReset => cases hbus
    | crcUpdate => cases hbus
    | _ => rfl
  · rw [htxLen] at hk
    show Memory.read (prepared s' i).txBuf k = _
    rw [read_prepared hbus htx' hk, read_prepared hbus htx hk]

/-- Where `Transact` has brought the complete response, it is the bytes delivered, and is judged with the request in
TXBUF. -/
theorem running_graded {s u : State} {i : Instr} (hbus : i.isBusOp = true) (hwf : i.WellFormed) (hbuf : s.BuffersOk)
    (hu : transact (prepared s i) = .running u) :
    ∃ new, u.trace = s.trace ++ new ∧ Graded s.params i u (deliveredBytes new) (judged s.params i u) ∧
      ∀ k < 6, Memory.read u.txBuf k = byteAt (requestFrame i) k := by
  have can := bus_spec hbus hbuf.tx hbuf.rx
  obtain ⟨new, htrace, _, _, _, _, ⟨_, _, hraised, _⟩ |
    ⟨v, hv, hgraded, hf, _, _, _, _, _, _, _, _, htxBuf, _⟩⟩ := can.trace
  · rw [hu] at hraised
    cases hraised
  · rw [hu] at hv
    obtain rfl := Flow.running.inj hv
    rw [hf] at hgraded htrace
    obtain ⟨_, hsame, _⟩ := ungraded_fields (judged_ungraded s.params i u)
    obtain ⟨_, _, hprepared, _⟩ := prepared_sets s hbus
    have hframe := requestFrame_bounds hbus hwf
    refine ⟨new, hsame.symm.trans htrace, hgraded, fun k hk => ?_⟩
    rw [htxBuf, ← hprepared, read_prepared hbus hbuf.tx (by omega)]

/-- What judging leaves of what `State.over_keeps` names. -/
theorem judged_keeps (p : Params) (i : Instr) (u : State) :
    (judged p i u).state.trace = u.trace ∧ (judged p i u).state.rxQueue = u.rxQueue ∧
    (judged p i u).state.de = u.de ∧ (judged p i u).state.re = u.re ∧
    (judged p i u).state.writeAns = u.writeAns ∧ (judged p i u).state.readAns = u.readAns ∧
    (judged p i u).state.free = u.free := by
  have hfields := congrArg (fun v : State => (v.trace, v.rxQueue, v.de, v.re, v.writeAns, v.readAns, v.free))
    (judged_ungraded p i u)
  simpa only [State.ungraded, Prod.mk.injEq] using hfields

/-- R41: two states that differ in leftovers alone give the same outcome for the host and on the bus. -/
theorem exec_bus_over {s s' : State} {i : Instr} (hready : s.Ready i) (hready' : s'.Ready i)
    (hsame : s' = { s with
      reqSlave := s'.reqSlave, reqFc := s'.reqFc, reqAddr := s'.reqAddr, reqCount := s'.reqCount,
      reqValue := s'.reqValue, reqBits := s'.reqBits, reqRegs := s'.reqRegs, crc := s'.crc, txBuf := s'.txBuf,
      rxBuf := s'.rxBuf, txLen := s'.txLen, txIdx := s'.txIdx, expLen := s'.expLen, rxCnt := s'.rxCnt }) :
    ∃ t t', exec i s = .next t ∧ exec i s' = .next t' ∧ t'.trace = t.trace ∧ t'.status = t.status ∧
      t'.errExp = t.errExp ∧ t'.errAct = t.errAct ∧ t'.resValid = t.resValid ∧ t'.resBits = t.resBits ∧
      t'.resRegs = t.resRegs ∧ t'.rxQueue = t.rxQueue ∧ t'.de = t.de ∧ t'.re = t.re ∧ t'.writeAns = t.writeAns ∧
      t'.readAns = t.readAns ∧ t'.free = t.free := by
  have hbus := hready.bus
  obtain ⟨x, hprepared, hframe⟩ := prepared_over hbus hready.buffers.tx hready'.buffers.tx hsame
  obtain ⟨y, htransact⟩ := transact_over x s'.txIdx (prepared s i) hframe
  rw [← hprepared] at htransact
  refine ⟨_, _, exec_ready hready, exec_ready hready', ?_⟩
  rw [htransact]
  cases hu : transact (prepared s i) with
  | raised t => exact State.over_keeps y t
  | running u =>
    have hu' : transact (prepared s' i) = .running (u.over y) := by rw [htransact, hu]; rfl
    have hparams : s'.params = s.params := by rw [hsame]
    have htraces : s'.trace = s.trace := by rw [hsame]
    obtain ⟨new, htrace, hgraded, hread⟩ := running_graded hbus hready.wellFormed hready.buffers hu
    obtain ⟨new', htrace', hgraded', hread'⟩ := running_graded hbus hready.wellFormed hready'.buffers hu'
    obtain rfl : new = new' := by
      rw [htraces] at htrace'
      exact List.append_cancel_left (htrace.symm.trans htrace')
    rw [hparams] at hgraded' ⊢
    obtain ⟨hstatus, hexp, hact, hvalid, hbits, hregs, _⟩ := graded_agree hbus hgraded hgraded'
      (fun k hk => (hread' k hk).trans (hread k hk).symm) ⟨rfl, rfl⟩ ⟨rfl, rfl⟩ rfl
    have hkeep := judged_keeps s.params i u
    have hkeep' := judged_keeps s.params i (u.over y)
    simp only [Flow.over, Flow.running_andThen, hstatus, hexp, hact, hvalid, hbits, hregs, hkeep, hkeep',
      State.over_keeps, and_self]

/-- Settles O38: both states are ready, and differ in leftovers alone (`exec_bus_over`). -/
theorem leftoversDoNotMatter : Obligations.LeftoversDoNotMatter := by
  unfold Obligations.LeftoversDoNotMatter
  intro s i slave fc addr count value crc bits regs tx rx txLen txIdx expLen rxCnt hready htx hrx
  exact exec_bus_over hready ⟨hready.bus, hready.wellFormed, hready.opened, hready.answered, ⟨htx, hrx⟩⟩ rfl

end Sys2Proof.Machine
end
